-- ==== Sys2Proof/Word.lean ====
section
/-! DEFINITION. The machine's word and byte (10_state.md rule R22: registers are 32 bits wide). -/

namespace Sys2Proof

/-- A register, a bus address or a bus value: 32 bits (rules R22, R54). -/
abbrev Word := BitVec 32

/-- A byte of a window, of the receive FIFO or of the transmit stream. -/
abbrev Byte := BitVec 8

end Sys2Proof
end

