-- ==== Sys2Proof/Config.lean ====
section
/-! DEFINITION. Parameters of 00_scope.md rule R7: the fixed ones as constants, the open ones (ACC_SIZE, FHE_BASE)
as the structure `Config`, and the one free value of the model. -/

namespace Sys2Proof

/-- The open parameters. They are no state in the spec (10_state.md rule R19); the model carries them in a field of
State that no step changes, because the step takes no other argument (log 1). -/
structure Config where
  /-- ACC_SIZE, the bytes of the accumulator (rule R7). -/
  accSize : Nat
  /-- Bits [31:28] of FHE_BASE; the base is aligned to 2^28, so its other bits are 0 (rules R7, R54). -/
  fheBase : BitVec 4
  deriving DecidableEq, Repr

namespace Config

/-- Rule R7: ACC_SIZE is a multiple of 8 with 8 <= ACC_SIZE <= 0x00FF0000. -/
def wf (c : Config) : Bool :=
  c.accSize % 8 == 0 && 8 ≤ c.accSize && c.accSize ≤ 0x00FF0000

/-- MAX_SAMPLES = ACC_SIZE / 8 (rule R7). -/
def maxSamples (c : Config) : Nat := c.accSize / 8

/-- The bus address of a window offset: FHE_BASE + offset (20_memory.md rules R53, R54). -/
def addr (c : Config) (off : BitVec 28) : Word := c.fheBase ++ off

/-- The configuration of `State.reset`. DESIGN CHOICE (log 1): the spec leaves both parameters open; the largest
ACC_SIZE refuses no operand that some FHE accepts. Unsafe if a claim is read as being about an FHE with other values. -/
def default : Config := { accSize := 0x00FF0000, fheBase := 0 }

/-- FREE VALUE (log 7): what the n-th host read of anything but STATUS while BUSY returns
(70_reset_and_hazards.md rule R160, "a draw (any 32-bit value)"). No body: no proof can know it. -/
opaque busyRead : Nat → BitVec 32

end Config

/-- FRAME_SIZE (rule R7). -/
def frameSize : Nat := 8

/-- Bytes of one SAMPLE entry (10_state.md rule R48). -/
def sampleSize : Nat := 32

/-- Window offset of ACC[0] (20_memory.md rule R55). -/
def accBase : Nat := 0x0010000

/-- Window offset of SAMPLE entry 0 (20_memory.md rule R55). -/
def sampleBase : Nat := 0x1000000

/-- EXEC_ACK, ASCII 'O' (rule R7; the byte value is the spec's general-knowledge item I1, log 14). -/
def execAck : Byte := 0x4F

/-- Reset value of HV_MAXWAIT (rules R7, R22). -/
def hvMaxwaitReset : Word := 20

/-- Reset value of HV_OUTERMAX (rules R7, R22). -/
def hvOutermaxReset : Word := 40

/-- CAPDAC_MAX (rule R7). -/
def capdacMax : Int := 31

end Sys2Proof
end

