-- ==== Sys2Proof/Machine/Agents.lean ====
section
/-! DEFINITION. What the agents around the engine can do, as plain data: bus accesses and their answers, the host
programs of 30_encoding.md rules R84 and R86, and the turns of the interleaving of 20_memory.md rule R68. -/

namespace Sys2Proof.Machine

/-- The size of a host access (20_memory.md rule R54). -/
inductive Size where
  | b1
  | b2
  | b4
  deriving DecidableEq, Repr

/-- A host bus access: a 32-bit address, a size and, for a write, a value (20_memory.md rule R54). -/
inductive Access where
  | read (addr : Word) (size : Size)
  | write (addr : Word) (size : Size) (value : Word)
  deriving DecidableEq, Repr

/-- What the bus answers to an access. -/
inductive Reply where
  /-- A read's value; a 1-byte read is zero-extended. -/
  | data (value : Word)
  /-- A write that the FHE took (stored, ignored or dropped: the bus does not tell). -/
  | done
  /-- A bus error (20_memory.md rule R58). -/
  | busError
  deriving DecidableEq, Repr

/-- A value operand of a host program: a number or a host variable (30_encoding.md rule R84). -/
inductive HostVal where
  | imm (v : Word)
  | var (r : Nat)
  deriving DecidableEq, Repr

/-- One operation of a host program (30_encoding.md rules R84 and R86). The notation's `st`, `stb`, `ld`, `ldb` and
`cmd` are spellings of `write` and `read` (Machine/HostProgram.lean). -/
inductive HostOp where
  /-- A bus write of any size at any address. -/
  | write (addr : Word) (size : Size) (v : HostVal)
  /-- A bus read of any size at any address into host variable `r`. -/
  | read (r : Nat) (addr : Word) (size : Size)
  /-- Read STATUS into the variable `s` until STATE is not BUSY (rule R86). -/
  | wait
  /-- Read STATUS into the variable `s` and stop the program unless STATE is DONE (rule R86). -/
  | check
  deriving DecidableEq, Repr

/-- Whose atomic event comes next (20_memory.md rule R68, 00_scope.md rule R6). -/
inductive Turn where
  /-- The host does its next operation. -/
  | host
  /-- The engine takes a step, if it has one. -/
  | engine
  /-- The device appends bytes to RXQ (10_state.md rule R50). -/
  | push (bs : List Byte)
  /-- The RESET input is driven to a level (70_reset_and_hazards.md rule R151). -/
  | reset (asserted : Bool)
  deriving DecidableEq, Repr

end Sys2Proof.Machine
end

