-- ==== Sys2Proof/Syntax.lean ====
section
/-! DEFINITION. The command words of the FHE as syntax: one constructor per row of spec/opcode_table.json. -/

namespace Sys2Proof

/-- The commands (30_encoding.md rules R73, R75). Numeric operands are not in the word: they come from ARG0 and ARG1
(rule R74). -/
inductive Instr where
  /-- SOFT_RESET, opcode 0x01 (40_control.md rule R92). -/
  | softReset
  /-- READ_EXACT, opcode 0x02 (41_bounded_reader.md rule R94). -/
  | readExact
  /-- EXCHANGE_DEC, opcode 0x03, with its ack byte (42_handshake.md rule R105). -/
  | exchangeDec (ack : Byte)
  /-- EXCHANGE_LIT, opcode 0x04, with its ack byte and literal byte (42_handshake.md rule R106). -/
  | exchangeLit (ack lit : Byte)
  /-- DECODE, opcode 0x05 (43_frame_parser.md rule R119). -/
  | decodeFrames
  /-- FLUSH_RX, opcode 0x06 (40_control.md rule R93). -/
  | flushRx
  deriving DecidableEq, Repr

end Sys2Proof
end

