-- ==== Sys2Proof/Machine/State.lean ====
section
/-! DEFINITION. The state of the FHE, of the transport as it sees it, and of the agents around it; the ways a step can
stop; the state right after reset. -/

namespace Sys2Proof.Machine

/-- STATUS.STATE (10_state.md rule R24). -/
inductive EngineState where
  | idle
  | busy
  | done
  | error
  deriving DecidableEq, Repr

/-- STATUS.ERR: the codes 0 to 4 of 60_exceptions.md rule R136; 5 to 15 are never raised. -/
inductive ErrCode where
  | none
  | illegalCommand
  | protocolMismatch
  | protocolTimeout
  | bulkReadTimeout
  deriving DecidableEq, Repr

/-- STATUS.PHASE (10_state.md rule R28): 0 echo, 1 execution. -/
inductive Phase where
  | echo
  | execution
  deriving DecidableEq, Repr

/-- BR_SUB (10_state.md rule R45). -/
inductive BrSub where
  | query
  | read
  deriving DecidableEq, Repr

/-- The fields of STATUS (10_state.md rule R23). Its reserved bits read 0 and are not stored. -/
structure Status where
  state   : EngineState
  err     : ErrCode
  partialFrame : Bool
  ovr     : Bool
  phase   : Phase
  rxbyte  : Byte
  op      : Byte
  deriving DecidableEq, Repr

/-- The Bounded Reader's registers and hidden state (10_state.md rules R34 to R36, R45). -/
structure BoundedReader where
  n     : Word
  max   : Word
  len   : Word
  empty : Word
  sub   : BrSub
  r     : Word
  deriving DecidableEq, Repr

/-- The Handshake Validator's registers and hidden text (10_state.md rules R37 to R39, R46). -/
structure Handshake where
  ack   : Byte
  value : Word
  inner : Word
  outer : Word
  text  : List Byte
  deriving DecidableEq, Repr

/-- The Frame Parser's registers (10_state.md rules R41 to R43) and its hidden latches DLEN and DC
(43_frame_parser.md rule R120). -/
structure FrameParser where
  count : Word
  rem   : BitVec 3
  ts0   : Word
  dlen  : Word
  dc    : BitVec 5
  deriving DecidableEq, Repr

/-- The model faults that are recorded and never cleared (60_exceptions.md rule R138). The fourth, UNWRITTEN_READ,
ends the run instead: `Fault.unwrittenRead` (log 5, log 6). -/
structure ModelFaults where
  hostBusError  : Bool
  hostOverrun   : Bool
  readWhileBusy : Bool
  deriving DecidableEq, Repr

/-- ACC and SAMPLE as cells at their window offsets. A cell is listed exactly when its written mark is set
(10_state.md rule R49). -/
abbrev Memory := List Host.Cell

/-- The model's own fields: the agents that the interleaving of 20_memory.md rule R68 ranges over. -/
structure Env where
  /-- The turns still to be taken, next first. -/
  sched : List Turn
  /-- The host's remaining program, next operation first. -/
  prog  : List HostOp
  /-- The host program's variables, by rising name. -/
  vars  : List (Nat × Word)
  /-- The bus's answer to the last host access, if it got one. -/
  reply : Option Reply
  deriving DecidableEq, Repr

/-- Everything the spec gives the machine (10_state.md rule R19), its configuration and the model's own fields. -/
structure State where
  cfg        : Config
  status     : Status
  arg0       : Word
  arg1       : Word
  capdac     : BitVec 5
  hvMaxwait  : Word
  hvOutermax : Word
  br         : BoundedReader
  hv         : Handshake
  txCount    : Word
  fp         : FrameParser
  mem        : Memory
  rxq        : List Byte
  txh        : List Byte
  resetPin   : Bool
  env        : Env
  modelFaults : ModelFaults
  draws      : Nat
  deriving DecidableEq, Repr

/-- One SAMPLE entry's fields (10_state.md rule R48); its eighth word is reserved and reads 0. -/
structure Sample where
  ts     : Word
  raw    : Word
  relTs  : BitVec 64
  capF64 : BitVec 64
  capQ   : Word
  deriving DecidableEq, Repr

/-- Why a step stops. -/
inductive Fault where
  /-- UNWRITTEN_READ (10_state.md rule R49, 43_frame_parser.md rule R133): a host read outside BUSY, or a DECODE step,
  of a byte never written since RESET. Raised by `hostRead` and `decodeStep`. Safe: the hardware goes on with a value
  the spec does not fix. -/
  | unwrittenRead
  /-- An engine step with STATE = BUSY and an opcode that has no engine steps. Raised by `engineStep`. No run reaches
  it; safe (log 15). -/
  | engineNoCommand
  /-- A host program uses a variable that it has not loaded (30_encoding.md rule R84 gives that no meaning). Raised by
  `hostTurn`. Safe (log 13). -/
  | hostVariableUnset
  deriving DecidableEq, Repr

/-- Why a step refuses. -/
inductive Refusal where
  /-- No meaning for this instruction yet. Raised by the arms of `exec` only; none does. Safe. -/
  | notModelled (mnemonic : String)
  deriving DecidableEq, Repr

/-- STATUS = 0x00000000 (10_state.md rule R52). -/
def Status.reset : Status :=
  { state := .idle, err := .none, partialFrame := false, ovr := false, phase := .echo, rxbyte := 0, op := 0 }

/-- BR_* = 0, BR_SUB = QUERY, BR_R = 0 (10_state.md rules R22, R52). -/
def BoundedReader.reset : BoundedReader :=
  { n := 0, max := 0, len := 0, empty := 0, sub := .query, r := 0 }

/-- HV_ACK, HV_VALUE, HV_INNER, HV_OUTER = 0, HV_TEXT empty (10_state.md rules R22, R52). -/
def Handshake.reset : Handshake :=
  { ack := 0, value := 0, inner := 0, outer := 0, text := [] }

/-- FP_* = 0 (10_state.md rule R22). DLEN and DC: DESIGN CHOICE 0 (log 4); the spec states no reset value. -/
def FrameParser.reset : FrameParser :=
  { count := 0, rem := 0, ts0 := 0, dlen := 0, dc := 0 }

/-- The machine right after RESET (10_state.md rule R52, 70_reset_and_hazards.md rule R151) with configuration `c` and
with `rxq` in the receive FIFO: RXQ may hold any bytes then (rule R153). DESIGN CHOICE: TXH empty (log 3), no turn, no
program, no variable, no answer (log 2, 13, 16), no recorded model fault (log 6), draws 0 (log 7). -/
def State.resetWith (c : Config) (rxq : List Byte) : State :=
  { cfg := c, status := .reset, arg0 := 0, arg1 := 0, capdac := 0
    hvMaxwait := hvMaxwaitReset, hvOutermax := hvOutermaxReset
    br := .reset, hv := .reset, txCount := 0, fp := .reset, mem := [], rxq := rxq, txh := [], resetPin := false
    env := { sched := [], prog := [], vars := [], reply := none }
    modelFaults := { hostBusError := false, hostOverrun := false, readWhileBusy := false }
    draws := 0 }

/-- The machine right after RESET. DESIGN CHOICE: the default configuration (log 1) and an empty RXQ (log 3). -/
def State.reset : State := State.resetWith .default []

end Sys2Proof.Machine
end

