-- ==== Sys2Proof/Machine/Ops.lean ====
section
/-! DEFINITION. The named operations over memory, the transport and the registers, which every meaning is written with:
byte order, reading and writing cells, the transport primitives of 00_scope.md rule R11, raising an error (rule R12),
leaving one, dropping an access, and accepting a command (40_control.md rules R87 and R88). -/

namespace Sys2Proof.Machine

/-! ### Cells: a list of key and value pairs by strictly rising key -/

/-- The value listed at a key. -/
def cellGet {α : Type} : List (Nat × α) → Nat → Option α
  | [], _ => none
  | (a, v) :: m, x => if x = a then some v else cellGet m x

/-- List a value at a key, keeping the keys strictly rising. -/
def cellSet {α : Type} : List (Nat × α) → Nat → α → List (Nat × α)
  | [], x, v => [(x, v)]
  | (a, u) :: m, x, v =>
    if x < a then (x, v) :: (a, u) :: m
    else if x = a then (x, v) :: m
    else (a, u) :: cellSet m x v

/-- The canonical form: keys strictly rising. -/
abbrev cellsRising {α : Type} (m : List (Nat × α)) : Prop := m.Pairwise (fun x y => x.1 < y.1)

/-! ### Memory: the ACC and SAMPLE windows by window offset -/

/-- The canonical form of memory. An unlisted byte has no value (log 5), so no listed byte can equal one. -/
abbrev Memory.wf (m : Memory) : Prop := cellsRising m

/-- Read one byte; none where nothing has written it since RESET (10_state.md rule R49). -/
def Memory.read (m : Memory) (a : Nat) : Option Byte := cellGet m a

/-- Write one byte and so set its mark (10_state.md rule R49). -/
def Memory.write (m : Memory) (a : Nat) (v : Byte) : Memory := cellSet m a v

/-- Read `n` bytes upward from `a`; none if any was never written. -/
def Memory.readBytes (m : Memory) (a : Nat) : Nat → Option (List Byte)
  | 0 => some []
  | n + 1 =>
    match m.read a, Memory.readBytes m (a + 1) n with
    | some b, some bs => some (b :: bs)
    | _, _ => none

/-- Write bytes upward from `a`. -/
def Memory.writeBytes (m : Memory) (a : Nat) : List Byte → Memory
  | [] => m
  | b :: bs => Memory.writeBytes (m.write a b) (a + 1) bs

/-- The 32-bit value of four bytes, the first the least significant (20_memory.md rules R59, R60). -/
def leWord (b0 b1 b2 b3 : Byte) : Word := b3 ++ b2 ++ b1 ++ b0

/-- The low `n` bytes of a value, the least significant first (20_memory.md rule R60). -/
def leBytes {w : Nat} (n : Nat) (v : BitVec w) : List Byte :=
  (List.range n).map fun i => v.extractLsb' (8 * i) 8

/-- `MemRead(a, 4)` (00_scope.md rule R11). -/
def Memory.readWord (m : Memory) (a : Nat) : Option Word :=
  match m.readBytes a 4 with
  | some [b0, b1, b2, b3] => some (leWord b0 b1 b2 b3)
  | _ => none

/-- `MemWrite(a, 4, v)` (00_scope.md rule R11). -/
def Memory.writeWord (m : Memory) (a : Nat) (v : Word) : Memory := m.writeBytes a (leBytes 4 v)

/-! ### The transport primitives (00_scope.md rule R11) -/

/-- `RxAvail()`. -/
def rxAvail (s : State) : Nat := s.rxq.length

/-- What `RxTake(r)` returns: the first `min(r, RxAvail())` bytes. -/
def rxTaken (r : Nat) (s : State) : List Byte := s.rxq.take r

/-- What `RxTake(r)` leaves: those bytes are gone from RXQ (20_memory.md rule R65). -/
def rxTake (r : Nat) (s : State) : State := { s with rxq := s.rxq.drop r }

/-- `TxPut(bs)` with its count in TX_COUNT, modulo 2^32 (10_state.md rule R40, 20_memory.md rule R67). -/
def txPut (bs : List Byte) (s : State) : State :=
  { s with txh := s.txh ++ bs, txCount := s.txCount + BitVec.ofNat 32 bs.length }

/-- `RxFlush()`. -/
def rxFlush (s : State) : State := { s with rxq := [] }

/-- The device appends bytes to RXQ (10_state.md rule R50). -/
def devicePush (bs : List Byte) (s : State) : State := { s with rxq := s.rxq ++ bs }

/-! ### Control position, errors and reset -/

/-- STATUS.STATE <- st. -/
def setEngine (st : EngineState) (s : State) : State := { s with status.state := st }

/-- Taking an error: `raise Error(code, -)` of 00_scope.md rule R12 and 60_exceptions.md rule R139. The engine steps
only while BUSY, so it takes no further step; everything else keeps its value. -/
def raise (code : ErrCode) (s : State) : State := { s with status.state := .error, status.err := code }

/-- `raise Error(PROTOCOL_MISMATCH, b)`: the received byte is recorded too (60_exceptions.md rule R139). -/
def raiseMismatch (b : Byte) (s : State) : State := raise .protocolMismatch { s with status.rxbyte := b }

/-- Return from an error, and RESET's register part: every register of 10_state.md rule R22 and every hidden value to
its reset value (40_control.md rule R92, 60_exceptions.md rule R142). Memory, RXQ and TXH stay. -/
def resetRegisters (s : State) : State :=
  { s with
    status := .reset, arg0 := 0, arg1 := 0, capdac := 0
    hvMaxwait := hvMaxwaitReset, hvOutermax := hvOutermaxReset
    br := .reset, hv := .reset, txCount := 0, fp := .reset }

/-- The RESET input is driven to a level (70_reset_and_hazards.md rule R151). On release every register and hidden value
takes its reset value and every written mark is cleared; RXQ and TXH do not change. Nothing happens without an edge
(log 9). -/
def driveReset (asserted : Bool) (s : State) : State :=
  if asserted then { s with resetPin := true }
  else if s.resetPin then { resetRegisters s with mem := [], resetPin := false }
  else s

/-- A dropped host access: OVR is set (10_state.md rule R27) and HOST_OVERRUN recorded (60_exceptions.md rule R138). -/
def overrun (s : State) : State :=
  { s with status.ovr := true, modelFaults.hostOverrun := true }

/-- The first line of `launch` (40_control.md rule R88): OP <- opcode, RXBYTE <- 0. -/
def launching (opc : Byte) (s : State) : State := { s with status.op := opc, status.rxbyte := 0 }

/-- Acceptance of a command other than SOFT_RESET (40_control.md rule R87): launched in IDLE or DONE, dropped in BUSY
and in ERROR. -/
def accept (opc : Byte) (body : State → State) (s : State) : Host.Outcome State Fault Refusal :=
  match s.status.state with
  | .idle => .next (body (launching opc s))
  | .done => .next (body (launching opc s))
  | .busy => .next (overrun s)
  | .error => .next (overrun s)

end Sys2Proof.Machine
end

