-- ==== Sys2Proof/Machine/Operands.lean ====
section
/-! DEFINITION. Operands: the CAPDAC clamp (10_state.md rule R32), the value forms of an exchange and their texts
(42_handshake.md rule R107), and the fields of a frame (43_frame_parser.md rules R123 and R124). -/

namespace Sys2Proof.Machine

/-- `max(0, min(31, s32(w)))`, what a host write of `w` to CAPDAC stores (10_state.md rule R32). -/
def capdacClamp (w : Word) : BitVec 5 := BitVec.ofInt 5 (max 0 (min capdacMax w.toInt))

/-- The byte of a decimal digit (general-knowledge item I1, log 14). -/
def digitByte (d : Nat) : Byte := BitVec.ofNat 8 (0x30 + d % 10)

/-- The loop of `dec`: the digits of `v`, most significant first, before `s`; `fuel` bounds their number. -/
def decLoop : Nat → Nat → List Byte → List Byte
  | 0, _, s => s
  | fuel + 1, v, s => if v = 0 then s else decLoop fuel (v / 10) (digitByte v :: s)

/-- `dec(v)` of 42_handshake.md rule R107: 1 to 10 bytes, so 10 rounds of the loop suffice. -/
def decText (v : Word) : List Byte := if v = 0 then [0x30] else decLoop 10 v.toNat []

/-- The value forms of an exchange (42_handshake.md rule R108). -/
inductive ValueForm where
  | dec
  | lit (c : Byte)
  deriving DecidableEq, Repr

/-- The value of a form: ARG0, or the literal zero-extended (42_handshake.md rule R108). -/
def formValue (f : ValueForm) (s : State) : Word :=
  match f with
  | .dec => s.arg0
  | .lit c => c.zeroExtend 32

/-- The text of a form (42_handshake.md rules R107, R108). -/
def formText (f : ValueForm) (s : State) : List Byte :=
  match f with
  | .dec => decText s.arg0
  | .lit c => [c]

/-- Frame j of ACC as its timestamp and its raw pattern: `frame_ts` and `frame_raw` of ACC[8j .. 8j+7], both
little-endian over all 32 bits (43_frame_parser.md rules R123, R124); none if a byte was never written. -/
def readFrame (m : Memory) (j : Nat) : Option (Word × Word) :=
  match m.readBytes (accBase + frameSize * j) frameSize with
  | some [f0, f1, f2, f3, f4, f5, f6, f7] => some (leWord f0 f1 f2 f3, leWord f4 f5 f6 f7)
  | _ => none

/-- Frames `j .. j + k - 1` (43_frame_parser.md rule R121); none if a byte of any was never written. -/
def readFrames (m : Memory) (j : Nat) : Nat → Option (List (Word × Word))
  | 0 => some []
  | k + 1 =>
    match readFrame m j, readFrames m (j + 1) k with
    | some f, some fs => some (f :: fs)
    | _, _ => none

end Sys2Proof.Machine
end

