-- ==== Sys2Proof/Machine/Flags.lean ====
section
/-! DEFINITION. The STATUS word (10_state.md rule R23) and the computations of its fields: error codes, PARTIAL, and the
end checks that write STATE (41_bounded_reader.md rule R98, 42_handshake.md rule R109). -/

namespace Sys2Proof.Machine

/-- The code of STATE (10_state.md rule R24). -/
def EngineState.code : EngineState → BitVec 2
  | .idle => 0
  | .busy => 1
  | .done => 2
  | .error => 3

/-- The code of ERR (60_exceptions.md rule R136). -/
def ErrCode.code : ErrCode → BitVec 4
  | .none => 0
  | .illegalCommand => 1
  | .protocolMismatch => 2
  | .protocolTimeout => 3
  | .bulkReadTimeout => 4

/-- The code of PHASE (10_state.md rule R28). -/
def Phase.code : Phase → BitVec 1
  | .echo => 0
  | .execution => 1

/-- STATUS as the host reads it: OP [31:24], RXBYTE [23:16], reserved [15:11], PHASE [10], OVR [9], PARTIAL [8],
ERR [7:4], reserved [3:2], STATE [1:0] (10_state.md rule R23). -/
def Status.word (t : Status) : Word :=
  t.op ++ t.rxbyte ++ (0 : BitVec 5) ++ t.phase.code ++ BitVec.ofBool t.ovr ++ BitVec.ofBool t.partialFrame
    ++ t.err.code ++ (0 : BitVec 2) ++ t.state.code

/-- The number of trailing bytes a DECODE of `len` bytes drops (10_state.md rule R42). -/
def trailing (len : Word) : BitVec 3 := BitVec.ofNat 3 (len.toNat % frameSize)

/-- PARTIAL of a DECODE of `len` bytes (10_state.md rule R26). -/
def partialOf (len : Word) : Bool := len.toNat % frameSize != 0

/-- `br_check()`: completion first, then the empty-poll budget (41_bounded_reader.md rule R98). -/
def brCheck (s : State) : State :=
  if s.br.len = s.br.n then setEngine .done s
  else if s.br.max ≤ s.br.empty then raise .bulkReadTimeout s
  else s

/-- `hv_check()`: either budget spent (42_handshake.md rule R109). -/
def hvCheck (s : State) : State :=
  if s.hvMaxwait ≤ s.hv.inner ∨ s.hvOutermax ≤ s.hv.outer then raise .protocolTimeout s else s

/-- The byte the current phase expects (42_handshake.md rule R109). -/
def hvExpected (s : State) : Byte :=
  match s.status.phase with
  | .echo => s.hv.ack
  | .execution => execAck

end Sys2Proof.Machine
end

