-- ==== Sys2Proof/Machine/BoundedReader.lean ====
section
/-! DEFINITION. The Bounded Reader: READ_EXACT's launch and its two engine steps (41_bounded_reader.md). -/

namespace Sys2Proof.Machine

/-- `launch_read_exact()` (41_bounded_reader.md rule R95). -/
def launchReadExact (s : State) : State :=
  if s.cfg.accSize < s.arg0.toNat then raise .illegalCommand s
  else
    brCheck (setEngine .busy
      { s with br := { n := s.arg0, max := s.arg1, len := 0, empty := 0, sub := .query, r := 0 } })

/-- READ_EXACT (41_bounded_reader.md rule R94). -/
def execReadExact (s : State) : Host.Outcome State Fault Refusal := accept 0x02 launchReadExact s

/-- The read size of a poll, `max(1, min(n_bytes_remaining, available))` (41_bounded_reader.md rule R96). -/
def readSize (remaining available : Nat) : Nat := max 1 (min remaining available)

/-- QUERY step (41_bounded_reader.md rule R96). -/
def brQuery (s : State) : State :=
  { s with
    br.r := BitVec.ofNat 32 (readSize (s.br.n.toNat - s.br.len.toNat) (rxAvail s))
    br.sub := .read }

/-- What a READ step does to the registers and ACC with the bytes `bs` it took (41_bounded_reader.md rule R97, up to
the end check). -/
def brAppend (bs : List Byte) (s : State) : State :=
  { s with
    mem := s.mem.writeBytes (accBase + s.br.len.toNat) bs
    br.len := s.br.len + BitVec.ofNat 32 bs.length
    br.empty := if bs = [] then s.br.empty + 1 else s.br.empty
    br.sub := .query }

/-- READ step (41_bounded_reader.md rule R97). -/
def brRead (s : State) : State :=
  let r := s.br.r.toNat
  brCheck (brAppend (rxTaken r s) (rxTake r s))

/-- The next engine step of a READ_EXACT (40_control.md rule R90). -/
def brStep (s : State) : Host.Outcome State Fault Refusal :=
  match s.br.sub with
  | .query => .next (brQuery s)
  | .read => .next (brRead s)

end Sys2Proof.Machine
end

