-- ==== Sys2Proof/Machine/Numeric.lean ====
section
/-! DEFINITION. The arithmetic of 00_scope.md rule R13 and 43_frame_parser.md rules R125 to R127: rounding to the nearest
integer, the capacitance as an exact integer and as a binary64 bit pattern. -/

namespace Sys2Proof.Machine

/-- `rne_int(num / den)` for `den > 0`: the nearest integer, ties to the even one (00_scope.md rule R13). `/` and `%`
on Int with a positive divisor are floor division and its remainder, as in rule R126's steps. -/
def rneInt (num : Int) (den : Nat) : Int :=
  let fl := num / den
  let rem := num % den
  if 2 * rem > den ∨ (2 * rem = den ∧ fl % 2 = 1) then fl + 1 else fl

/-- N = raw + 1638400 * C, so that the exact capacitance is N / 2^19 pF (rule R125). -/
def capN (raw : Word) (c : BitVec 5) : Int := raw.toInt + 1638400 * (c.toNat : Int)

/-- CAP_Q, the capacitance in units of 0.0001 pF, as an integer (rule R126). -/
def capQ (n : Int) : Int := rneInt (n * 625) (2 ^ 15)

/-- The scale `s` at which the positive rational `a / b` below 2^53 has its 53-bit significand:
2^52 <= a * 2^s / b < 2^53 (binary64, general-knowledge item I4). -/
def f64Scale (a b : Nat) : Nat :=
  let s := 52 + b.log2 - a.log2
  if a * 2 ^ s < b * 2 ^ 52 then s + 1 else s

/-- The 53-bit significand of the binary64 value nearest to `a / b`, ties to even; 2^53 where rounding carries. -/
def f64Significand (a b : Nat) : Nat := (rneInt (a * 2 ^ f64Scale a b) b).toNat

/-- `bits64(f64_rne(a / b))` for a positive rational `a / b` with 2^-1022 <= a / b < 2^53 (00_scope.md rule R13; the
format is general-knowledge item I4). A significand of 2^53 carries into the exponent. -/
def f64Magnitude (a b : Nat) : BitVec 64 :=
  BitVec.ofNat 64 ((1075 - f64Scale a b) * 2 ^ 52 + f64Significand a b - 2 ^ 52)

/-- The sign bit of binary64. -/
def f64SignBit : BitVec 64 := 0x8000000000000000

/-- CAP_F64 of rule R127 for `q = capQ n`: the binary64 nearest q / 10^4, and a zero with the sign of n. -/
def capF64 (n q : Int) : BitVec 64 :=
  if q = 0 then (if n < 0 then f64SignBit else 0)
  else if q < 0 then f64SignBit ||| f64Magnitude q.natAbs 10000
  else f64Magnitude q.natAbs 10000

end Sys2Proof.Machine
end

