-- ==== Sys2Proof/Machine/FrameParser.lean ====
section
/-! DEFINITION. The Frame Parser: DECODE's launch and its one engine step (43_frame_parser.md). -/

namespace Sys2Proof.Machine

/-- `launch_decode()` (43_frame_parser.md rule R120). -/
def launchDecode (s : State) : State :=
  if s.cfg.accSize < s.arg0.toNat then raise .illegalCommand s
  else setEngine .busy { s with fp.dlen := s.arg0, fp.dc := s.capdac }

/-- DECODE (43_frame_parser.md rule R119). -/
def execDecode (s : State) : Host.Outcome State Fault Refusal := accept 0x05 launchDecode s

/-- `REL_TS = zext_64(TS[j]) - zext_64(TS[0])` (43_frame_parser.md rule R129). -/
def relTimestamp (t0 ts : Word) : BitVec 64 := ts.zeroExtend 64 - t0.zeroExtend 64

/-- The Sample of one frame, `(ts, raw)`, with first timestamp `t0` and CAPDAC `c` (43_frame_parser.md rules R121,
R125 to R129). -/
def sampleOf (t0 : Word) (c : BitVec 5) (f : Word × Word) : Sample :=
  let n := capN f.2 c
  { ts := f.1
    raw := f.2
    relTs := relTimestamp t0 f.1
    capF64 := capF64 n (capQ n)
    capQ := BitVec.ofInt 32 (capQ n) }

/-- The 32 bytes of a SAMPLE entry; the reserved word is 0 (10_state.md rule R48, 43_frame_parser.md rule R131). -/
def sampleBytes (x : Sample) : List Byte :=
  leBytes 4 x.ts ++ leBytes 4 x.raw ++ leBytes 8 x.relTs ++ leBytes 8 x.capF64 ++ leBytes 4 x.capQ
    ++ leBytes 4 (0 : Word)

/-- Write entries `j, j + 1, ...` of SAMPLE (43_frame_parser.md rule R131). -/
def writeSamples (m : Memory) (j : Nat) : List Sample → Memory
  | [] => m
  | x :: xs => writeSamples (m.writeBytes (sampleBase + sampleSize * j) (sampleBytes x)) (j + 1) xs

/-- The first frame's timestamp, 0 if there is no frame (43_frame_parser.md rule R121). -/
def firstTimestamp : List (Word × Word) → Word
  | [] => 0
  | f :: _ => f.1

/-- What the DECODE step does once it has its frames (43_frame_parser.md rule R121). -/
def finishDecode (fs : List (Word × Word)) (s : State) : State :=
  let t0 := firstTimestamp fs
  setEngine .done
    { s with
      mem := writeSamples s.mem 0 (fs.map (sampleOf t0 s.fp.dc))
      fp.count := BitVec.ofNat 32 fs.length
      fp.rem := trailing s.fp.dlen
      fp.ts0 := t0
      status.partialFrame := partialOf s.fp.dlen }

/-- The DECODE step (43_frame_parser.md rule R121). A byte never written since RESET is the model fault UNWRITTEN_READ
(rule R133, log 5), and then nothing is written. -/
def decodeStep (s : State) : Host.Outcome State Fault Refusal :=
  match readFrames s.mem 0 (s.fp.dlen.toNat / frameSize) with
  | some fs => .next (finishDecode fs s)
  | none => .fault .unwrittenRead

end Sys2Proof.Machine
end

