-- ==== Sys2Proof/Machine/Handshake.lean ====
section
/-! DEFINITION. The Handshake Validator: the launch of EXCHANGE_DEC and EXCHANGE_LIT and their poll step
(42_handshake.md). -/

namespace Sys2Proof.Machine

/-- The latches of `launch_exchange` (42_handshake.md rule R108). -/
def latchExchange (a : Byte) (f : ValueForm) (s : State) : State :=
  { s with
    hv := { ack := a, value := formValue f s, inner := 0, outer := 0, text := formText f s }
    status.phase := .echo }

/-- `launch_exchange(a, form)` (42_handshake.md rule R108). -/
def launchExchange (a : Byte) (f : ValueForm) (s : State) : State :=
  hvCheck (setEngine .busy (txPut [a] (latchExchange a f s)))

/-- EXCHANGE_DEC (42_handshake.md rule R105). -/
def execExchangeDec (a : Byte) (s : State) : Host.Outcome State Fault Refusal :=
  accept 0x03 (launchExchange a .dec) s

/-- EXCHANGE_LIT (42_handshake.md rule R106); a literal above 0x7F, which no word decodes to, raises ILLEGAL_COMMAND
as that rule says. -/
def execExchangeLit (a c : Byte) (s : State) : Host.Outcome State Fault Refusal :=
  accept 0x04 (if 0x7F < c then raise .illegalCommand else launchExchange a (.lit c)) s

/-- An empty poll (42_handshake.md rule R109): both counters go up, then the budgets are checked. -/
def hvEmptyPoll (s : State) : State :=
  hvCheck { s with hv.inner := s.hv.inner + 1, hv.outer := s.hv.outer + 1 }

/-- `accept_echo()` (42_handshake.md rule R110). -/
def acceptEcho (s : State) : State :=
  txPut s.hv.text { s with hv.inner := 0, status.phase := .execution }

/-- A poll that received `b`: judged against the expected byte (42_handshake.md rules R109 to R112). -/
def hvReceive (b : Byte) (s : State) : State :=
  if b ≠ hvExpected s then raiseMismatch b s
  else
    match s.status.phase with
    | .echo => acceptEcho s
    | .execution => setEngine .done s

/-- The poll step (42_handshake.md rule R109): one byte at most is taken. -/
def hvStep (s : State) : Host.Outcome State Fault Refusal :=
  match rxTaken 1 s with
  | [] => .next (hvEmptyPoll s)
  | b :: _ => .next (hvReceive b (rxTake 1 s))

end Sys2Proof.Machine
end

