-- ==== Sys2Proof/Machine/Engine.lean ====
section
/-! DEFINITION. One engine step (40_control.md rule R90). -/

namespace Sys2Proof.Machine

/-- The step that STATUS.OP fixes (40_control.md rule R90). SOFT_RESET, FLUSH_RX and illegal words have no engine
steps (rule R91), so BUSY with another opcode is a state no run reaches, and stops by name (log 15). -/
def busyStep (s : State) : Host.Outcome State Fault Refusal :=
  if s.status.op = 0x02 then brStep s
  else if s.status.op = 0x03 then hvStep s
  else if s.status.op = 0x04 then hvStep s
  else if s.status.op = 0x05 then decodeStep s
  else .fault .engineNoCommand

/-- The engine's turn: a step while BUSY, nothing otherwise (40_control.md rule R90, 60_exceptions.md rule R150). -/
def engineStep (s : State) : Host.Outcome State Fault Refusal :=
  match s.status.state with
  | .busy => busyStep s
  | .idle => .next s
  | .done => .next s
  | .error => .next s

end Sys2Proof.Machine
end

