-- ==== Sys2Proof/WellFormed.lean ====
section
/-! DEFINITION. Which commands have an encoding. -/

namespace Sys2Proof

/-- The literal byte of EXCHANGE_LIT must be 0x00 to 0x7F (30_encoding.md rules R74, R82); every other operand is any
byte. -/
def Instr.wf : Instr → Bool
  | .softReset => true
  | .readExact => true
  | .exchangeDec _ => true
  | .exchangeLit _ lit => decide (lit ≤ 0x7F)
  | .decodeFrames => true
  | .flushRx => true

end Sys2Proof
end

