-- ==== Sys2Proof/Decode.lean ====
section
/-! DEFINITION. The command word: its fields, its decoder (total, rejecting by name) and its encoder. -/

namespace Sys2Proof

/-- Why a word is illegal (30_encoding.md rule R77). -/
inductive Illegal where
  /-- RSV is not 0. -/
  | rsvNonzero
  /-- Opcode 0x00 or 0x07 to 0xFF. -/
  | reservedOpcode
  /-- ACK is not 0 in a command that has none. -/
  | ackNonzero
  /-- LIT is not 0 in a command that has none. -/
  | litNonzero
  /-- LIT is above 0x7F in EXCHANGE_LIT. -/
  | litRange
  deriving DecidableEq, Repr

/-- OPC, bits [7:0] (rule R73). -/
def opcField (w : Word) : Byte := w.extractLsb' 0 8

/-- ACK, bits [15:8] (rule R73). -/
def ackField (w : Word) : Byte := w.extractLsb' 8 8

/-- LIT, bits [23:16] (rule R73). -/
def litField (w : Word) : Byte := w.extractLsb' 16 8

/-- RSV, bits [31:24] (rule R73). -/
def rsvField (w : Word) : Byte := w.extractLsb' 24 8

/-- A command without operand fields: ACK and LIT must be 0 (rule R76). -/
def decodePlain (ack lit : Byte) (i : Instr) : Except Illegal Instr :=
  if ack ≠ 0 then .error .ackNonzero
  else if lit ≠ 0 then .error .litNonzero
  else .ok i

/-- The decoder of 30_encoding.md rule R76, total on all 2^32 words. -/
def decode (w : Word) : Except Illegal Instr :=
  let opc := opcField w
  let ack := ackField w
  let lit := litField w
  if rsvField w ≠ 0 then .error .rsvNonzero
  else if opc = 0x01 then decodePlain ack lit .softReset
  else if opc = 0x02 then decodePlain ack lit .readExact
  else if opc = 0x03 then
    if lit ≠ 0 then .error .litNonzero else .ok (.exchangeDec ack)
  else if opc = 0x04 then
    if 0x7F < lit then .error .litRange else .ok (.exchangeLit ack lit)
  else if opc = 0x05 then decodePlain ack lit .decodeFrames
  else if opc = 0x06 then decodePlain ack lit .flushRx
  else .error .reservedOpcode

/-- The opcode of a command (rule R75). -/
def Instr.opcode : Instr → Byte
  | .softReset => 0x01
  | .readExact => 0x02
  | .exchangeDec _ => 0x03
  | .exchangeLit _ _ => 0x04
  | .decodeFrames => 0x05
  | .flushRx => 0x06

/-- The word of the four fields (rule R73). -/
def commandWord (rsv lit ack opc : Byte) : Word := rsv ++ lit ++ ack ++ opc

/-- The words of 30_encoding.md rule R85. -/
def encode : Instr → Word
  | .softReset => commandWord 0 0 0 0x01
  | .readExact => commandWord 0 0 0 0x02
  | .exchangeDec ack => commandWord 0 0 ack 0x03
  | .exchangeLit ack lit => commandWord 0 lit ack 0x04
  | .decodeFrames => commandWord 0 0 0 0x05
  | .flushRx => commandWord 0 0 0 0x06

/-- The command read from a table word: every command is one 32-bit word (rule R73), so bits above `nbits` are 0 and
a number that needs more than 32 bits is no command word. -/
def decodeTableWord (nbits w : Nat) : Option Instr :=
  if nbits ≤ 32 ∧ w < 2 ^ nbits then
    match decode (BitVec.ofNat 32 w) with
    | .ok i => some i
    | .error _ => none
  else none

end Sys2Proof
end

