-- ==== Sys2Proof/Machine/Control.lean ====
section
/-! DEFINITION. The control commands SOFT_RESET and FLUSH_RX (40_control.md rules R92, R93) and the launch of an illegal
word (rule R89). -/

namespace Sys2Proof.Machine

/-- SOFT_RESET (40_control.md rule R92): accepted in IDLE, DONE and ERROR, dropped with OVR in BUSY. -/
def execSoftReset (s : State) : Host.Outcome State Fault Refusal :=
  match s.status.state with
  | .idle => .next (resetRegisters s)
  | .done => .next (resetRegisters s)
  | .error => .next (resetRegisters s)
  | .busy => .next (overrun s)

/-- FLUSH_RX (40_control.md rule R93): RXQ <- empty, STATE <- DONE. -/
def execFlushRx (s : State) : Host.Outcome State Fault Refusal :=
  accept 0x06 (fun s => setEngine .done (rxFlush s)) s

/-- An illegal word (40_control.md rules R88, R89): accepted in IDLE and DONE, where it raises ILLEGAL_COMMAND and keeps
the word's opcode in OP. -/
def illegalCommand (opc : Byte) (s : State) : Host.Outcome State Fault Refusal :=
  accept opc (raise .illegalCommand) s

end Sys2Proof.Machine
end

