-- ==== Sys2Proof/Machine/Dispatch.lean ====
section
/-! DEFINITION. What a command word that decodes to an instruction does when the host writes it to CMD
(40_control.md rules R87, R88): one arm per constructor. -/

namespace Sys2Proof.Machine

def exec (i : Instr) (s : State) : Host.Outcome State Fault Refusal :=
  match i with
  | .softReset => Sys2Proof.Machine.execSoftReset s
  | .readExact => Sys2Proof.Machine.execReadExact s
  | .exchangeDec ack => Sys2Proof.Machine.execExchangeDec ack s
  | .exchangeLit ack lit => Sys2Proof.Machine.execExchangeLit ack lit s
  | .decodeFrames => Sys2Proof.Machine.execDecode s
  | .flushRx => Sys2Proof.Machine.execFlushRx s

end Sys2Proof.Machine
end

