-- ==== Sys2Proof/Machine/Bus.lean ====
section
/-! DEFINITION. The host bus: the map of the FHE window (20_memory.md rules R54 to R58), reading and writing registers
(10_state.md rule R22), the ACC and SAMPLE windows, and a write to CMD (40_control.md rules R87, R88). -/

namespace Sys2Proof.Machine

/-- The registers of 10_state.md rule R22. -/
inductive Reg where
  | cmd | status | arg0 | arg1 | capdac | hvMaxwait | hvOutermax
  | brN | brMax | brLen | brEmpty
  | hvAck | hvValue | hvInner | hvOuter
  | txCount | fpCount | fpRem | fpTs0
  deriving DecidableEq, Repr

/-- The register at an offset of the register page (10_state.md rule R22); the rest of the page is reserved. -/
def regAt (off : Nat) : Option Reg :=
  match off with
  | 0x000 => some .cmd
  | 0x004 => some .status
  | 0x008 => some .arg0
  | 0x00C => some .arg1
  | 0x010 => some .capdac
  | 0x014 => some .hvMaxwait
  | 0x018 => some .hvOutermax
  | 0x01C => some .brN
  | 0x020 => some .brMax
  | 0x024 => some .brLen
  | 0x028 => some .brEmpty
  | 0x02C => some .hvAck
  | 0x030 => some .hvValue
  | 0x034 => some .hvInner
  | 0x038 => some .hvOuter
  | 0x03C => some .txCount
  | 0x040 => some .fpCount
  | 0x044 => some .fpRem
  | 0x048 => some .fpTs0
  | _ => none

/-- The value of a register as the host reads it; unused bits read 0 and CMD reads 0 (10_state.md rule R22). -/
def readReg (r : Reg) (s : State) : Word :=
  match r with
  | .cmd => 0
  | .status => s.status.word
  | .arg0 => s.arg0
  | .arg1 => s.arg1
  | .capdac => s.capdac.zeroExtend 32
  | .hvMaxwait => s.hvMaxwait
  | .hvOutermax => s.hvOutermax
  | .brN => s.br.n
  | .brMax => s.br.max
  | .brLen => s.br.len
  | .brEmpty => s.br.empty
  | .hvAck => s.hv.ack.zeroExtend 32
  | .hvValue => s.hv.value
  | .hvInner => s.hv.inner
  | .hvOuter => s.hv.outer
  | .txCount => s.txCount
  | .fpCount => s.fp.count
  | .fpRem => s.fp.rem.zeroExtend 32
  | .fpTs0 => s.fp.ts0

/-- Is the register one of those a host write stores to (10_state.md rule R22)? CMD is write-only and apart. -/
def readWrite : Reg → Bool
  | .arg0 => true
  | .arg1 => true
  | .capdac => true
  | .hvMaxwait => true
  | .hvOutermax => true
  | _ => false

/-- Store a host write to a read-write register; CAPDAC clamps (10_state.md rules R31 to R33). A write to a read-only
register is ignored (rule R22). -/
def writeReg (r : Reg) (w : Word) (s : State) : State :=
  match r with
  | .arg0 => { s with arg0 := w }
  | .arg1 => { s with arg1 := w }
  | .capdac => { s with capdac := capdacClamp w }
  | .hvMaxwait => { s with hvMaxwait := w }
  | .hvOutermax => { s with hvOutermax := w }
  | _ => s

/-- What an accepted access reaches. -/
inductive Target where
  | reg (r : Reg)
  /-- ACC[i], one byte. -/
  | accByte (i : Nat)
  /-- ACC[i .. i+3]. -/
  | accWord (i : Nat)
  /-- Four bytes of SAMPLE from byte i of the window. -/
  | sampleWord (i : Nat)
  deriving DecidableEq, Repr

/-- The window offset of an address the FHE responds to: FHE_BASE <= a < FHE_BASE + 2^28 (20_memory.md rule R54). -/
def windowOffset (c : Config) (a : Word) : Option Nat :=
  if a.extractLsb' 28 4 = c.fheBase then some (a.extractLsb' 0 28).toNat else none

/-- The map of 20_memory.md rule R55 with the widths and alignments of rules R58 and R61; none is a bus error. -/
def busTarget (c : Config) (off : Nat) (size : Size) : Option Target :=
  match size with
  | .b2 => none
  | .b1 =>
    if accBase ≤ off ∧ off < accBase + c.accSize then some (.accByte (off - accBase)) else none
  | .b4 =>
    if off % 4 ≠ 0 then none
    else if off < 0x1000 then (regAt off).map .reg
    else if accBase ≤ off ∧ off < accBase + c.accSize then some (.accWord (off - accBase))
    else if sampleBase ≤ off ∧ off < sampleBase + sampleSize * c.maxSamples then some (.sampleWord (off - sampleBase))
    else none

/-- The bus answers an access. -/
def answer (r : Option Reply) (s : State) : State := { s with env.reply := r }

/-- The FHE answers a bus error; HOST_BUS_ERROR is recorded and nothing else changes (20_memory.md rule R58). -/
def busError (s : State) : State :=
  answer (some .busError) { s with modelFaults.hostBusError := true }

/-- A read while BUSY of anything but STATUS: the next free value, READ_WHILE_BUSY recorded
(70_reset_and_hazards.md rule R160, log 7). A 1-byte read gets one byte of it. -/
def readWhileBusy (t : Target) (s : State) : State :=
  let v := Config.busyRead s.draws
  let v' := match t with
    | .accByte _ => (v.extractLsb' 0 8).zeroExtend 32
    | _ => v
  answer (some (.data v')) { s with draws := s.draws + 1, modelFaults.readWhileBusy := true }

/-- The stored value that a read outside BUSY returns; none where a byte was never written since RESET
(10_state.md rule R49, 20_memory.md rules R56, R57). -/
def targetValue (t : Target) (s : State) : Option Word :=
  match t with
  | .reg r => some (readReg r s)
  | .accByte i => (s.mem.read (accBase + i)).map (·.zeroExtend 32)
  | .accWord i => s.mem.readWord (accBase + i)
  | .sampleWord i => s.mem.readWord (sampleBase + i)

/-- A host read of an accepted target. STATUS is exact at any time (70_reset_and_hazards.md rule R160); an unwritten
byte is UNWRITTEN_READ (log 5). No read has a side effect on the FHE (20_memory.md rule R64). -/
def hostRead (t : Target) (s : State) : Host.Outcome State Fault Refusal :=
  if s.status.state = .busy ∧ t ≠ .reg .status then .next (readWhileBusy t s)
  else
    match targetValue t s with
    | some v => .next (answer (some (.data v)) s)
    | none => .fault .unwrittenRead

/-- A host write of `w` to CMD (40_control.md rules R87, R88): the word's command, or an illegal word's launch. The
states that drop a word are each meaning's own (`accept`, log 11). -/
def cmdWrite (w : Word) (s : State) : Host.Outcome State Fault Refusal :=
  match decode w with
  | .ok i => exec i s
  | .error _ => illegalCommand (opcField w) s

/-- What a write that is not dropped stores in ACC (20_memory.md rule R56). -/
def storeAcc (t : Target) (w : Word) (s : State) : State :=
  match t with
  | .accByte i => { s with mem := s.mem.write (accBase + i) (w.extractLsb' 0 8) }
  | .accWord i => { s with mem := s.mem.writeWord (accBase + i) w }
  | _ => s

/-- A host write to a read-write register or to ACC is dropped while BUSY (70_reset_and_hazards.md rule R159). -/
def unlessBusy (store : State → State) (s : State) : State :=
  if s.status.state = .busy then overrun s else store s

/-- A host write to an accepted target (20_memory.md rule R64). Writes to read-only registers and to SAMPLE are
ignored. -/
def hostWrite (t : Target) (w : Word) (s : State) : Host.Outcome State Fault Refusal :=
  match t with
  | .reg .cmd => cmdWrite w s
  | .reg r => .next (if readWrite r then unlessBusy (writeReg r w) s else s)
  | .accByte _ => .next (unlessBusy (storeAcc t w) s)
  | .accWord _ => .next (unlessBusy (storeAcc t w) s)
  | .sampleWord _ => .next s

/-- A host access to an accepted target; a write is answered before it acts, which nothing can tell. -/
def targetAccess (a : Access) (t : Target) (s : State) : Host.Outcome State Fault Refusal :=
  match a with
  | .read _ _ => hostRead t s
  | .write _ _ w => hostWrite t w (answer (some .done) s)

/-- The address of an access. -/
def Access.addr : Access → Word
  | .read a _ => a
  | .write a _ _ => a

/-- The size of an access. -/
def Access.size : Access → Size
  | .read _ z => z
  | .write _ z _ => z

/-- One host bus access (20_memory.md rules R54 to R64). While RESET is asserted the FHE answers nothing
(70_reset_and_hazards.md rule R151); an address outside its window is not its own (log 8). -/
def busAccess (a : Access) (s : State) : Host.Outcome State Fault Refusal :=
  if s.resetPin then .next (answer none s)
  else
    match windowOffset s.cfg a.addr with
    | none => .next (answer none s)
    | some off =>
      match busTarget s.cfg off a.size with
      | none => .next (busError s)
      | some t => targetAccess a t s

end Sys2Proof.Machine
end

