-- ==== Sys2Proof/Machine/HostProgram.lean ====
section
/-! DEFINITION. Host programs: the notation of 30_encoding.md rules R84 to R86, the session of 70_reset_and_hazards.md
rule R156 and the recovery of rule R158, and the host's turn. -/

namespace Sys2Proof.Machine

/-- `st OFF, v` (30_encoding.md rule R84). -/
def HostOp.st (c : Config) (off : BitVec 28) (v : HostVal) : HostOp := .write (c.addr off) .b4 v

/-- `stb OFF, v`. -/
def HostOp.stb (c : Config) (off : BitVec 28) (v : HostVal) : HostOp := .write (c.addr off) .b1 v

/-- `ld r, OFF`. -/
def HostOp.ld (c : Config) (r : Nat) (off : BitVec 28) : HostOp := .read r (c.addr off) .b4

/-- `ldb r, OFF`. -/
def HostOp.ldb (c : Config) (r : Nat) (off : BitVec 28) : HostOp := .read r (c.addr off) .b1

/-- `cmd` with the word of an instruction (30_encoding.md rules R84, R85). -/
def HostOp.cmd (c : Config) (i : Instr) : HostOp := .st c 0x000 (.imm (encode i))

/-- `read_exact n, m` (30_encoding.md rule R86). -/
def hostReadExact (c : Config) (n m : HostVal) : List HostOp :=
  [.st c 0x008 n, .st c 0x00C m, .cmd c .readExact, .wait, .check]

/-- `exchange_dec a, v` (30_encoding.md rule R86). -/
def hostExchangeDec (c : Config) (a : Byte) (v : HostVal) : List HostOp :=
  [.st c 0x008 v, .cmd c (.exchangeDec a), .wait, .check]

/-- `exchange_lit a, 'c'` (30_encoding.md rule R86). -/
def hostExchangeLit (c : Config) (a ch : Byte) : List HostOp :=
  [.cmd c (.exchangeLit a ch), .wait, .check]

/-- `decode len` (30_encoding.md rule R86). -/
def hostDecode (c : Config) (len : HostVal) : List HostOp :=
  [.st c 0x008 len, .cmd c .decodeFrames, .wait, .check]

/-- `round(sampling_rate_hz * duration_s)`, halves to even (70_reset_and_hazards.md rule R157). DESIGN CHOICE (log 22):
the product is the exact rational `num / den`, `den > 0`; the spec does not say whether it is that or Python's binary64
product, which can round to another integer. -/
def sampleCount (num : Int) (den : Nat) : Int := rneInt num den

/-- The host variable `s` that `wait` and `check` load STATUS into (30_encoding.md rule R86). Its number is the
model's (log 13). -/
def statusVar : Nat := 0

/-- The session of 70_reset_and_hazards.md rule R156, with its sample count `sc` computed (rule R157) and ACK_BASE and
the bulk budget as arguments (00_scope.md rule R7; 93 items U14, U15). Variables 1 and 2 are its `c` and `n`
(log 13). DESIGN CHOICE (log 21): where `sc * 8` is no 32-bit word (sc >= 2^29) or `ackBase + 1` or `ackBase + 2` no
byte, the spec does not say what the host writes; here they wrap. -/
def hostSession (c : Config) (ackBase : Byte) (capdacIn sc budget : Word) : List HostOp :=
  [.st c 0x010 (.imm capdacIn), .ld c 1 0x010]
    ++ hostExchangeDec c ackBase (.var 1)
    ++ hostExchangeDec c (ackBase + 1) (.imm sc)
    ++ hostExchangeLit c (ackBase + 2) 0x53
    ++ hostReadExact c (.imm (sc * 8)) (.imm budget)
    ++ [.ld c 2 0x024]
    ++ hostDecode c (.var 2)

/-- What a host that retries writes first (70_reset_and_hazards.md rule R158). -/
def hostRecovery (c : Config) : List HostOp := [.cmd c .softReset, .cmd c .flushRx]

/-- The value of an operand, if its variable was loaded. -/
def hostValue (v : HostVal) (s : State) : Option Word :=
  match v with
  | .imm w => some w
  | .var r => cellGet s.env.vars r

/-- The host goes on with program `p`. -/
def hostGoto (p : List HostOp) (s : State) : State := { s with env.prog := p }

/-- Keep a read's value in variable `r`; a read that got no value loads nothing. -/
def hostLoad (r : Nat) (s : State) : State :=
  match s.env.reply with
  | some (.data v) => { s with env.vars := cellSet s.env.vars r v }
  | _ => s

/-- `wait`: after `ld s, STATUS`, once more while bits [1:0] of `s` are 1 (BUSY), else go on (30_encoding.md rule R86).
A read that is not answered (RESET asserted) is made again (log 13). -/
def afterWait (rest : List HostOp) (s : State) : State :=
  match s.env.reply with
  | some (.data v) => hostGoto (if v.extractLsb' 0 2 = 1 then .wait :: rest else rest) (hostLoad statusVar s)
  | _ => hostGoto (.wait :: rest) s

/-- `check`: after `ld s, STATUS`, stop the program unless bits [1:0] of `s` are 2 (DONE) (30_encoding.md rule R86). -/
def afterCheck (rest : List HostOp) (s : State) : State :=
  match s.env.reply with
  | some (.data v) => hostGoto (if v.extractLsb' 0 2 = 2 then rest else []) (hostLoad statusVar s)
  | _ => hostGoto (.check :: rest) s

/-- Go on from an outcome's next state. -/
def onNext (f : State → State) (o : Host.Outcome State Fault Refusal) : Host.Outcome State Fault Refusal :=
  match o with
  | .next s => .next (f s)
  | .fault r => .fault r
  | .refused r => .refused r

/-- One operation of the host's program; every one is at most one bus access (20_memory.md rule R63). -/
def hostOperation (op : HostOp) (rest : List HostOp) (s : State) : Host.Outcome State Fault Refusal :=
  match op with
  | .write a z v =>
    match hostValue v s with
    | some w => busAccess (.write a z w) (hostGoto rest s)
    | none => .fault .hostVariableUnset
  | .read r a z => onNext (hostLoad r) (busAccess (.read a z) (hostGoto rest s))
  | .wait => onNext (afterWait rest) (busAccess (.read (s.cfg.addr 0x004) .b4) s)
  | .check => onNext (afterCheck rest) (busAccess (.read (s.cfg.addr 0x004) .b4) s)

/-- The host's turn; a host whose program has ended does nothing. -/
def hostTurn (s : State) : Host.Outcome State Fault Refusal :=
  match s.env.prog with
  | [] => .next s
  | op :: rest => hostOperation op rest s

end Sys2Proof.Machine
end

