-- ==== Sys2Proof/Machine/Turns.lean ====
section
/-! DEFINITION. The interleaving of 20_memory.md rule R68: one atomic event of one agent, and which comes next. -/

namespace Sys2Proof.Machine

/-- One event (20_memory.md rule R68). While RESET is asserted the engine takes no step
(70_reset_and_hazards.md rule R151); the device may push at any time (10_state.md rule R50). -/
def takeTurn (t : Turn) (s : State) : Host.Outcome State Fault Refusal :=
  match t with
  | .host => hostTurn s
  | .engine => if s.resetPin then .next s else engineStep s
  | .push bs => .next (devicePush bs s)
  | .reset asserted => .next (driveReset asserted s)

/-- The turn taken when the schedule is empty. DESIGN CHOICE (log 2): the engine first while it is BUSY, which keeps the
weak fairness of 00_scope.md rule R18, else the host. -/
def defaultTurn (s : State) : Turn :=
  match s.status.state with
  | .busy => .engine
  | .idle => .host
  | .done => .host
  | .error => .host

/-- The next event: the schedule's first turn, or the default one. -/
def nextEvent (s : State) : Host.Outcome State Fault Refusal :=
  match s.env.sched with
  | [] => takeTurn (defaultTurn s) s
  | t :: ts => takeTurn t { s with env.sched := ts }

/-- Can the FHE launch a command: RESET released and STATE IDLE or DONE (40_control.md rule R87)? -/
def canLaunch (s : State) : Bool :=
  !s.resetPin && (s.status.state = .idle || s.status.state = .done)

/-- `s` made able to launch a command, and `s` itself if it is: RESET released and, unless STATE is IDLE or DONE, STATE
IDLE with no error code. -/
def readyToLaunch (s : State) : State :=
  if canLaunch s then s
  else
    match s.status.state with
    | .idle => { s with resetPin := false }
    | .done => { s with resetPin := false }
    | .busy => { s with resetPin := false, status.state := .idle, status.err := .none }
    | .error => { s with resetPin := false, status.state := .idle, status.err := .none }

end Sys2Proof.Machine
end

