-- ==== Sys2Proof/Machine/Step.lean ====
section
/-! DEFINITION. One step of the whole machine, and how a command word is placed where the next step takes it. -/

namespace Sys2Proof.Machine

/-- One step: the next atomic event (20_memory.md rule R68). -/
def step (s : State) : Host.Outcome State Fault Refusal := nextEvent s

/-- `s` with the command word of table bits `w` as the host's next operation, `st CMD, w`, and the host's turn next: the
FHE fetches nothing and takes a command word when the host writes it to CMD (20_memory.md rules R53, R71). If `s`
cannot launch a command, it is made able to (log 10). -/
def State.withFetchWord (s : State) (nbits w : Nat) : State :=
  let s := readyToLaunch s
  { s with
    env.sched := .host :: s.env.sched
    env.prog := HostOp.st s.cfg 0x000 (.imm (BitVec.ofNat 32 (w % 2 ^ nbits))) :: s.env.prog }

end Sys2Proof.Machine
end

