-- ==== Sys2Proof/Safety.lean ====
section
/-! DEFINITION. The terms claims are made in: what a legal state is (the invariant), what a change keeps (frames), and a
run of the engine beside an arbitrary device. -/

namespace Sys2Proof.Machine

/-! ### Legal states -/

/-- Is a command running? -/
def State.isBusy (s : State) : Prop := s.status.state = .busy

/-- Does the state accept a command word (40_control.md rule R87)? -/
def State.accepts (s : State) : Prop := s.status.state = .idle ∨ s.status.state = .done

/-- The running command is an exchange. -/
def State.inExchange (s : State) : Prop := s.isBusy ∧ (s.status.op = 0x03 ∨ s.status.op = 0x04)

/-- The running command is a READ_EXACT. -/
def State.inReadExact (s : State) : Prop := s.isBusy ∧ s.status.op = 0x02

/-- The running command is a DECODE. -/
def State.inDecode (s : State) : Prop := s.isBusy ∧ s.status.op = 0x05

/-- What every reachable state's registers and control position satisfy. -/
structure State.ControlInv (s : State) : Prop where
  /-- The parameters are legal (00_scope.md rule R7). -/
  config : s.cfg.wf = true
  /-- ERR is 0 whenever STATE is not ERROR, and an error has a code (10_state.md rule R25). -/
  errCode : s.status.err = .none ↔ s.status.state ≠ .error
  /-- RXBYTE is written only by a PROTOCOL_MISMATCH raise (10_state.md rule R29). -/
  rxbyte : s.status.rxbyte ≠ 0 → s.status.state = .error ∧ s.status.err = .protocolMismatch
  /-- OVR set means HOST_OVERRUN recorded (60_exceptions.md rule R138). -/
  overrunRecorded : s.status.ovr = true → s.modelFaults.hostOverrun = true
  /-- BR_LEN <= BR_N (10_state.md rule R35). -/
  lenBound : s.br.len ≤ s.br.n
  /-- BR_EMPTY <= BR_MAX (10_state.md rule R36). -/
  emptyBound : s.br.empty ≤ s.br.max
  /-- BR_N <= ACC_SIZE (41_bounded_reader.md rule R95). -/
  targetBound : s.br.n.toNat ≤ s.cfg.accSize
  /-- Only four opcodes have engine steps (40_control.md rule R91). -/
  busyOp : s.isBusy → s.status.op = 0x02 ∨ s.status.op = 0x03 ∨ s.status.op = 0x04 ∨ s.status.op = 0x05
  /-- A running READ_EXACT has bytes to get and polls to spend, and its next read asks for 1 <= BR_R <= BR_N - BR_LEN
  (41_bounded_reader.md rules R98, R100). -/
  readProgress : s.inReadExact →
    s.br.len < s.br.n ∧ s.br.empty < s.br.max ∧
      (s.br.sub = .read → 1 ≤ s.br.r.toNat ∧ s.br.r.toNat ≤ s.br.n.toNat - s.br.len.toNat)
  /-- A running exchange has polls to spend in both budgets (42_handshake.md rule R115). -/
  exchangeProgress : s.inExchange →
    s.hv.inner < s.hvMaxwait ∧ s.hv.outer < s.hvOutermax ∧ s.hv.inner ≤ s.hv.outer
  /-- The text of a running exchange has 1 to 10 bytes (10_state.md rule R46). -/
  exchangeText : s.inExchange → 1 ≤ s.hv.text.length ∧ s.hv.text.length ≤ 10
  /-- A running DECODE stays inside ACC (43_frame_parser.md rule R120). -/
  decodeBound : s.inDecode → s.fp.dlen.toNat ≤ s.cfg.accSize

/-- The window offsets of the bytes ACC and SAMPLE hold (20_memory.md rule R55). -/
def inWindow (c : Config) (a : Nat) : Prop :=
  (accBase ≤ a ∧ a < accBase + c.accSize) ∨ (sampleBase ≤ a ∧ a < sampleBase + sampleSize * c.maxSamples)

/-- What every reachable state's memory satisfies. -/
structure State.MemoryInv (s : State) : Prop where
  /-- The canonical form. -/
  canonical : s.mem.wf
  /-- Nothing is written outside the two windows (20_memory.md rule R55). -/
  inside : ∀ a, (s.mem.read a).isSome → inWindow s.cfg a
  /-- A SAMPLE entry is written whole or not at all (43_frame_parser.md rule R131). -/
  wholeEntries : ∀ j k, k < sampleSize →
    (s.mem.read (sampleBase + sampleSize * j + k)).isSome = (s.mem.read (sampleBase + sampleSize * j)).isSome
  /-- The reserved word of a SAMPLE entry reads 0 (10_state.md rule R48). -/
  reservedZero : ∀ j k b, 28 ≤ k → k < sampleSize →
    s.mem.read (sampleBase + sampleSize * j + k) = some b → b = 0

/-- The invariant of the machine. -/
def State.Inv (s : State) : Prop := s.ControlInv ∧ s.MemoryInv

/-! ### Frames -/

/-- Every register but the named ones reads as before. -/
def regsKept (rs : List Reg) (s t : State) : Prop := ∀ r, r ∉ rs → readReg r t = readReg r s

/-- Every byte of memory reads as before. -/
def memoryKept (s t : State) : Prop := ∀ a, t.mem.read a = s.mem.read a

/-- Every byte of memory outside `len` bytes from `lo` reads as before. -/
def memoryKeptOutside (lo len : Nat) (s t : State) : Prop :=
  ∀ a, ¬(lo ≤ a ∧ a < lo + len) → t.mem.read a = s.mem.read a

/-- RXQ and TXH are as before. -/
def streamsKept (s t : State) : Prop := t.rxq = s.rxq ∧ t.txh = s.txh

/-- The hidden state of the Bounded Reader is as before. -/
def readerHiddenKept (s t : State) : Prop := t.br.sub = s.br.sub ∧ t.br.r = s.br.r

/-- The hidden text of the Handshake Validator is as before. -/
def textKept (s t : State) : Prop := t.hv.text = s.hv.text

/-- The hidden latches of the Frame Parser are as before. -/
def latchesKept (s t : State) : Prop := t.fp.dlen = s.fp.dlen ∧ t.fp.dc = s.fp.dc

/-- Parameters, the RESET pin and the model's own fields are as before. -/
def surroundingsKept (s t : State) : Prop :=
  t.cfg = s.cfg ∧ t.resetPin = s.resetPin ∧ t.env = s.env ∧ t.modelFaults = s.modelFaults ∧ t.draws = s.draws

/-- The reset value of every register as the host reads it (10_state.md rule R22). -/
def resetValue : Reg → Word
  | .hvMaxwait => 20
  | .hvOutermax => 40
  | _ => 0

/-- The registers READ_EXACT writes, but STATUS. -/
def readerRegs : List Reg := [.brN, .brMax, .brLen, .brEmpty]

/-- The registers an exchange writes, but STATUS. -/
def exchangeRegs : List Reg := [.hvAck, .hvValue, .hvInner, .hvOuter, .txCount]

/-- The registers DECODE writes, but STATUS. -/
def parserRegs : List Reg := [.fpCount, .fpRem, .fpTs0]

/-! ### Binary64 -/

/-- The rational a finite binary64 encoding stands for (general-knowledge item I4): sign, exponent field, fraction. -/
def f64Value (b : BitVec 64) : ℚ :=
  let sign : ℚ := if b.getLsbD 63 then -1 else 1
  let e := (b.extractLsb' 52 11).toNat
  let f := (b.extractLsb' 0 52).toNat
  if e = 0 then sign * f / 2 ^ 1074
  else sign * (2 ^ 52 + f) * 2 ^ e / 2 ^ 1075

/-- A finite encoding: neither an infinity nor a NaN. -/
def f64Finite (b : BitVec 64) : Prop := (b.extractLsb' 52 11).toNat ≠ 2047

/-- A normal encoding: finite and neither a zero nor subnormal. -/
def f64Normal (b : BitVec 64) : Prop := f64Finite b ∧ (b.extractLsb' 52 11).toNat ≠ 0

/-- `b` is `f64_rne x` (00_scope.md rule R13): finite, no finite encoding is nearer to `x`, and where one of another
value is as near, `b`'s significand is even. -/
def IsF64Nearest (b : BitVec 64) (x : ℚ) : Prop :=
  f64Finite b ∧ ∀ c, f64Finite c → |f64Value b - x| ≤ |f64Value c - x| ∧
    (f64Value c ≠ f64Value b → |f64Value b - x| = |f64Value c - x| → b.getLsbD 0 = false)

/-! ### Runs -/

/-- The engine beside a device: before each engine turn the device pushes one chunk of bytes, which may be empty. Every
way a device can push during a command is such a list (20_memory.md rule R66). -/
def deviceRun : List (List Byte) → State → Host.Outcome State Fault Refusal
  | [], s => .next s
  | bs :: cs, s =>
    match takeTurn .engine (devicePush bs s) with
    | .next t => deviceRun cs t
    | .fault r => .fault r
    | .refused r => .refused r

/-- The schedule of a `deviceRun`. -/
def deviceSchedule (cs : List (List Byte)) : List Turn := cs.flatMap fun bs => [.push bs, .engine]

/-- The bytes ACC holds from index 0, as many as `n`, where all were written. -/
def accBytes (s : State) (n : Nat) : Option (List Byte) := s.mem.readBytes accBase n

/-- The command has ended (00_scope.md rule R17). -/
def State.ended (s : State) : Prop := s.status.state = .done ∨ s.status.state = .error

end Sys2Proof.Machine
end

