-- ==== Sys2Proof/Certificates/Slice0/Obligations.lean ====
section
/-! DEFINITION. The statements about the FHE, from the numbered rules of spec/. A statement about `engineStep`,
`cmdWrite`, `busAccess` or `exec` reaches a run through `StepRunsTheDecodedCommand`, `StepTakesTheNextTurn` and
`ScheduleRunsTheDevice`. -/

open Sys2Proof Sys2Proof.Machine

/-! ### Command words (30_encoding.md) -/

/-- The words the decoder accepts are exactly the words of the well-formed commands, each decoding to its command with
every operand (rules R76, R85). -/
def Obligations.DecodeAcceptsExactlyTheEncodings : Prop :=
  ∀ (w : Word) (i : Instr), decode w = .ok i ↔ i.wf = true ∧ encode i = w

/-- The command words as rule R85 writes them. -/
def Obligations.CommandWordsAreThoseOfTheSpec : Prop :=
  encode .softReset = 0x00000001 ∧ encode .readExact = 0x00000002 ∧
  (∀ a, encode (.exchangeDec a) = 0x00000003 ||| (a.zeroExtend 32 <<< 8)) ∧
  (∀ a c, encode (.exchangeLit a c) = 0x00000004 ||| (a.zeroExtend 32 <<< 8) ||| (c.zeroExtend 32 <<< 16)) ∧
  encode .decodeFrames = 0x00000005 ∧ encode .flushRx = 0x00000006

/-- Which words are illegal, and what an illegal word does in IDLE or DONE: STATUS alone changes (rules R77, R89). -/
def Obligations.IllegalWordsRaiseIllegalCommand : Prop :=
  ∀ (w : Word),
    ((∃ e, decode w = .error e) ↔
      (opcField w = 0 ∨ 0x07 ≤ opcField w ∨ rsvField w ≠ 0 ∨
        (opcField w ∈ [0x01, 0x02, 0x05, 0x06] ∧ ackField w ≠ 0) ∨
        (opcField w ∈ [0x01, 0x02, 0x03, 0x05, 0x06] ∧ litField w ≠ 0) ∨
        (opcField w = 0x04 ∧ 0x7F < litField w))) ∧
    ∀ s : State, s.accepts → (∃ e, decode w = .error e) →
      ∃ t, cmdWrite w s = .next t ∧
        t.status = { s.status with state := .error, err := .illegalCommand, op := opcField w, rxbyte := 0 } ∧
        regsKept [.status] s t ∧ memoryKept s t ∧ streamsKept s t ∧ readerHiddenKept s t ∧ textKept s t ∧
        latchesKept s t ∧ surroundingsKept s t

/-- A few words written out bit by bit from rule R73's fields decode to their commands (a sanity statement). -/
def Obligations.WordsOfTheSpecDecode : Prop :=
  decode 0b00000000000000000000000000000001#32 = .ok .softReset ∧
  decode 0b00000000000000000000000000000010#32 = .ok .readExact ∧
  decode 0b00000000000000000000000100000011#32 = .ok (.exchangeDec 0x01) ∧
  decode 0b00000000010100110000001000000100#32 = .ok (.exchangeLit 0x02 0x53) ∧
  decode 0b00000000000000000000000000000101#32 = .ok .decodeFrames ∧
  decode 0b00000000000000000000000000000110#32 = .ok .flushRx

/-! ### Acceptance and control commands (40_control.md) -/

/-- Rule R87, by STATE: BUSY drops the word, ERROR takes SOFT_RESET's word only, IDLE and DONE launch; and a dropped
word changes nothing but OVR (and the model's record HOST_OVERRUN).
The record is log 6's. -/
def Obligations.CmdWriteIsHandledByState : Prop :=
  ∀ (w : Word) (s : State),
    (s.isBusy → cmdWrite w s = .next (overrun s)) ∧
    (s.status.state = .error → cmdWrite w s = if w = 0x00000001 then exec .softReset s else .next (overrun s)) ∧
    (s.accepts → cmdWrite w s =
      match decode w with
      | .ok i => exec i s
      | .error _ => .next (raise .illegalCommand (launching (opcField w) s))) ∧
    (overrun s).status = { s.status with ovr := true } ∧
    (overrun s).modelFaults = { s.modelFaults with hostOverrun := true } ∧
    regsKept [.status] s (overrun s) ∧ memoryKept s (overrun s) ∧ streamsKept s (overrun s) ∧
    readerHiddenKept s (overrun s) ∧ textKept s (overrun s) ∧ latchesKept s (overrun s) ∧
    (overrun s).cfg = s.cfg ∧ (overrun s).resetPin = s.resetPin ∧ (overrun s).env = s.env ∧ (overrun s).draws = s.draws

/-- SOFT_RESET (rule R92): outside BUSY every register and BR_SUB, BR_R, HV_TEXT take their reset values and memory,
RXQ and TXH stay; in BUSY it is dropped. (DLEN and DC: log 4, not stated here.)
The record HOST_OVERRUN of a drop is log 6's. -/
def Obligations.SoftResetRestoresTheResetValues : Prop :=
  encode .softReset = 0x00000001 ∧
  ∀ s : State,
    (¬ s.isBusy → ∃ t, exec .softReset s = .next t ∧ t.status = Status.reset ∧
      (∀ r, readReg r t = resetValue r) ∧ t.br.sub = .query ∧ t.br.r = 0 ∧ t.hv.text = [] ∧
      memoryKept s t ∧ streamsKept s t ∧ surroundingsKept s t) ∧
    (s.isBusy → exec .softReset s = .next (overrun s))

/-- FLUSH_RX (rule R93): RXQ is emptied and STATE is DONE; nothing else but OP and RXBYTE of the launch changes. -/
def Obligations.FlushRxEmptiesTheFifo : Prop :=
  encode .flushRx = 0x00000006 ∧
  ∀ s : State, s.accepts →
    (∃ t, exec .flushRx s = .next t ∧ t.rxq = [] ∧ t.txh = s.txh ∧
      t.status = { s.status with state := .done, op := 0x06, rxbyte := 0 } ∧
      regsKept [.status] s t ∧ memoryKept s t ∧ readerHiddenKept s t ∧ textKept s t ∧ latchesKept s t ∧
      surroundingsKept s t) ∧
    ∀ w, opcField w = 0x06 → w ≠ 0x00000006 →
      cmdWrite w s = .next (raise .illegalCommand (launching 0x06 s))

/-! ### Steps -/

/-- When the host's turn comes with a write of `w` to CMD and `w` decodes to `i`, the step is `exec i`, with the write
answered and the operation taken from the host's program and the turn from the schedule; and `withFetchWord` places
just that, in a state made able to launch.
How a command comes to run is log 2's and log 10's. -/
def Obligations.StepRunsTheDecodedCommand : Prop :=
  ∀ (s : State) (w : Word) (i : Instr), decode w = .ok i →
    (∀ (ts : List Turn) (p : List HostOp), s.resetPin = false → s.env.sched = .host :: ts →
      s.env.prog = .write (s.cfg.addr 0x000) .b4 (.imm w) :: p →
      step s = exec i { s with env := { s.env with sched := ts, prog := p, reply := some .done } }) ∧
    (canLaunch s = true →
      step (s.withFetchWord 32 w.toNat) = exec i { s with env := { s.env with reply := some .done } }) ∧
    canLaunch (readyToLaunch s) = true ∧
    step (s.withFetchWord 32 w.toNat) = step ((readyToLaunch s).withFetchWord 32 w.toNat)

/-- The next event: the schedule's first turn, or with an empty schedule the engine while BUSY and else the host; and
the engine's turn takes a step only while BUSY and with RESET released (rules R68, R90; the empty schedule's choice is
log 2's). -/
def Obligations.StepTakesTheNextTurn : Prop :=
  ∀ (s : State),
    (∀ u ts, s.env.sched = u :: ts → step s = takeTurn u { s with env.sched := ts }) ∧
    (s.env.sched = [] → s.isBusy → step s = takeTurn .engine s) ∧
    (s.env.sched = [] → ¬ s.isBusy → step s = takeTurn .host s) ∧
    (s.isBusy → s.resetPin = false → takeTurn .engine s = busyStep s) ∧
    (¬ s.isBusy → takeTurn .engine s = .next s)

/-- A schedule that alternates device pushes and engine turns runs as `deviceRun` says.
The schedule is log 2's form of the interleaving. -/
def Obligations.ScheduleRunsTheDevice : Prop :=
  ∀ (cs : List (List Byte)) (ts : List Turn) (s : State),
    Sys2Proof.core.run (2 * cs.length) { s with env.sched := deviceSchedule cs ++ ts } =
      deviceRun cs { s with env.sched := ts }

/-- In a legal state a BUSY engine's step has a next state, but for a DECODE of a byte never written since RESET.
That UNWRITTEN_READ ends a run is log 5's. -/
def Obligations.BusyEngineAlwaysSteps : Prop :=
  ∀ s : State, s.Inv → s.isBusy →
    (∃ t, busyStep s = .next t) ∨ (s.inDecode ∧ busyStep s = .fault .unwrittenRead)

/-! ### Bounded Reader (41_bounded_reader.md) -/

/-- READ_EXACT's launch (rule R95), for every operand value: refused above ACC_SIZE with nothing else written; else
n and m latched, the accumulator empty, and STATE as the end check says (done at n = 0, timed out at m = 0). -/
def Obligations.ReadExactLaunchLatchesItsOperands : Prop :=
  ∀ s : State, s.accepts →
    (s.cfg.accSize < s.arg0.toNat → ∃ t, exec .readExact s = .next t ∧
      t.status = { s.status with state := .error, err := .illegalCommand, op := 0x02, rxbyte := 0 } ∧
      regsKept [.status] s t ∧ readerHiddenKept s t ∧ memoryKept s t ∧ streamsKept s t ∧ textKept s t ∧
      latchesKept s t ∧ surroundingsKept s t) ∧
    (s.arg0.toNat ≤ s.cfg.accSize → ∃ t, exec .readExact s = .next t ∧
      t.br = { n := s.arg0, max := s.arg1, len := 0, empty := 0, sub := .query, r := 0 } ∧
      (s.arg0 = 0 → t.status = { s.status with state := .done, op := 0x02, rxbyte := 0 }) ∧
      (s.arg0 ≠ 0 → s.arg1 = 0 →
        t.status = { s.status with state := .error, err := .bulkReadTimeout, op := 0x02, rxbyte := 0 }) ∧
      (s.arg0 ≠ 0 → s.arg1 ≠ 0 → t.status = { s.status with state := .busy, op := 0x02, rxbyte := 0 }) ∧
      regsKept (.status :: readerRegs) s t ∧ memoryKept s t ∧ streamsKept s t ∧ textKept s t ∧ latchesKept s t ∧
      surroundingsKept s t)

/-- QUERY step (rule R96): BR_R is max(1, min(BR_N - BR_LEN, RxAvail)), READ is next, and nothing else changes. -/
def Obligations.QueryStepFixesTheReadSize : Prop :=
  ∀ s : State, s.inReadExact → s.br.sub = .query →
    ∃ t, engineStep s = .next t ∧
      (t.br.r.toNat : Int) = max 1 (min ((s.br.n.toNat : Int) - s.br.len.toNat) (s.rxq.length : Int)) ∧
      t.br.sub = .read ∧
      regsKept [] s t ∧ memoryKept s t ∧ streamsKept s t ∧ textKept s t ∧ latchesKept s t ∧ surroundingsKept s t

/-- READ step (rule R97, with the end check of rule R98): the bytes taken land at ACC[BR_LEN ..], BR_LEN and BR_EMPTY
count, completion is judged before the budget. -/
def Obligations.ReadStepAppendsWhatItTook : Prop :=
  ∀ s : State, s.ControlInv → s.inReadExact → s.br.sub = .read →
    let bs := s.rxq.take s.br.r.toNat
    ∃ t, engineStep s = .next t ∧
      t.rxq = s.rxq.drop s.br.r.toNat ∧ t.txh = s.txh ∧
      (∀ i, i < bs.length → t.mem.read (accBase + s.br.len.toNat + i) = bs[i]?) ∧
      memoryKeptOutside (accBase + s.br.len.toNat) bs.length s t ∧
      t.br.len.toNat = s.br.len.toNat + bs.length ∧
      t.br.empty.toNat = s.br.empty.toNat + (if bs.length = 0 then 1 else 0) ∧
      t.br.n = s.br.n ∧ t.br.max = s.br.max ∧ t.br.sub = .query ∧ t.br.r = s.br.r ∧
      (t.br.len = t.br.n → t.status = { s.status with state := .done }) ∧
      (t.br.len ≠ t.br.n → t.br.max ≤ t.br.empty →
        t.status = { s.status with state := .error, err := .bulkReadTimeout }) ∧
      (t.br.len ≠ t.br.n → t.br.empty < t.br.max → t.status = s.status) ∧
      regsKept [.status, .brLen, .brEmpty] s t ∧ textKept s t ∧ latchesKept s t ∧ surroundingsKept s t

/-- Rule R99: whatever the device sends, a READ_EXACT ends after at most 2 * (n + m) engine steps. -/
def Obligations.ReadExactEndsWithinItsBound : Prop :=
  ∀ (s t : State) (cs : List (List Byte)), s.accepts → s.resetPin = false → s.arg0.toNat ≤ s.cfg.accSize →
    exec .readExact s = .next t → 2 * (s.arg0.toNat + s.arg1.toNat) ≤ cs.length →
    ∃ u, deviceRun cs t = .next u ∧ u.ended

/-- Rules R102 and R103: at any time after the launch, ACC[0 .. BR_LEN-1] followed by RXQ is RXQ at the launch followed
by what the device sent since; the command is DONE exactly when BR_LEN = BR_N = n, and in BULK_READ_TIMEOUT exactly when
BR_EMPTY has reached BR_MAX with BR_LEN < BR_N. -/
def Obligations.ReadExactCollectsTheStreamInOrder : Prop :=
  ∀ (s t u : State) (cs : List (List Byte)), s.accepts → s.resetPin = false →
    s.arg0.toNat ≤ s.cfg.accSize → exec .readExact s = .next t → deviceRun cs t = .next u →
    u.br.n = s.arg0 ∧ u.br.max = s.arg1 ∧
    (∃ bs, accBytes u u.br.len.toNat = some bs ∧ bs ++ u.rxq = s.rxq ++ cs.flatten) ∧
    (u.status.state = .done ↔ u.br.len = u.br.n) ∧
    (u.status.state = .error ∧ u.status.err = .bulkReadTimeout ↔ u.br.empty = u.br.max ∧ u.br.len < u.br.n)

/-- Rule R104's silent device: with RXQ empty and nothing sent, a READ_EXACT of n > 0 bytes is BUSY for its first
2 * m engine steps and then in BULK_READ_TIMEOUT with BR_EMPTY = m and BR_LEN = 0. -/
def Obligations.SilentDeviceTimesOutAfterExactlyTheBudget : Prop :=
  ∀ (s t : State) (k : Nat), s.accepts → s.resetPin = false → s.arg0 ≠ 0 → s.arg0.toNat ≤ s.cfg.accSize →
    s.rxq = [] → exec .readExact s = .next t →
    ∃ u, deviceRun (List.replicate k []) t = .next u ∧
      (k < 2 * s.arg1.toNat → u.isBusy) ∧
      (2 * s.arg1.toNat ≤ k → u.status.state = .error ∧ u.status.err = .bulkReadTimeout ∧ u.br.empty = s.arg1 ∧
        u.br.len = 0)

/-- Rule R101: during a READ_EXACT no event but RESET lowers BR_EMPTY, whatever bytes arrive. -/
def Obligations.EmptyPollCounterNeverFalls : Prop :=
  ∀ s t : State, s.ControlInv → s.inReadExact → s.resetPin = false → step s = .next t → s.br.empty ≤ t.br.empty

/-! ### Handshake Validator (42_handshake.md) -/

/-- The launch of an exchange in both forms (rule R108, with the budget check of rule R109): the ack byte is sent, the
value and its text are latched, the counters are 0, and a budget of 0 times out at once. -/
def Obligations.ExchangeLaunchSendsTheAckByte : Prop :=
  ∀ (s : State) (a : Byte) (i : Instr) (v : Word) (text : List Byte), s.accepts →
    (i = .exchangeDec a ∧ v = s.arg0 ∧ text = decText s.arg0 ∨
      ∃ c : Byte, c ≤ 0x7F ∧ i = .exchangeLit a c ∧ v = c.zeroExtend 32 ∧ text = [c]) →
    ∃ t, exec i s = .next t ∧
      t.hv = { ack := a, value := v, inner := 0, outer := 0, text := text } ∧
      t.txh = s.txh ++ [a] ∧ t.txCount = s.txCount + 1 ∧ t.rxq = s.rxq ∧
      (s.hvMaxwait ≠ 0 → s.hvOutermax ≠ 0 →
        t.status = { s.status with state := .busy, phase := .echo, op := i.opcode, rxbyte := 0 }) ∧
      (s.hvMaxwait = 0 ∨ s.hvOutermax = 0 →
        t.status = { s.status with
          state := .error, err := .protocolTimeout, phase := .echo, op := i.opcode, rxbyte := 0 }) ∧
      regsKept (.status :: exchangeRegs) s t ∧ memoryKept s t ∧ readerHiddenKept s t ∧ latchesKept s t ∧
      surroundingsKept s t

/-- Rule R81: the value text of a number is its decimal numeral, digits only, without leading zeros, 1 to 10 bytes. -/
def Obligations.DecimalTextIsTheNumeral : Prop :=
  ∀ v : Word,
    (decText v).foldl (fun acc d => 10 * acc + (d.toNat - 0x30)) 0 = v.toNat ∧
    (∀ d ∈ decText v, 0x30 ≤ d ∧ d ≤ 0x39) ∧
    1 ≤ (decText v).length ∧ (decText v).length ≤ 10 ∧
    (v ≠ 0 → (decText v).head? ≠ some 0x30) ∧ decText 0 = [0x30]

/-- Rule R110: the expected echo ends the echo phase and sends the text in the same step. -/
def Obligations.EchoAcceptedSendsTheText : Prop :=
  ∀ (s : State) (q : List Byte), s.inExchange → s.status.phase = .echo → s.rxq = s.hv.ack :: q →
    ∃ t, engineStep s = .next t ∧ t.rxq = q ∧ t.hv = { s.hv with inner := 0 } ∧
      t.status = { s.status with phase := .execution } ∧
      t.txh = s.txh ++ s.hv.text ∧ t.txCount = s.txCount + BitVec.ofNat 32 s.hv.text.length ∧
      regsKept [.status, .hvInner, .txCount] s t ∧ memoryKept s t ∧ readerHiddenKept s t ∧ latchesKept s t ∧
      surroundingsKept s t

/-- Rule R111: 'O' in the execution phase ends the exchange; the counters and PHASE keep their values. -/
def Obligations.ExecutionAcknowledgmentEndsTheExchange : Prop :=
  ∀ (s : State) (q : List Byte), s.inExchange → s.status.phase = .execution → s.rxq = 0x4F :: q →
    ∃ t, engineStep s = .next t ∧ t.rxq = q ∧ t.txh = s.txh ∧ t.hv = s.hv ∧
      t.status = { s.status with state := .done } ∧
      regsKept [.status] s t ∧ memoryKept s t ∧ readerHiddenKept s t ∧ latchesKept s t ∧ surroundingsKept s t

/-- Rule R112: any other byte raises PROTOCOL_MISMATCH with that byte recorded and nothing more sent, in both phases. -/
def Obligations.MismatchSendsNothingMore : Prop :=
  ∀ (s : State) (b : Byte) (q : List Byte), s.inExchange → s.rxq = b :: q →
    (s.status.phase = .echo → b ≠ s.hv.ack) → (s.status.phase = .execution → b ≠ 0x4F) →
    ∃ t, engineStep s = .next t ∧ t.rxq = q ∧ t.txh = s.txh ∧ t.hv = s.hv ∧
      t.status = { s.status with state := .error, err := .protocolMismatch, rxbyte := b } ∧
      regsKept [.status] s t ∧ memoryKept s t ∧ readerHiddenKept s t ∧ latchesKept s t ∧ surroundingsKept s t

/-- An empty poll (rules R109, R113): both counters go up by one, and the exchange times out when either reaches its
budget. -/
def Obligations.EmptyPollCountsAgainstBothBudgets : Prop :=
  ∀ s : State, s.ControlInv → s.inExchange → s.rxq = [] →
    ∃ t, engineStep s = .next t ∧
      t.hv.inner.toNat = s.hv.inner.toNat + 1 ∧ t.hv.outer.toNat = s.hv.outer.toNat + 1 ∧
      t.hv.text = s.hv.text ∧
      (s.hv.inner.toNat + 1 < s.hvMaxwait.toNat → s.hv.outer.toNat + 1 < s.hvOutermax.toNat →
        t.status = s.status) ∧
      (s.hvMaxwait.toNat ≤ s.hv.inner.toNat + 1 ∨ s.hvOutermax.toNat ≤ s.hv.outer.toNat + 1 →
        t.status = { s.status with state := .error, err := .protocolTimeout }) ∧
      regsKept [.status, .hvInner, .hvOuter] s t ∧ memoryKept s t ∧ streamsKept s t ∧ readerHiddenKept s t ∧
      latchesKept s t ∧ surroundingsKept s t

/-- Rule R114: a poll takes at most one byte; the bytes after it stay in RXQ. -/
def Obligations.OneBytePerPoll : Prop :=
  ∀ s t : State, s.inExchange → engineStep s = .next t → t.rxq = s.rxq.drop 1

/-- The commands that run an exchange with ack byte `a` and a text, from the state they are launched in. -/
def IsExchange (i : Instr) (a : Byte) (text : List Byte) (s : State) : Prop :=
  i = .exchangeDec a ∧ text = decText s.arg0 ∨ ∃ c : Byte, c ≤ 0x7F ∧ i = .exchangeLit a c ∧ text = [c]

/-- Rule R115: whatever the device sends, an exchange ends after at most min(2 * HV_MAXWAIT, HV_OUTERMAX) + 2 polls. -/
def Obligations.ExchangeEndsWithinItsBound : Prop :=
  ∀ (s t : State) (i : Instr) (a : Byte) (text : List Byte) (cs : List (List Byte)),
    s.accepts → s.resetPin = false → IsExchange i a text s → exec i s = .next t →
    min (2 * s.hvMaxwait.toNat) s.hvOutermax.toNat + 2 ≤ cs.length →
    ∃ u, deviceRun cs t = .next u ∧ u.ended

/-- The handshake on the wire (rules R79, R109 to R114): an exchange is DONE only if the first two bytes received since
its launch (stale ones included, rule R163) were its ack byte and 'O', it took no other byte, and it sent the ack byte
and the text; in ERROR before the echo was accepted it sent the ack byte alone. -/
def Obligations.DoneExchangeSawEchoThenO : Prop :=
  ∀ (s t u : State) (i : Instr) (a : Byte) (text : List Byte) (cs : List (List Byte)),
    s.accepts → s.resetPin = false → IsExchange i a text s → exec i s = .next t → deviceRun cs t = .next u →
    (u.status.state = .done → s.rxq ++ cs.flatten = a :: 0x4F :: u.rxq ∧ u.txh = s.txh ++ [a] ++ text) ∧
    (u.status.state = .error → u.status.phase = .echo → u.txh = s.txh ++ [a])

/-- A silent device: an exchange whose outer budget is not below the inner one is BUSY for HV_MAXWAIT polls less one,
then in PROTOCOL_TIMEOUT in the echo phase after exactly HV_MAXWAIT empty polls, with the ack byte alone sent
(rules R113, R116; 20 polls at the reset values). -/
def Obligations.MissingEchoTimesOutAfterMaxWaitPolls : Prop :=
  ∀ (s t : State) (i : Instr) (a : Byte) (text : List Byte) (k : Nat),
    s.accepts → s.resetPin = false → IsExchange i a text s → s.rxq = [] → exec i s = .next t →
    s.hvMaxwait ≤ s.hvOutermax →
    ∃ u, deviceRun (List.replicate k []) t = .next u ∧
      (k < s.hvMaxwait.toNat → u.isBusy) ∧
      (s.hvMaxwait.toNat ≤ k → u.status.state = .error ∧ u.status.err = .protocolTimeout ∧
        u.status.phase = .echo ∧ u.hv.inner = s.hvMaxwait ∧ u.hv.outer = s.hvMaxwait ∧ u.txh = s.txh ++ [a])

/-- Rule R116: with HV_MAXWAIT >= 1 and HV_OUTERMAX >= 2 * HV_MAXWAIT - 1, an exchange runs, whatever the device sends,
exactly as with the largest outer budget, which then never ends it. -/
def Obligations.LargeOuterBudgetNeverDecides : Prop :=
  ∀ (s t t' : State) (i : Instr) (a : Byte) (text : List Byte) (cs : List (List Byte)),
    s.accepts → s.resetPin = false → IsExchange i a text s →
    1 ≤ s.hvMaxwait.toNat → 2 * s.hvMaxwait.toNat ≤ s.hvOutermax.toNat + 1 →
    exec i s = .next t → exec i { s with hvOutermax := 0xFFFFFFFF } = .next t' →
    ∃ u, deviceRun cs t = .next u ∧ deviceRun cs t' = .next { u with hvOutermax := 0xFFFFFFFF } ∧
      (u.status.state = .error → u.status.err = .protocolTimeout → u.hv.inner = s.hvMaxwait)

/-! ### Frame Parser (43_frame_parser.md) -/

/-- DECODE's launch (rule R120): refused above ACC_SIZE with nothing else written; else the length and CAPDAC are
latched and the engine is BUSY. -/
def Obligations.DecodeLaunchLatchesItsOperands : Prop :=
  ∀ s : State, s.accepts →
    (s.cfg.accSize < s.arg0.toNat → ∃ t, exec .decodeFrames s = .next t ∧
      t.status = { s.status with state := .error, err := .illegalCommand, op := 0x05, rxbyte := 0 } ∧
      regsKept [.status] s t ∧ latchesKept s t ∧ memoryKept s t ∧ streamsKept s t ∧ readerHiddenKept s t ∧
      textKept s t ∧ surroundingsKept s t) ∧
    (s.arg0.toNat ≤ s.cfg.accSize → ∃ t, exec .decodeFrames s = .next t ∧
      t.fp.dlen = s.arg0 ∧ t.fp.dc = s.capdac ∧
      t.status = { s.status with state := .busy, op := 0x05, rxbyte := 0 } ∧
      regsKept [.status] s t ∧ memoryKept s t ∧ streamsKept s t ∧ readerHiddenKept s t ∧ textKept s t ∧
      surroundingsKept s t)

/-- The words of SAMPLE entry `j` hold the decoded frame `(ts, raw)` with first timestamp `t0` and CAPDAC `c`
(10_state.md rule R48, rules R121, R129, R131). -/
def SampleHolds (m : Memory) (j : Nat) (ts raw t0 : Word) (c : BitVec 5) : Prop :=
  let n := capN raw c
  let rel : BitVec 64 := ts.zeroExtend 64 - t0.zeroExtend 64
  let cf := capF64 n (capQ n)
  let e := sampleBase + 32 * j
  m.readWord e = some ts ∧ m.readWord (e + 4) = some raw ∧
  m.readWord (e + 8) = some (rel.extractLsb' 0 32) ∧ m.readWord (e + 12) = some (rel.extractLsb' 32 32) ∧
  m.readWord (e + 16) = some (cf.extractLsb' 0 32) ∧ m.readWord (e + 20) = some (cf.extractLsb' 32 32) ∧
  m.readWord (e + 24) = some (BitVec.ofInt 32 (capQ n)) ∧ m.readWord (e + 28) = some 0

/-- The DECODE step (rules R121, R122): one SAMPLE entry per whole frame, the trailing bytes counted and dropped, DONE;
ACC, the streams and every other byte stay. -/
def Obligations.DecodeStepWritesEverySample : Prop :=
  ∀ s : State, s.ControlInv → s.inDecode →
    let k := s.fp.dlen.toNat / 8
    (∀ i, i < 8 * k → (s.mem.read (accBase + i)).isSome) →
    ∃ t, engineStep s = .next t ∧
      t.fp.count.toNat = k ∧ t.fp.rem.toNat = s.fp.dlen.toNat % 8 ∧
      t.status = { s.status with state := .done, partialFrame := decide (s.fp.dlen.toNat % 8 ≠ 0) } ∧
      (k = 0 → t.fp.ts0 = 0) ∧
      (∀ j, j < k → ∃ ts raw, s.mem.readWord accBase = some t.fp.ts0 ∧
        s.mem.readWord (accBase + 8 * j) = some ts ∧ s.mem.readWord (accBase + 8 * j + 4) = some raw ∧
        SampleHolds t.mem j ts raw t.fp.ts0 s.fp.dc) ∧
      memoryKeptOutside sampleBase (32 * k) s t ∧
      regsKept (.status :: parserRegs) s t ∧ streamsKept s t ∧ readerHiddenKept s t ∧ textKept s t ∧
      latchesKept s t ∧ surroundingsKept s t

/-- Rule R133: a DECODE step is the model fault UNWRITTEN_READ exactly when it reads a byte never written since
RESET.
That it ends a run is log 5's. -/
def Obligations.DecodeFaultsExactlyOnUnwrittenBytes : Prop :=
  ∀ s : State, s.inDecode →
    (engineStep s = .fault .unwrittenRead ↔ ∃ i, i < 8 * (s.fp.dlen.toNat / 8) ∧ s.mem.read (accBase + i) = none)

/-- The exact capacitance (rule R125): N / 2^19 is raw / 524288 + C * 3.125, and N has the range the rule gives. -/
def Obligations.CapacitanceIsTheExactFormula : Prop :=
  ∀ (raw : Word) (c : BitVec 5),
    (capN raw c : ℚ) / 2 ^ 19 = (raw.toInt : ℚ) / 524288 + (c.toNat : ℚ) * (3125 / 1000) ∧
    -2147483648 ≤ capN raw c ∧ capN raw c ≤ 2198274047

/-- Rule R126: CAP_Q is the integer nearest N * 625 / 2^15, the even one on a tie, and has the range the rule gives. -/
def Obligations.CapQIsTheNearestTenThousandth : Prop :=
  (∀ n : Int, 2 * |capQ n * 2 ^ 15 - n * 625| ≤ 2 ^ 15 ∧
    (2 * |capQ n * 2 ^ 15 - n * 625| = 2 ^ 15 → capQ n % 2 = 0)) ∧
  ∀ (raw : Word) (c : BitVec 5), -40960000 ≤ capQ (capN raw c) ∧ capQ (capN raw c) ≤ 41928750

/-- Rules R127 and R128: CAP_F64 is the binary64 nearest CAP_Q / 10^4, a normal number; a zero has the sign of N. -/
def Obligations.CapF64IsTheNearestBinary64 : Prop :=
  ∀ (raw : Word) (c : BitVec 5),
    let n := capN raw c
    let q := capQ n
    (q ≠ 0 → IsF64Nearest (capF64 n q) ((q : ℚ) / 10 ^ 4) ∧ f64Normal (capF64 n q)) ∧
    (q = 0 → capF64 n q = if n < 0 then 0x8000000000000000 else 0x0000000000000000)

/-- Rule R129: REL_TS is the plain signed difference of the two timestamps, 0 for frame 0, without wrap correction. -/
def Obligations.RelativeTimestampIsTheSignedDifference : Prop :=
  ∀ t0 ts : Word,
    (relTimestamp t0 ts).toInt = (ts.toNat : Int) - (t0.toNat : Int) ∧ relTimestamp t0 t0 = 0 ∧
    -(2 ^ 32 - 1) ≤ (relTimestamp t0 ts).toInt ∧ (relTimestamp t0 ts).toInt ≤ 2 ^ 32 - 1

/-- Rule R134: a (timestamp, raw) pair written to ACC as its 8 little-endian bytes decodes to itself and to its
capacitance, through DECODE's launch and its engine step. -/
def Obligations.EncodedFrameDecodesToItself : Prop :=
  ∀ (s : State) (ts raw : Word), s.ControlInv → s.accepts → s.arg0 = 8 →
    s.mem.readBytes accBase 8 = some (leBytes 4 ts ++ leBytes 4 raw) →
    ∃ t u, exec .decodeFrames s = .next t ∧ engineStep t = .next u ∧ u.status.state = .done ∧
      u.fp.count = 1 ∧ u.fp.rem = 0 ∧ u.fp.ts0 = ts ∧ SampleHolds u.mem 0 ts raw ts s.capdac

/-- Rule R132: what a DECODE writes depends on the ACC bytes it reads, its length and CAPDAC alone. -/
def Obligations.DecodeDependsOnItsInputsAlone : Prop :=
  ∀ s₁ s₂ t₁ : State, s₁.ControlInv → s₂.ControlInv → s₁.inDecode → s₂.inDecode →
    s₁.fp.dlen = s₂.fp.dlen → s₁.fp.dc = s₂.fp.dc →
    (∀ i, i < 8 * (s₁.fp.dlen.toNat / 8) → s₁.mem.read (accBase + i) = s₂.mem.read (accBase + i)) →
    engineStep s₁ = .next t₁ →
    ∃ t₂, engineStep s₂ = .next t₂ ∧ t₁.fp = t₂.fp ∧ t₁.status.partialFrame = t₂.status.partialFrame ∧
      t₁.status.state = t₂.status.state ∧
      ∀ a, sampleBase ≤ a → a < sampleBase + 32 * (s₁.fp.dlen.toNat / 8) → t₁.mem.read a = t₂.mem.read a

/-! ### Registers and the bus (10_state.md, 20_memory.md) -/

/-- Every bit of STATUS (rule R23), with the numerals of STATE (rule R24), ERR (60_exceptions.md rule R136) and PHASE
(rule R28). -/
def Obligations.StatusWordHasTheLayoutOfTheSpec : Prop :=
  ∀ t : Status,
    t.word.extractLsb' 0 2 = (match t.state with | .idle => 0 | .busy => 1 | .done => 2 | .error => 3) ∧
    t.word.extractLsb' 2 2 = 0 ∧
    t.word.extractLsb' 4 4 = (match t.err with
      | .none => 0 | .illegalCommand => 1 | .protocolMismatch => 2 | .protocolTimeout => 3 | .bulkReadTimeout => 4) ∧
    t.word.getLsbD 8 = t.partialFrame ∧ t.word.getLsbD 9 = t.ovr ∧
    t.word.extractLsb' 10 1 = (match t.phase with | .echo => 0 | .execution => 1) ∧
    t.word.extractLsb' 11 5 = 0 ∧ t.word.extractLsb' 16 8 = t.rxbyte ∧ t.word.extractLsb' 24 8 = t.op

/-- Rule R32: outside BUSY a host write of `w` to CAPDAC stores max(0, min(31, s32(w))), which reads back zero-extended;
nothing else changes.
The bus's answer is log 16's. -/
def Obligations.CapdacWriteClamps : Prop :=
  ∀ (s : State) (w : Word), s.resetPin = false → ¬ s.isBusy →
    ∃ t, busAccess (.write (s.cfg.addr 0x010) .b4 w) s = .next t ∧
      (t.capdac.toNat : Int) = max 0 (min 31 w.toInt) ∧ readReg .capdac t = t.capdac.zeroExtend 32 ∧
      t = { s with capdac := t.capdac, env.reply := some .done }

/-- Rules R31 and R33: outside BUSY a host write to ARG0, ARG1, HV_MAXWAIT or HV_OUTERMAX stores the word, a read then
returns it, and no other register, no memory and no stream changes.
The bus's answer is log 16's. -/
def Obligations.OperandRegistersReadBack : Prop :=
  ∀ (s : State) (w : Word) (r : Reg) (off : BitVec 28), s.resetPin = false → ¬ s.isBusy →
    (r, off) ∈ [(Reg.arg0, 0x008#28), (.arg1, 0x00C#28), (.hvMaxwait, 0x014#28), (.hvOutermax, 0x018#28)] →
    ∃ t u, busAccess (.write (s.cfg.addr off) .b4 w) s = .next t ∧ readReg r t = w ∧
      busAccess (.read (t.cfg.addr off) .b4) t = .next u ∧ u.env.reply = some (.data w) ∧
      regsKept [r] s t ∧ memoryKept s t ∧ streamsKept s t ∧ readerHiddenKept s t ∧ textKept s t ∧ latchesKept s t ∧
      t.modelFaults = s.modelFaults ∧ t.draws = s.draws

/-- Rule R58: exactly which accesses of the window are bus errors, that a bus error changes nothing (HOST_BUS_ERROR is
the model's record), and that no other access is answered as one or recorded as one.
The answer and the record are the model's own (log 16, log 6). -/
def Obligations.BusErrorsChangeNothing : Prop :=
  ∀ (s : State) (a : Access) (off : Nat), s.cfg.wf = true → s.resetPin = false →
    windowOffset s.cfg a.addr = some off →
    (busTarget s.cfg off a.size = none ↔
      (a.size = .b2 ∨
        a.size = .b1 ∧ ¬(0x10000 ≤ off ∧ off < 0x10000 + s.cfg.accSize) ∨
        a.size = .b4 ∧ (off % 4 ≠ 0 ∨
          ¬(off ≤ 0x048 ∨ 0x10000 ≤ off ∧ off < 0x10000 + s.cfg.accSize ∨
            0x1000000 ≤ off ∧ off < 0x1000000 + 32 * s.cfg.maxSamples)))) ∧
    (busTarget s.cfg off a.size = none → busAccess a s =
      .next { s with env.reply := some .busError, modelFaults.hostBusError := true }) ∧
    (∀ u t, busTarget s.cfg off a.size = some u → busAccess a s = .next t →
      t.env.reply ≠ some .busError ∧ t.modelFaults.hostBusError = s.modelFaults.hostBusError)

/-- Rule R159: while BUSY a write to CMD, to a read-write register or to ACC is dropped and sets OVR. At any time, BUSY
or not, a write to a read-only register or to SAMPLE is ignored (rules R22, R57, R64).
The answer and HOST_OVERRUN are the model's own records (log 16, log 6). -/
def Obligations.WritesWhileBusyAreDropped : Prop :=
  ∀ (s : State) (off : BitVec 28) (z : Size) (w : Word) (u : Target), s.resetPin = false →
    busTarget s.cfg off.toNat z = some u →
    (s.isBusy → busAccess (.write (s.cfg.addr off) z w) s = .next
      (match u with
        | .reg r =>
          if r = .cmd ∨ r ∈ [Reg.arg0, .arg1, .capdac, .hvMaxwait, .hvOutermax] then
            overrun { s with env.reply := some .done }
          else { s with env.reply := some .done }
        | .accByte _ => overrun { s with env.reply := some .done }
        | .accWord _ => overrun { s with env.reply := some .done }
        | .sampleWord _ => { s with env.reply := some .done })) ∧
    ((∃ r, u = .reg r ∧ r ∉ [Reg.cmd, .arg0, .arg1, .capdac, .hvMaxwait, .hvOutermax]) ∨ (∃ i, u = .sampleWord i) →
      busAccess (.write (s.cfg.addr off) z w) s = .next { s with env.reply := some .done })

/-- Rule R64: no host read has a side effect on the FHE; it changes its answer and the model's records only.
Those are log 6's, log 7's and log 16's. -/
def Obligations.HostReadsHaveNoSideEffect : Prop :=
  ∀ (s t : State) (addr : Word) (z : Size), busAccess (.read addr z) s = .next t →
    t = { s with env.reply := t.env.reply, draws := t.draws, modelFaults := t.modelFaults }

/-- Rule R160: a read of STATUS is exact at any time; while BUSY a read of anything else completes with some value,
recorded as READ_WHILE_BUSY.
The draw's form and the records are log 7's, log 6's and log 16's. -/
def Obligations.StatusReadsAreExact : Prop :=
  ∀ (s : State), s.resetPin = false →
    busAccess (.read (s.cfg.addr 0x004) .b4) s = .next { s with env.reply := some (.data s.status.word) } ∧
    ∀ (off : BitVec 28) (z : Size) (u : Target), s.isBusy → busTarget s.cfg off.toNat z = some u →
      u ≠ .reg .status →
      ∃ v, busAccess (.read (s.cfg.addr off) z) s = .next
        { s with env.reply := some (.data v), draws := s.draws + 1, modelFaults.readWhileBusy := true }

/-- Outside BUSY every register of rule R22's map reads, at its offset, as the field that holds it, unused upper bits
and CMD as 0. (`readReg`, which frames are stated with, is that value.) The bus's answer is log 16's. -/
def Obligations.RegistersReadAtTheirOffsets : Prop :=
  ∀ (s : State) (k : Nat) (r : Reg) (v : Word), s.resetPin = false → ¬ s.isBusy →
    [(Reg.cmd, (0 : Word)), (.status, s.status.word), (.arg0, s.arg0), (.arg1, s.arg1),
      (.capdac, (0 : BitVec 27) ++ s.capdac), (.hvMaxwait, s.hvMaxwait), (.hvOutermax, s.hvOutermax),
      (.brN, s.br.n), (.brMax, s.br.max), (.brLen, s.br.len), (.brEmpty, s.br.empty),
      (.hvAck, (0 : BitVec 24) ++ s.hv.ack), (.hvValue, s.hv.value), (.hvInner, s.hv.inner),
      (.hvOuter, s.hv.outer), (.txCount, s.txCount), (.fpCount, s.fp.count),
      (.fpRem, (0 : BitVec 29) ++ s.fp.rem), (.fpTs0, s.fp.ts0)][k]? = some (r, v) →
    readReg r s = v ∧
    busAccess (.read (s.cfg.addr (BitVec.ofNat 28 (4 * k))) .b4) s =
      .next { s with env.reply := some (.data v) }

/-- Rules R56 and R60: outside BUSY a word written to ACC reads back, each of its four bytes reads as its 8 bits,
little-endian, and every other byte of memory stays.
The bus's answer is log 16's; that a 1-byte read answers its byte zero-extended is log 19's. -/
def Obligations.AccWordsAreLittleEndian : Prop :=
  ∀ (s : State) (w : Word) (i : Nat), s.cfg.wf = true → s.resetPin = false → ¬ s.isBusy → i < s.cfg.accSize →
    i % 4 = 0 →
    ∃ t, busAccess (.write (s.cfg.addr (BitVec.ofNat 28 (0x10000 + i))) .b4 w) s = .next t ∧
      busAccess (.read (s.cfg.addr (BitVec.ofNat 28 (0x10000 + i))) .b4) t =
        .next { t with env.reply := some (.data w) } ∧
      (∀ k, k < 4 → busAccess (.read (s.cfg.addr (BitVec.ofNat 28 (0x10000 + i + k))) .b1) t =
        .next { t with env.reply := some (.data ((w.extractLsb' (8 * k) 8).zeroExtend 32)) }) ∧
      memoryKeptOutside (accBase + i) 4 s t ∧ regsKept [] s t ∧ streamsKept s t

/-- Rules R49 and R56: outside BUSY a read of an ACC byte never written since RESET is UNWRITTEN_READ, and a 1-byte
write makes exactly that byte readable, by the model and by the host.
That UNWRITTEN_READ ends a run is log 5's; which bits of the value a 1-byte write stores, the low 8, and that a 1-byte
read is zero-extended are log 19's; the bus's answer is log 16's. -/
def Obligations.AccBytesReadBackOnceWritten : Prop :=
  ∀ (s : State) (w : Word) (i : Nat), s.cfg.wf = true → s.resetPin = false → ¬ s.isBusy → i < s.cfg.accSize →
    (s.mem.read (accBase + i) = none →
      busAccess (.read (s.cfg.addr (BitVec.ofNat 28 (0x10000 + i))) .b1) s = .fault .unwrittenRead) ∧
    ∃ t, busAccess (.write (s.cfg.addr (BitVec.ofNat 28 (0x10000 + i))) .b1 w) s = .next t ∧
      t.mem.read (accBase + i) = some (w.extractLsb' 0 8) ∧
      busAccess (.read (s.cfg.addr (BitVec.ofNat 28 (0x10000 + i))) .b1) t =
        .next { t with env.reply := some (.data ((w.extractLsb' 0 8).zeroExtend 32)) } ∧
      memoryKeptOutside (accBase + i) 1 s t ∧ regsKept [] s t ∧ streamsKept s t

/-- Rules R49 and R57: outside BUSY a host read of word `w` of SAMPLE entry `j`, at 0x1000000 + 32 * j + 4 * w, answers
the word the entry holds there (`DecodeStepWritesEverySample` says which), and for an entry never written since RESET it
is UNWRITTEN_READ. That this ends a run is log 5's, that a mark is being listed log 12's, the bus's answer log 16's. -/
def Obligations.SampleWindowReadsItsEntries : Prop :=
  ∀ (s : State) (j w : Nat), s.cfg.wf = true → s.resetPin = false → ¬ s.isBusy → j < s.cfg.maxSamples → w < 8 →
    (∀ v, s.mem.readWord (sampleBase + 32 * j + 4 * w) = some v →
      busAccess (.read (s.cfg.addr (BitVec.ofNat 28 (0x1000000 + 32 * j + 4 * w))) .b4) s =
        .next { s with env.reply := some (.data v) }) ∧
    ((∀ k, k < 32 → s.mem.read (sampleBase + 32 * j + k) = none) →
      busAccess (.read (s.cfg.addr (BitVec.ofNat 28 (0x1000000 + 32 * j + 4 * w))) .b4) s = .fault .unwrittenRead)

/-! ### Errors, RESET and the whole machine (60_exceptions.md, 70_reset_and_hazards.md) -/

/-- Rules R142 and R143: out of ERROR no event leads but a reset: the state stays in ERROR with its code, OP, PHASE and
RXBYTE, or every register has its reset value. -/
def Obligations.ErrorIsLeftOnlyByReset : Prop :=
  ∀ s t : State, s.status.state = .error → step s = .next t →
    (t.status = { s.status with ovr := t.status.ovr } ∨
      (t.status = Status.reset ∧ ∀ r, readReg r t = resetValue r))

/-- "The running command is unaffected" (rule R159): while BUSY a host turn changes OVR, its own fields and the model's
records only.
The model's own fields are log 6's, log 7's, log 13's and log 16's. -/
def Obligations.HostCannotDisturbARunningCommand : Prop :=
  ∀ s t : State, s.isBusy → s.resetPin = false → takeTurn .host s = .next t →
    t = { s with
      status.ovr := t.status.ovr, env := t.env, draws := t.draws, modelFaults := t.modelFaults }

/-- Rules R50 and R51: only the engine and FLUSH_RX remove bytes from RXQ, only at its front; only the device adds
bytes, only at its back; TXH only grows. -/
def Obligations.OnlyTheEngineTakesFromTheFifo : Prop :=
  ∀ (s t : State) (u : Turn), takeTurn u s = .next t →
    s.txh <+: t.txh ∧
    (∀ bs, u = .push bs → t.rxq = s.rxq ++ bs) ∧
    (u = .engine → t.rxq <:+ s.rxq) ∧
    (u = .host → t.rxq = s.rxq ∨ (t.rxq = [] ∧ s.accepts ∧ t.status.op = 0x06 ∧ t.status.state = .done)) ∧
    (∀ b, u = .reset b → t.rxq = s.rxq)

/-- Rule R40: every step adds to TX_COUNT the number of bytes it adds to TXH, modulo 2^32, or resets it and adds
none. -/
def Obligations.TxCountCountsTheBytesSent : Prop :=
  ∀ s t : State, step s = .next t →
    ∃ bs, t.txh = s.txh ++ bs ∧ (t.txCount = s.txCount + BitVec.ofNat 32 bs.length ∨ t.txCount = 0 ∧ bs = [])

/-- Rule R151: while RESET is asserted no host access is answered and the engine takes no step; on release every
register and hidden value has its reset value, nothing in ACC or SAMPLE counts as written, and RXQ and TXH stay.
(DLEN and DC: log 4, not stated here.)
The answer is log 16's, the edges log 9's. -/
def Obligations.ResetPinRestoresTheResetValues : Prop :=
  ∀ s : State, s.resetPin = true →
    (∀ a, busAccess a s = .next { s with env.reply := none }) ∧ takeTurn .engine s = .next s ∧
    ∃ t, takeTurn (.reset false) s = .next t ∧ t.resetPin = false ∧ t.status = Status.reset ∧
      (∀ r, readReg r t = resetValue r) ∧ t.br.sub = .query ∧ t.br.r = 0 ∧ t.hv.text = [] ∧
      (∀ a, t.mem.read a = none) ∧ streamsKept s t ∧ t.cfg = s.cfg

/-- Rule R52: what the machine holds right after RESET, whatever RXQ holds then (rule R153). -/
def Obligations.ResetLeavesTheStatedValues : Prop :=
  ∀ (c : Config) (q : List Byte),
    (∀ r, readReg r (State.resetWith c q) = resetValue r) ∧
    (State.resetWith c q).br.sub = .query ∧ (State.resetWith c q).br.r = 0 ∧ (State.resetWith c q).hv.text = [] ∧
    (∀ a, (State.resetWith c q).mem.read a = none) ∧ (State.resetWith c q).rxq = q

/-- The invariant holds right after RESET, for every legal configuration and whatever RXQ holds. -/
def Obligations.ResetMeetsTheInvariant : Prop :=
  ∀ (c : Config) (q : List Byte), c.wf = true → (State.resetWith c q).Inv

/-- Every step keeps the invariant of the registers and the control position (rules R25, R29, R35, R36, R100, R115 and
60_exceptions.md rule R138).
The record HOST_OVERRUN is log 6's. -/
def Obligations.StepKeepsTheControlInvariant : Prop :=
  ∀ s t : State, s.ControlInv → step s = .next t → t.ControlInv

/-- Every step keeps the whole invariant: memory stays canonical and inside its windows, SAMPLE entries are whole and
their reserved word is 0. -/
def Obligations.StepKeepsTheInvariant : Prop :=
  ∀ s t : State, s.Inv → step s = .next t → t.Inv

/-- No step changes the parameters (10_state.md rule R19) or clears a recorded model fault (60_exceptions.md
rule R138).
The records are log 6's. -/
def Obligations.ParametersAndModelFaultsPersist : Prop :=
  ∀ s t : State, step s = .next t →
    t.cfg = s.cfg ∧ (s.modelFaults.hostBusError → t.modelFaults.hostBusError) ∧
    (s.modelFaults.hostOverrun → t.modelFaults.hostOverrun) ∧
    (s.modelFaults.readWhileBusy → t.modelFaults.readWhileBusy)

/-- `wait` and `check` of a host program (30_encoding.md rule R86), with RESET released: each loads STATUS into the
variable `s` once; `wait` stays while BUSY, `check` stops the program unless DONE. A write of `s` right after either
writes that word.
The program, the number of `s` and the answer are log 13's and log 16's. -/
def Obligations.WaitAndCheckFollowStatus : Prop :=
  ∀ (s : State) (p : List HostOp), s.resetPin = false →
    (s.env.prog = .wait :: p → hostTurn s = .next
      { s with env := { s.env with
        reply := some (.data s.status.word), vars := cellSet s.env.vars statusVar s.status.word,
        prog := if s.status.state = .busy then .wait :: p else p } }) ∧
    (s.env.prog = .check :: p → hostTurn s = .next
      { s with env := { s.env with
        reply := some (.data s.status.word), vars := cellSet s.env.vars statusVar s.status.word,
        prog := if s.status.state = .done then p else [] } }) ∧
    (∀ t, s.env.prog = .wait :: p ∨ s.env.prog = .check :: p → hostTurn s = .next t →
      hostValue (.var statusVar) t = some s.status.word)
end

