-- ==== Sys2Proof/Laws/Decode.lean ====
section
/-! SUPPORT. The fields of a command word and the two halves of decoding, as small lemmas. -/

namespace Sys2Proof

section fields
variable (rsv lit ack opc : Byte)

@[simp] theorem opcField_commandWord : opcField (commandWord rsv lit ack opc) = opc := by
  apply BitVec.eq_of_getLsbD_eq
  intro i hi
  simp only [opcField, commandWord, BitVec.getLsbD_extractLsb', BitVec.getLsbD_append]
  simp [hi]

@[simp] theorem ackField_commandWord : ackField (commandWord rsv lit ack opc) = ack := by
  apply BitVec.eq_of_getLsbD_eq
  intro i hi
  simp only [ackField, commandWord, BitVec.getLsbD_extractLsb', BitVec.getLsbD_append]
  simp [hi]

@[simp] theorem litField_commandWord : litField (commandWord rsv lit ack opc) = lit := by
  apply BitVec.eq_of_getLsbD_eq
  intro i hi
  simp only [litField, commandWord, BitVec.getLsbD_extractLsb', BitVec.getLsbD_append]
  simp [hi, show ¬ (16 + i < 8) by omega, show 16 + i - 8 = 8 + i by omega]

@[simp] theorem rsvField_commandWord : rsvField (commandWord rsv lit ack opc) = rsv := by
  apply BitVec.eq_of_getLsbD_eq
  intro i hi
  simp only [rsvField, commandWord, BitVec.getLsbD_extractLsb', BitVec.getLsbD_append]
  simp [hi, show ¬ (24 + i < 8) by omega, show 24 + i - 8 = 16 + i by omega, show ¬ (16 + i < 8) by omega,
    show 16 + i - 8 = 8 + i by omega]

end fields

/-- A word is its four fields. -/
theorem commandWord_fields (w : Word) : commandWord (rsvField w) (litField w) (ackField w) (opcField w) = w := by
  apply BitVec.eq_of_getLsbD_eq
  intro i hi
  simp only [commandWord, opcField, ackField, litField, rsvField, BitVec.getLsbD_append, BitVec.getLsbD_extractLsb']
  split
  · rename_i h; simp [h]
  · split
    · rename_i h1 h2
      simp [h2, show 8 + (i - 8) = i by omega]
    · split
      · rename_i h1 h2 h3
        simp [h3, show 16 + (i - 8 - 8) = i by omega]
      · rename_i h1 h2 h3
        simp [show i - 8 - 8 - 8 < 8 by omega, show 24 + (i - 8 - 8 - 8) = i by omega]

/-- What `decodePlain` answers. -/
theorem decodePlain_ok (ack lit : Byte) (i j : Instr) :
    decodePlain ack lit i = .ok j ↔ ack = 0 ∧ lit = 0 ∧ i = j := by
  by_cases h1 : ack = 0#8 <;> by_cases h2 : lit = 0#8 <;> simp [decodePlain, h1, h2]

end Sys2Proof
end

