-- ==== Sys2Proof/Laws/Memory.lean ====
section
/-! SUPPORT. The laws of cells and of memory: reading after writing, the canonical form, byte order. -/

namespace Sys2Proof.Machine

/-! ### Cells -/

theorem cellGet_cellSet {α : Type} (m : List (Nat × α)) (x y : Nat) (v : α) :
    cellGet (cellSet m x v) y = if y = x then some v else cellGet m y := by
  induction m with
  | nil => simp only [cellSet, cellGet]
  | cons c m ih =>
    obtain ⟨a, u⟩ := c
    simp only [cellSet]
    split
    · simp only [cellGet]
    · split
      · rename_i h; subst h
        by_cases hy : y = x <;> simp [cellGet, hy]
      · rename_i h1 h2
        simp only [cellGet, ih]
        by_cases hy : y = x
        · subst hy; simp [h2]
        · simp [hy]

theorem cellSet_keys {α : Type} (m : List (Nat × α)) (x : Nat) (v : α) {c : Nat × α}
    (h : c ∈ cellSet m x v) : c = (x, v) ∨ c ∈ m := by
  induction m with
  | nil => simpa [cellSet] using h
  | cons d m ih =>
    obtain ⟨a, u⟩ := d
    simp only [cellSet] at h
    split at h
    · simpa using h
    · split at h
      · rcases List.mem_cons.1 h with h | h
        · exact .inl h
        · exact .inr (List.mem_cons_of_mem _ h)
      · rcases List.mem_cons.1 h with h | h
        · exact .inr (h ▸ List.mem_cons_self)
        · exact (ih h).imp id (List.mem_cons_of_mem _)

theorem cellSet_rising {α : Type} (m : List (Nat × α)) (x : Nat) (v : α) (h : cellsRising m) :
    cellsRising (cellSet m x v) := by
  induction m with
  | nil => simp [cellSet, cellsRising]
  | cons c m ih =>
    obtain ⟨a, u⟩ := c
    have ⟨hc, hm⟩ := List.pairwise_cons.1 h
    simp only [cellSet]
    split
    · rename_i hx
      refine List.pairwise_cons.2 ⟨fun d hd => ?_, h⟩
      rcases List.mem_cons.1 hd with rfl | hd
      · exact hx
      · exact hx.trans (hc d hd)
    · split
      · rename_i h1 h2; subst h2
        exact List.pairwise_cons.2 ⟨hc, hm⟩
      · rename_i h1 h2
        refine List.pairwise_cons.2 ⟨fun d hd => ?_, ih hm⟩
        rcases cellSet_keys m x v hd with rfl | hd
        · show a < x; omega
        · exact hc d hd

theorem cellGet_none_of_lt {α : Type} (m : List (Nat × α)) (x : Nat) (h : ∀ c ∈ m, x < c.1) : cellGet m x = none := by
  induction m with
  | nil => rfl
  | cons c m ih =>
    have h0 := h c List.mem_cons_self
    have : x ≠ c.1 := by omega
    simp [cellGet, this, ih fun d hd => h d (List.mem_cons_of_mem _ hd)]

/-- The canonical form is canonical: rising cells that read the same are the same. -/
theorem cells_ext {α : Type} (m m' : List (Nat × α)) (h : cellsRising m) (h' : cellsRising m')
    (hg : ∀ x, cellGet m x = cellGet m' x) : m = m' := by
  induction m generalizing m' with
  | nil =>
    cases m' with
    | nil => rfl
    | cons c m' => have := hg c.1; simp [cellGet] at this
  | cons c m ih =>
    have ⟨hc, hm⟩ := List.pairwise_cons.1 h
    cases m' with
    | nil => have := hg c.1; simp [cellGet] at this
    | cons d m' =>
      have ⟨hd, hm'⟩ := List.pairwise_cons.1 h'
      obtain ⟨a, u⟩ := c
      obtain ⟨b, w⟩ := d
      have hab : a = b := by
        rcases Nat.lt_trichotomy a b with hl | he | hl
        · have := hg a
          rw [cellGet_none_of_lt ((b, w) :: m') a (by
            intro e he; rcases List.mem_cons.1 he with rfl | he
            · exact hl
            · exact hl.trans (hd e he))] at this
          simp [cellGet] at this
        · exact he
        · have := hg b
          rw [cellGet_none_of_lt ((a, u) :: m) b (by
            intro e he; rcases List.mem_cons.1 he with rfl | he
            · exact hl
            · exact hl.trans (hc e he))] at this
          simp [cellGet] at this
      subst hab
      have huw : u = w := by simpa [cellGet] using hg a
      subst huw
      congr 1
      refine ih m' hm hm' fun x => ?_
      by_cases hx : x = a
      · subst hx
        rw [cellGet_none_of_lt m x hc, cellGet_none_of_lt m' x hd]
      · simpa [cellGet, hx] using hg x

/-! ### One byte -/

theorem read_write (m : Memory) (x y : Nat) (v : Byte) :
    (m.write x v).read y = if y = x then some v else m.read y := cellGet_cellSet m x y v

@[simp] theorem read_write_same (m : Memory) (x : Nat) (v : Byte) : (m.write x v).read x = some v := by
  simp [read_write]

theorem read_write_other (m : Memory) {x y : Nat} (v : Byte) (h : y ≠ x) : (m.write x v).read y = m.read y := by
  simp [read_write, h]

theorem write_wf (m : Memory) (x : Nat) (v : Byte) (h : m.wf) : (m.write x v).wf := cellSet_rising m x v h

theorem memory_ext (m m' : Memory) (h : m.wf) (h' : m'.wf) (hr : ∀ a, m.read a = m'.read a) : m = m' :=
  cells_ext m m' h h' hr

@[simp] theorem reset_memory_wf (c : Config) (q : List Byte) : (State.resetWith c q).mem.wf := by
  simp [State.resetWith]

/-! ### Several bytes -/

theorem writeBytes_wf (m : Memory) (a : Nat) (bs : List Byte) (h : m.wf) : (m.writeBytes a bs).wf := by
  induction bs generalizing m a with
  | nil => exact h
  | cons b bs ih => exact ih _ _ (write_wf m a b h)

theorem writeWord_wf (m : Memory) (a : Nat) (v : Word) (h : m.wf) : (m.writeWord a v).wf := writeBytes_wf m a _ h

/-- Reading after writing bytes: the written byte inside, the old one outside. -/
theorem read_writeBytes (m : Memory) (a : Nat) (bs : List Byte) (x : Nat) :
    (m.writeBytes a bs).read x = if a ≤ x ∧ x < a + bs.length then bs[x - a]? else m.read x := by
  induction bs generalizing m a with
  | nil => simp [Memory.writeBytes]
  | cons b bs ih =>
    simp only [Memory.writeBytes, ih, read_write, List.length_cons]
    by_cases h0 : x = a
    · subst h0; simp
    · by_cases h1 : a + 1 ≤ x ∧ x < a + 1 + bs.length
      · have h2 : a ≤ x ∧ x < a + (bs.length + 1) := by omega
        have h3 : x - a = (x - (a + 1)) + 1 := by omega
        simp only [h1, h2, and_self, if_true, h3, List.getElem?_cons_succ]
      · have h2 : ¬(a ≤ x ∧ x < a + (bs.length + 1)) := by omega
        simp only [h1, h2, h0, if_false]

theorem read_writeBytes_inside (m : Memory) (a : Nat) (bs : List Byte) (i : Nat) (h : i < bs.length) :
    (m.writeBytes a bs).read (a + i) = some bs[i] := by
  rw [read_writeBytes, if_pos ⟨by omega, by omega⟩]
  simp [h]

theorem read_writeBytes_outside (m : Memory) (a : Nat) (bs : List Byte) (x : Nat)
    (h : ¬(a ≤ x ∧ x < a + bs.length)) : (m.writeBytes a bs).read x = m.read x := by
  rw [read_writeBytes, if_neg h]

/-- What reading bytes answers: as many bytes as asked, each the byte at its address. -/
theorem readBytes_eq_some (m : Memory) (a n : Nat) (bs : List Byte) :
    m.readBytes a n = some bs ↔ bs.length = n ∧ ∀ i, i < n → m.read (a + i) = bs[i]? := by
  induction n generalizing a bs with
  | zero =>
    simp only [Memory.readBytes, Option.some.injEq, Nat.not_lt_zero, false_imp_iff, implies_true, and_true,
      List.length_eq_zero_iff]
    exact eq_comm
  | succ n ih =>
    constructor
    · intro h
      simp only [Memory.readBytes] at h
      split at h
      · rename_i b cs hb hcs
        cases h
        obtain ⟨hl, hr⟩ := (ih (a + 1) cs).1 hcs
        refine ⟨by simp [hl], fun i hi => ?_⟩
        cases i with
        | zero => simpa using hb
        | succ i =>
          have := hr i (by omega)
          rw [show a + (i + 1) = a + 1 + i by omega]
          simpa using this
      · exact absurd h (by simp)
    · rintro ⟨hl, hr⟩
      cases bs with
      | nil => simp at hl
      | cons b cs =>
        have h0 : m.read a = some b := by simpa using hr 0 (by omega)
        have h1 : Memory.readBytes m (a + 1) n = some cs := by
          refine (ih (a + 1) cs).2 ⟨by simpa using hl, fun i hi => ?_⟩
          have := hr (i + 1) (by omega)
          rw [show a + 1 + i = a + (i + 1) by omega]
          simpa using this
        simp only [Memory.readBytes, h0, h1]

theorem readBytes_eq_none (m : Memory) (a n : Nat) : m.readBytes a n = none ↔ ∃ i, i < n ∧ m.read (a + i) = none := by
  induction n generalizing a with
  | zero => simp [Memory.readBytes]
  | succ n ih =>
    simp only [Memory.readBytes]
    constructor
    · intro h
      cases h0 : m.read a with
      | none => exact ⟨0, by omega, h0⟩
      | some b =>
        cases h1 : Memory.readBytes m (a + 1) n with
        | none =>
          obtain ⟨i, hi, hr⟩ := (ih (a + 1)).1 h1
          exact ⟨i + 1, by omega, by rw [show a + (i + 1) = a + 1 + i by omega]; exact hr⟩
        | some bs => simp [h0, h1] at h
    · rintro ⟨i, hi, hr⟩
      cases i with
      | zero => simp [show m.read a = none from hr]
      | succ i =>
        have h1 : Memory.readBytes m (a + 1) n = none :=
          (ih (a + 1)).2 ⟨i, by omega, by rw [show a + 1 + i = a + (i + 1) by omega]; exact hr⟩
        simp [h1]

/-- Bytes just written read back. -/
theorem readBytes_writeBytes (m : Memory) (a : Nat) (bs : List Byte) :
    (m.writeBytes a bs).readBytes a bs.length = some bs := by
  refine (readBytes_eq_some _ _ _ _).2 ⟨rfl, fun i hi => ?_⟩
  rw [read_writeBytes_inside m a bs i hi]
  simp [hi]

/-- Two memories that read the same over a range give the same bytes of it. -/
theorem readBytes_congr (m m' : Memory) (a n : Nat) (h : ∀ i, i < n → m.read (a + i) = m'.read (a + i)) :
    m.readBytes a n = m'.readBytes a n := by
  induction n generalizing a with
  | zero => rfl
  | succ n ih =>
    have h0 := h 0 (by omega)
    have h1 := ih (a + 1) fun i hi => by
      have := h (i + 1) (by omega)
      rwa [show a + 1 + i = a + (i + 1) by omega]
    simp only [Memory.readBytes, h1]
    rw [show m.read a = m'.read a from h0]

/-! ### Byte order -/

@[simp] theorem leBytes_length {w : Nat} (n : Nat) (v : BitVec w) : (leBytes n v).length = n := by
  simp [leBytes]

theorem leBytes_getElem? {w : Nat} (n : Nat) (v : BitVec w) (i : Nat) (h : i < n) :
    (leBytes n v)[i]? = some (v.extractLsb' (8 * i) 8) := by
  simp [leBytes, h]

theorem leBytes_four (w : Word) :
    leBytes 4 w = [w.extractLsb' 0 8, w.extractLsb' 8 8, w.extractLsb' 16 8, w.extractLsb' 24 8] := rfl

/-- A word is the little-endian value of its four bytes. -/
@[simp] theorem leWord_bytes (w : Word) :
    leWord (w.extractLsb' 0 8) (w.extractLsb' 8 8) (w.extractLsb' 16 8) (w.extractLsb' 24 8) = w := by
  apply BitVec.eq_of_getLsbD_eq
  intro i hi
  simp only [leWord, BitVec.getLsbD_append, BitVec.getLsbD_extractLsb']
  split
  · rename_i h; simp [h]
  · split
    · rename_i h1 h2
      simp [h2, show 8 + (i - 8) = i by omega]
    · split
      · rename_i h1 h2 h3
        simp [h3, show 16 + (i - 8 - 8) = i by omega]
      · rename_i h1 h2 h3
        simp [show i - 8 - 8 - 8 < 8 by omega, show 24 + (i - 8 - 8 - 8) = i by omega]

/-- The value of four bytes as a number (43_frame_parser.md rule R123). -/
theorem leWord_toNat (b0 b1 b2 b3 : Byte) :
    (leWord b0 b1 b2 b3).toNat = b0.toNat + 256 * b1.toNat + 65536 * b2.toNat + 16777216 * b3.toNat := by
  have h0 := b0.isLt
  have h1 := b1.isLt
  have h2 := b2.isLt
  have h3 := b3.isLt
  simp only [leWord, BitVec.toNat_append]
  rw [← Nat.shiftLeft_add_eq_or_of_lt (b := b0.toNat) (by omega),
    ← Nat.shiftLeft_add_eq_or_of_lt (b := b1.toNat) (by omega),
    ← Nat.shiftLeft_add_eq_or_of_lt (b := b2.toNat) (by omega)]
  simp only [Nat.shiftLeft_eq]
  omega

/-- What reading a word answers. -/
theorem readWord_eq_some (m : Memory) (a : Nat) (v : Word) :
    m.readWord a = some v ↔ ∃ b0 b1 b2 b3, m.read a = some b0 ∧ m.read (a + 1) = some b1 ∧ m.read (a + 2) = some b2 ∧
      m.read (a + 3) = some b3 ∧ v = leWord b0 b1 b2 b3 := by
  have e1 : a + 1 + 1 = a + 2 := rfl
  have e2 : a + 2 + 1 = a + 3 := rfl
  constructor
  · intro h
    simp only [Memory.readWord, Memory.readBytes, e1, e2] at h
    cases h0 : m.read a <;> cases h1 : m.read (a + 1) <;> cases h2 : m.read (a + 2) <;> cases h3 : m.read (a + 3) <;>
      simp_all
  · rintro ⟨b0, b1, b2, b3, h0, h1, h2, h3, rfl⟩
    simp [Memory.readWord, Memory.readBytes, e1, e2, h0, h1, h2, h3]

/-- A word just written reads back. -/
@[simp] theorem readWord_writeWord (m : Memory) (a : Nat) (v : Word) : (m.writeWord a v).readWord a = some v := by
  have h : (m.writeWord a v).readBytes a 4 = some (leBytes 4 v) := by
    simpa [Memory.writeWord] using readBytes_writeBytes m a (leBytes 4 v)
  simp [Memory.readWord, h, leBytes_four]

end Sys2Proof.Machine
end

