-- ==== Sys2Proof/Laws/Numeric.lean ====
section
/-! SUPPORT. What rounding to the nearest integer guarantees. -/

namespace Sys2Proof.Machine

/-- `rneInt` is within half a unit of the quotient, and even where it is exactly half a unit away. -/
theorem rneInt_spec (num : Int) (den : Nat) (h : 0 < den) :
    2 * (rneInt num den * den - num) ≤ den ∧ 2 * (num - rneInt num den * den) ≤ den ∧
      (2 * (rneInt num den * den - num) = den ∨ 2 * (num - rneInt num den * den) = den → rneInt num den % 2 = 0) := by
  have hd : (0 : Int) < den := by exact_mod_cast h
  have hm := Int.mul_ediv_add_emod num den
  have h0 := Int.emod_nonneg num (by omega : (den : Int) ≠ 0)
  have h1 := Int.emod_lt_of_pos num hd
  simp only [rneInt]
  set q := num / (den : Int)
  set r := num % (den : Int)
  have e : q * den = num - r := by rw [mul_comm]; omega
  split
  · rename_i hc
    have e1 : (q + 1) * den = num - r + den := by rw [add_mul, e]; ring
    rw [e1]
    refine ⟨by omega, by omega, ?_⟩
    rintro (hh | hh) <;> omega
  · rename_i hc
    rw [e]
    refine ⟨by omega, by omega, ?_⟩
    rintro (hh | hh) <;> omega

theorem rneInt_nonneg (num : Int) (den : Nat) (hn : 0 ≤ num) : 0 ≤ rneInt num den := by
  have : 0 ≤ num / (den : Int) := Int.ediv_nonneg hn (by omega)
  simp only [rneInt]
  split <;> omega

end Sys2Proof.Machine
end

