-- ==== Sys2Proof/Laws/State.lean ====
section
/-! SUPPORT. One lemma per field per update of the state, true by rfl, so that no proof unfolds a record update. -/

namespace Sys2Proof.Machine

variable (s : State)

/-! ### `setEngine` -/

@[simp] theorem setEngine_cfg (e : EngineState) : (setEngine e s).cfg = s.cfg := rfl
@[simp] theorem setEngine_state (e : EngineState) : (setEngine e s).status.state = e := rfl
@[simp] theorem setEngine_err (e : EngineState) : (setEngine e s).status.err = s.status.err := rfl
@[simp] theorem setEngine_partialFrame (e : EngineState) : (setEngine e s).status.partialFrame = s.status.partialFrame := rfl
@[simp] theorem setEngine_ovr (e : EngineState) : (setEngine e s).status.ovr = s.status.ovr := rfl
@[simp] theorem setEngine_phase (e : EngineState) : (setEngine e s).status.phase = s.status.phase := rfl
@[simp] theorem setEngine_rxbyte (e : EngineState) : (setEngine e s).status.rxbyte = s.status.rxbyte := rfl
@[simp] theorem setEngine_op (e : EngineState) : (setEngine e s).status.op = s.status.op := rfl
@[simp] theorem setEngine_arg0 (e : EngineState) : (setEngine e s).arg0 = s.arg0 := rfl
@[simp] theorem setEngine_arg1 (e : EngineState) : (setEngine e s).arg1 = s.arg1 := rfl
@[simp] theorem setEngine_capdac (e : EngineState) : (setEngine e s).capdac = s.capdac := rfl
@[simp] theorem setEngine_hvMaxwait (e : EngineState) : (setEngine e s).hvMaxwait = s.hvMaxwait := rfl
@[simp] theorem setEngine_hvOutermax (e : EngineState) : (setEngine e s).hvOutermax = s.hvOutermax := rfl
@[simp] theorem setEngine_br (e : EngineState) : (setEngine e s).br = s.br := rfl
@[simp] theorem setEngine_hv (e : EngineState) : (setEngine e s).hv = s.hv := rfl
@[simp] theorem setEngine_txCount (e : EngineState) : (setEngine e s).txCount = s.txCount := rfl
@[simp] theorem setEngine_fp (e : EngineState) : (setEngine e s).fp = s.fp := rfl
@[simp] theorem setEngine_mem (e : EngineState) : (setEngine e s).mem = s.mem := rfl
@[simp] theorem setEngine_rxq (e : EngineState) : (setEngine e s).rxq = s.rxq := rfl
@[simp] theorem setEngine_txh (e : EngineState) : (setEngine e s).txh = s.txh := rfl
@[simp] theorem setEngine_resetPin (e : EngineState) : (setEngine e s).resetPin = s.resetPin := rfl
@[simp] theorem setEngine_env (e : EngineState) : (setEngine e s).env = s.env := rfl
@[simp] theorem setEngine_modelFaults (e : EngineState) : (setEngine e s).modelFaults = s.modelFaults := rfl
@[simp] theorem setEngine_draws (e : EngineState) : (setEngine e s).draws = s.draws := rfl

/-! ### `raise` -/

@[simp] theorem raise_cfg (c : ErrCode) : (raise c s).cfg = s.cfg := rfl
@[simp] theorem raise_state (c : ErrCode) : (raise c s).status.state = .error := rfl
@[simp] theorem raise_err (c : ErrCode) : (raise c s).status.err = c := rfl
@[simp] theorem raise_partialFrame (c : ErrCode) : (raise c s).status.partialFrame = s.status.partialFrame := rfl
@[simp] theorem raise_ovr (c : ErrCode) : (raise c s).status.ovr = s.status.ovr := rfl
@[simp] theorem raise_phase (c : ErrCode) : (raise c s).status.phase = s.status.phase := rfl
@[simp] theorem raise_rxbyte (c : ErrCode) : (raise c s).status.rxbyte = s.status.rxbyte := rfl
@[simp] theorem raise_op (c : ErrCode) : (raise c s).status.op = s.status.op := rfl
@[simp] theorem raise_arg0 (c : ErrCode) : (raise c s).arg0 = s.arg0 := rfl
@[simp] theorem raise_arg1 (c : ErrCode) : (raise c s).arg1 = s.arg1 := rfl
@[simp] theorem raise_capdac (c : ErrCode) : (raise c s).capdac = s.capdac := rfl
@[simp] theorem raise_hvMaxwait (c : ErrCode) : (raise c s).hvMaxwait = s.hvMaxwait := rfl
@[simp] theorem raise_hvOutermax (c : ErrCode) : (raise c s).hvOutermax = s.hvOutermax := rfl
@[simp] theorem raise_br (c : ErrCode) : (raise c s).br = s.br := rfl
@[simp] theorem raise_hv (c : ErrCode) : (raise c s).hv = s.hv := rfl
@[simp] theorem raise_txCount (c : ErrCode) : (raise c s).txCount = s.txCount := rfl
@[simp] theorem raise_fp (c : ErrCode) : (raise c s).fp = s.fp := rfl
@[simp] theorem raise_mem (c : ErrCode) : (raise c s).mem = s.mem := rfl
@[simp] theorem raise_rxq (c : ErrCode) : (raise c s).rxq = s.rxq := rfl
@[simp] theorem raise_txh (c : ErrCode) : (raise c s).txh = s.txh := rfl
@[simp] theorem raise_resetPin (c : ErrCode) : (raise c s).resetPin = s.resetPin := rfl
@[simp] theorem raise_env (c : ErrCode) : (raise c s).env = s.env := rfl
@[simp] theorem raise_modelFaults (c : ErrCode) : (raise c s).modelFaults = s.modelFaults := rfl
@[simp] theorem raise_draws (c : ErrCode) : (raise c s).draws = s.draws := rfl

/-! ### `raiseMismatch` -/

@[simp] theorem raiseMismatch_cfg (b : Byte) : (raiseMismatch b s).cfg = s.cfg := rfl
@[simp] theorem raiseMismatch_state (b : Byte) : (raiseMismatch b s).status.state = .error := rfl
@[simp] theorem raiseMismatch_err (b : Byte) : (raiseMismatch b s).status.err = .protocolMismatch := rfl
@[simp] theorem raiseMismatch_partialFrame (b : Byte) : (raiseMismatch b s).status.partialFrame = s.status.partialFrame := rfl
@[simp] theorem raiseMismatch_ovr (b : Byte) : (raiseMismatch b s).status.ovr = s.status.ovr := rfl
@[simp] theorem raiseMismatch_phase (b : Byte) : (raiseMismatch b s).status.phase = s.status.phase := rfl
@[simp] theorem raiseMismatch_rxbyte (b : Byte) : (raiseMismatch b s).status.rxbyte = b := rfl
@[simp] theorem raiseMismatch_op (b : Byte) : (raiseMismatch b s).status.op = s.status.op := rfl
@[simp] theorem raiseMismatch_arg0 (b : Byte) : (raiseMismatch b s).arg0 = s.arg0 := rfl
@[simp] theorem raiseMismatch_arg1 (b : Byte) : (raiseMismatch b s).arg1 = s.arg1 := rfl
@[simp] theorem raiseMismatch_capdac (b : Byte) : (raiseMismatch b s).capdac = s.capdac := rfl
@[simp] theorem raiseMismatch_hvMaxwait (b : Byte) : (raiseMismatch b s).hvMaxwait = s.hvMaxwait := rfl
@[simp] theorem raiseMismatch_hvOutermax (b : Byte) : (raiseMismatch b s).hvOutermax = s.hvOutermax := rfl
@[simp] theorem raiseMismatch_br (b : Byte) : (raiseMismatch b s).br = s.br := rfl
@[simp] theorem raiseMismatch_hv (b : Byte) : (raiseMismatch b s).hv = s.hv := rfl
@[simp] theorem raiseMismatch_txCount (b : Byte) : (raiseMismatch b s).txCount = s.txCount := rfl
@[simp] theorem raiseMismatch_fp (b : Byte) : (raiseMismatch b s).fp = s.fp := rfl
@[simp] theorem raiseMismatch_mem (b : Byte) : (raiseMismatch b s).mem = s.mem := rfl
@[simp] theorem raiseMismatch_rxq (b : Byte) : (raiseMismatch b s).rxq = s.rxq := rfl
@[simp] theorem raiseMismatch_txh (b : Byte) : (raiseMismatch b s).txh = s.txh := rfl
@[simp] theorem raiseMismatch_resetPin (b : Byte) : (raiseMismatch b s).resetPin = s.resetPin := rfl
@[simp] theorem raiseMismatch_env (b : Byte) : (raiseMismatch b s).env = s.env := rfl
@[simp] theorem raiseMismatch_modelFaults (b : Byte) : (raiseMismatch b s).modelFaults = s.modelFaults := rfl
@[simp] theorem raiseMismatch_draws (b : Byte) : (raiseMismatch b s).draws = s.draws := rfl

/-! ### `overrun` -/

@[simp] theorem overrun_cfg : (overrun s).cfg = s.cfg := rfl
@[simp] theorem overrun_state : (overrun s).status.state = s.status.state := rfl
@[simp] theorem overrun_err : (overrun s).status.err = s.status.err := rfl
@[simp] theorem overrun_partialFrame : (overrun s).status.partialFrame = s.status.partialFrame := rfl
@[simp] theorem overrun_ovr : (overrun s).status.ovr = true := rfl
@[simp] theorem overrun_phase : (overrun s).status.phase = s.status.phase := rfl
@[simp] theorem overrun_rxbyte : (overrun s).status.rxbyte = s.status.rxbyte := rfl
@[simp] theorem overrun_op : (overrun s).status.op = s.status.op := rfl
@[simp] theorem overrun_arg0 : (overrun s).arg0 = s.arg0 := rfl
@[simp] theorem overrun_arg1 : (overrun s).arg1 = s.arg1 := rfl
@[simp] theorem overrun_capdac : (overrun s).capdac = s.capdac := rfl
@[simp] theorem overrun_hvMaxwait : (overrun s).hvMaxwait = s.hvMaxwait := rfl
@[simp] theorem overrun_hvOutermax : (overrun s).hvOutermax = s.hvOutermax := rfl
@[simp] theorem overrun_br : (overrun s).br = s.br := rfl
@[simp] theorem overrun_hv : (overrun s).hv = s.hv := rfl
@[simp] theorem overrun_txCount : (overrun s).txCount = s.txCount := rfl
@[simp] theorem overrun_fp : (overrun s).fp = s.fp := rfl
@[simp] theorem overrun_mem : (overrun s).mem = s.mem := rfl
@[simp] theorem overrun_rxq : (overrun s).rxq = s.rxq := rfl
@[simp] theorem overrun_txh : (overrun s).txh = s.txh := rfl
@[simp] theorem overrun_resetPin : (overrun s).resetPin = s.resetPin := rfl
@[simp] theorem overrun_env : (overrun s).env = s.env := rfl
@[simp] theorem overrun_modelFaults : (overrun s).modelFaults = { s.modelFaults with hostOverrun := true } := rfl
@[simp] theorem overrun_draws : (overrun s).draws = s.draws := rfl

/-! ### `launching` -/

@[simp] theorem launching_cfg (o : Byte) : (launching o s).cfg = s.cfg := rfl
@[simp] theorem launching_state (o : Byte) : (launching o s).status.state = s.status.state := rfl
@[simp] theorem launching_err (o : Byte) : (launching o s).status.err = s.status.err := rfl
@[simp] theorem launching_partialFrame (o : Byte) : (launching o s).status.partialFrame = s.status.partialFrame := rfl
@[simp] theorem launching_ovr (o : Byte) : (launching o s).status.ovr = s.status.ovr := rfl
@[simp] theorem launching_phase (o : Byte) : (launching o s).status.phase = s.status.phase := rfl
@[simp] theorem launching_rxbyte (o : Byte) : (launching o s).status.rxbyte = 0 := rfl
@[simp] theorem launching_op (o : Byte) : (launching o s).status.op = o := rfl
@[simp] theorem launching_arg0 (o : Byte) : (launching o s).arg0 = s.arg0 := rfl
@[simp] theorem launching_arg1 (o : Byte) : (launching o s).arg1 = s.arg1 := rfl
@[simp] theorem launching_capdac (o : Byte) : (launching o s).capdac = s.capdac := rfl
@[simp] theorem launching_hvMaxwait (o : Byte) : (launching o s).hvMaxwait = s.hvMaxwait := rfl
@[simp] theorem launching_hvOutermax (o : Byte) : (launching o s).hvOutermax = s.hvOutermax := rfl
@[simp] theorem launching_br (o : Byte) : (launching o s).br = s.br := rfl
@[simp] theorem launching_hv (o : Byte) : (launching o s).hv = s.hv := rfl
@[simp] theorem launching_txCount (o : Byte) : (launching o s).txCount = s.txCount := rfl
@[simp] theorem launching_fp (o : Byte) : (launching o s).fp = s.fp := rfl
@[simp] theorem launching_mem (o : Byte) : (launching o s).mem = s.mem := rfl
@[simp] theorem launching_rxq (o : Byte) : (launching o s).rxq = s.rxq := rfl
@[simp] theorem launching_txh (o : Byte) : (launching o s).txh = s.txh := rfl
@[simp] theorem launching_resetPin (o : Byte) : (launching o s).resetPin = s.resetPin := rfl
@[simp] theorem launching_env (o : Byte) : (launching o s).env = s.env := rfl
@[simp] theorem launching_modelFaults (o : Byte) : (launching o s).modelFaults = s.modelFaults := rfl
@[simp] theorem launching_draws (o : Byte) : (launching o s).draws = s.draws := rfl

/-! ### `txPut` -/

@[simp] theorem txPut_cfg (bs : List Byte) : (txPut bs s).cfg = s.cfg := rfl
@[simp] theorem txPut_status (bs : List Byte) : (txPut bs s).status = s.status := rfl
@[simp] theorem txPut_arg0 (bs : List Byte) : (txPut bs s).arg0 = s.arg0 := rfl
@[simp] theorem txPut_arg1 (bs : List Byte) : (txPut bs s).arg1 = s.arg1 := rfl
@[simp] theorem txPut_capdac (bs : List Byte) : (txPut bs s).capdac = s.capdac := rfl
@[simp] theorem txPut_hvMaxwait (bs : List Byte) : (txPut bs s).hvMaxwait = s.hvMaxwait := rfl
@[simp] theorem txPut_hvOutermax (bs : List Byte) : (txPut bs s).hvOutermax = s.hvOutermax := rfl
@[simp] theorem txPut_br (bs : List Byte) : (txPut bs s).br = s.br := rfl
@[simp] theorem txPut_hv (bs : List Byte) : (txPut bs s).hv = s.hv := rfl
@[simp] theorem txPut_txCount (bs : List Byte) : (txPut bs s).txCount = s.txCount + BitVec.ofNat 32 bs.length := rfl
@[simp] theorem txPut_fp (bs : List Byte) : (txPut bs s).fp = s.fp := rfl
@[simp] theorem txPut_mem (bs : List Byte) : (txPut bs s).mem = s.mem := rfl
@[simp] theorem txPut_rxq (bs : List Byte) : (txPut bs s).rxq = s.rxq := rfl
@[simp] theorem txPut_txh (bs : List Byte) : (txPut bs s).txh = s.txh ++ bs := rfl
@[simp] theorem txPut_resetPin (bs : List Byte) : (txPut bs s).resetPin = s.resetPin := rfl
@[simp] theorem txPut_env (bs : List Byte) : (txPut bs s).env = s.env := rfl
@[simp] theorem txPut_modelFaults (bs : List Byte) : (txPut bs s).modelFaults = s.modelFaults := rfl
@[simp] theorem txPut_draws (bs : List Byte) : (txPut bs s).draws = s.draws := rfl

/-! ### `rxTake` -/

@[simp] theorem rxTake_cfg (r : Nat) : (rxTake r s).cfg = s.cfg := rfl
@[simp] theorem rxTake_status (r : Nat) : (rxTake r s).status = s.status := rfl
@[simp] theorem rxTake_arg0 (r : Nat) : (rxTake r s).arg0 = s.arg0 := rfl
@[simp] theorem rxTake_arg1 (r : Nat) : (rxTake r s).arg1 = s.arg1 := rfl
@[simp] theorem rxTake_capdac (r : Nat) : (rxTake r s).capdac = s.capdac := rfl
@[simp] theorem rxTake_hvMaxwait (r : Nat) : (rxTake r s).hvMaxwait = s.hvMaxwait := rfl
@[simp] theorem rxTake_hvOutermax (r : Nat) : (rxTake r s).hvOutermax = s.hvOutermax := rfl
@[simp] theorem rxTake_br (r : Nat) : (rxTake r s).br = s.br := rfl
@[simp] theorem rxTake_hv (r : Nat) : (rxTake r s).hv = s.hv := rfl
@[simp] theorem rxTake_txCount (r : Nat) : (rxTake r s).txCount = s.txCount := rfl
@[simp] theorem rxTake_fp (r : Nat) : (rxTake r s).fp = s.fp := rfl
@[simp] theorem rxTake_mem (r : Nat) : (rxTake r s).mem = s.mem := rfl
@[simp] theorem rxTake_rxq (r : Nat) : (rxTake r s).rxq = s.rxq.drop r := rfl
@[simp] theorem rxTake_txh (r : Nat) : (rxTake r s).txh = s.txh := rfl
@[simp] theorem rxTake_resetPin (r : Nat) : (rxTake r s).resetPin = s.resetPin := rfl
@[simp] theorem rxTake_env (r : Nat) : (rxTake r s).env = s.env := rfl
@[simp] theorem rxTake_modelFaults (r : Nat) : (rxTake r s).modelFaults = s.modelFaults := rfl
@[simp] theorem rxTake_draws (r : Nat) : (rxTake r s).draws = s.draws := rfl

/-! ### `rxFlush` -/

@[simp] theorem rxFlush_cfg : (rxFlush s).cfg = s.cfg := rfl
@[simp] theorem rxFlush_status : (rxFlush s).status = s.status := rfl
@[simp] theorem rxFlush_arg0 : (rxFlush s).arg0 = s.arg0 := rfl
@[simp] theorem rxFlush_arg1 : (rxFlush s).arg1 = s.arg1 := rfl
@[simp] theorem rxFlush_capdac : (rxFlush s).capdac = s.capdac := rfl
@[simp] theorem rxFlush_hvMaxwait : (rxFlush s).hvMaxwait = s.hvMaxwait := rfl
@[simp] theorem rxFlush_hvOutermax : (rxFlush s).hvOutermax = s.hvOutermax := rfl
@[simp] theorem rxFlush_br : (rxFlush s).br = s.br := rfl
@[simp] theorem rxFlush_hv : (rxFlush s).hv = s.hv := rfl
@[simp] theorem rxFlush_txCount : (rxFlush s).txCount = s.txCount := rfl
@[simp] theorem rxFlush_fp : (rxFlush s).fp = s.fp := rfl
@[simp] theorem rxFlush_mem : (rxFlush s).mem = s.mem := rfl
@[simp] theorem rxFlush_rxq : (rxFlush s).rxq = [] := rfl
@[simp] theorem rxFlush_txh : (rxFlush s).txh = s.txh := rfl
@[simp] theorem rxFlush_resetPin : (rxFlush s).resetPin = s.resetPin := rfl
@[simp] theorem rxFlush_env : (rxFlush s).env = s.env := rfl
@[simp] theorem rxFlush_modelFaults : (rxFlush s).modelFaults = s.modelFaults := rfl
@[simp] theorem rxFlush_draws : (rxFlush s).draws = s.draws := rfl

/-! ### `devicePush` -/

@[simp] theorem devicePush_cfg (bs : List Byte) : (devicePush bs s).cfg = s.cfg := rfl
@[simp] theorem devicePush_status (bs : List Byte) : (devicePush bs s).status = s.status := rfl
@[simp] theorem devicePush_arg0 (bs : List Byte) : (devicePush bs s).arg0 = s.arg0 := rfl
@[simp] theorem devicePush_arg1 (bs : List Byte) : (devicePush bs s).arg1 = s.arg1 := rfl
@[simp] theorem devicePush_capdac (bs : List Byte) : (devicePush bs s).capdac = s.capdac := rfl
@[simp] theorem devicePush_hvMaxwait (bs : List Byte) : (devicePush bs s).hvMaxwait = s.hvMaxwait := rfl
@[simp] theorem devicePush_hvOutermax (bs : List Byte) : (devicePush bs s).hvOutermax = s.hvOutermax := rfl
@[simp] theorem devicePush_br (bs : List Byte) : (devicePush bs s).br = s.br := rfl
@[simp] theorem devicePush_hv (bs : List Byte) : (devicePush bs s).hv = s.hv := rfl
@[simp] theorem devicePush_txCount (bs : List Byte) : (devicePush bs s).txCount = s.txCount := rfl
@[simp] theorem devicePush_fp (bs : List Byte) : (devicePush bs s).fp = s.fp := rfl
@[simp] theorem devicePush_mem (bs : List Byte) : (devicePush bs s).mem = s.mem := rfl
@[simp] theorem devicePush_rxq (bs : List Byte) : (devicePush bs s).rxq = s.rxq ++ bs := rfl
@[simp] theorem devicePush_txh (bs : List Byte) : (devicePush bs s).txh = s.txh := rfl
@[simp] theorem devicePush_resetPin (bs : List Byte) : (devicePush bs s).resetPin = s.resetPin := rfl
@[simp] theorem devicePush_env (bs : List Byte) : (devicePush bs s).env = s.env := rfl
@[simp] theorem devicePush_modelFaults (bs : List Byte) : (devicePush bs s).modelFaults = s.modelFaults := rfl
@[simp] theorem devicePush_draws (bs : List Byte) : (devicePush bs s).draws = s.draws := rfl

/-! ### `answer` -/

@[simp] theorem answer_cfg (r : Option Reply) : (answer r s).cfg = s.cfg := rfl
@[simp] theorem answer_status (r : Option Reply) : (answer r s).status = s.status := rfl
@[simp] theorem answer_arg0 (r : Option Reply) : (answer r s).arg0 = s.arg0 := rfl
@[simp] theorem answer_arg1 (r : Option Reply) : (answer r s).arg1 = s.arg1 := rfl
@[simp] theorem answer_capdac (r : Option Reply) : (answer r s).capdac = s.capdac := rfl
@[simp] theorem answer_hvMaxwait (r : Option Reply) : (answer r s).hvMaxwait = s.hvMaxwait := rfl
@[simp] theorem answer_hvOutermax (r : Option Reply) : (answer r s).hvOutermax = s.hvOutermax := rfl
@[simp] theorem answer_br (r : Option Reply) : (answer r s).br = s.br := rfl
@[simp] theorem answer_hv (r : Option Reply) : (answer r s).hv = s.hv := rfl
@[simp] theorem answer_txCount (r : Option Reply) : (answer r s).txCount = s.txCount := rfl
@[simp] theorem answer_fp (r : Option Reply) : (answer r s).fp = s.fp := rfl
@[simp] theorem answer_mem (r : Option Reply) : (answer r s).mem = s.mem := rfl
@[simp] theorem answer_rxq (r : Option Reply) : (answer r s).rxq = s.rxq := rfl
@[simp] theorem answer_txh (r : Option Reply) : (answer r s).txh = s.txh := rfl
@[simp] theorem answer_resetPin (r : Option Reply) : (answer r s).resetPin = s.resetPin := rfl
@[simp] theorem answer_env (r : Option Reply) : (answer r s).env = { s.env with reply := r } := rfl
@[simp] theorem answer_modelFaults (r : Option Reply) : (answer r s).modelFaults = s.modelFaults := rfl
@[simp] theorem answer_draws (r : Option Reply) : (answer r s).draws = s.draws := rfl

/-! ### `hostGoto` -/

@[simp] theorem hostGoto_cfg (p : List HostOp) : (hostGoto p s).cfg = s.cfg := rfl
@[simp] theorem hostGoto_status (p : List HostOp) : (hostGoto p s).status = s.status := rfl
@[simp] theorem hostGoto_arg0 (p : List HostOp) : (hostGoto p s).arg0 = s.arg0 := rfl
@[simp] theorem hostGoto_arg1 (p : List HostOp) : (hostGoto p s).arg1 = s.arg1 := rfl
@[simp] theorem hostGoto_capdac (p : List HostOp) : (hostGoto p s).capdac = s.capdac := rfl
@[simp] theorem hostGoto_hvMaxwait (p : List HostOp) : (hostGoto p s).hvMaxwait = s.hvMaxwait := rfl
@[simp] theorem hostGoto_hvOutermax (p : List HostOp) : (hostGoto p s).hvOutermax = s.hvOutermax := rfl
@[simp] theorem hostGoto_br (p : List HostOp) : (hostGoto p s).br = s.br := rfl
@[simp] theorem hostGoto_hv (p : List HostOp) : (hostGoto p s).hv = s.hv := rfl
@[simp] theorem hostGoto_txCount (p : List HostOp) : (hostGoto p s).txCount = s.txCount := rfl
@[simp] theorem hostGoto_fp (p : List HostOp) : (hostGoto p s).fp = s.fp := rfl
@[simp] theorem hostGoto_mem (p : List HostOp) : (hostGoto p s).mem = s.mem := rfl
@[simp] theorem hostGoto_rxq (p : List HostOp) : (hostGoto p s).rxq = s.rxq := rfl
@[simp] theorem hostGoto_txh (p : List HostOp) : (hostGoto p s).txh = s.txh := rfl
@[simp] theorem hostGoto_resetPin (p : List HostOp) : (hostGoto p s).resetPin = s.resetPin := rfl
@[simp] theorem hostGoto_env (p : List HostOp) : (hostGoto p s).env = { s.env with prog := p } := rfl
@[simp] theorem hostGoto_modelFaults (p : List HostOp) : (hostGoto p s).modelFaults = s.modelFaults := rfl
@[simp] theorem hostGoto_draws (p : List HostOp) : (hostGoto p s).draws = s.draws := rfl

/-! ### `resetRegisters` -/

@[simp] theorem resetRegisters_cfg : (resetRegisters s).cfg = s.cfg := rfl
@[simp] theorem resetRegisters_status : (resetRegisters s).status = .reset := rfl
@[simp] theorem resetRegisters_arg0 : (resetRegisters s).arg0 = 0 := rfl
@[simp] theorem resetRegisters_arg1 : (resetRegisters s).arg1 = 0 := rfl
@[simp] theorem resetRegisters_capdac : (resetRegisters s).capdac = 0 := rfl
@[simp] theorem resetRegisters_hvMaxwait : (resetRegisters s).hvMaxwait = hvMaxwaitReset := rfl
@[simp] theorem resetRegisters_hvOutermax : (resetRegisters s).hvOutermax = hvOutermaxReset := rfl
@[simp] theorem resetRegisters_br : (resetRegisters s).br = .reset := rfl
@[simp] theorem resetRegisters_hv : (resetRegisters s).hv = .reset := rfl
@[simp] theorem resetRegisters_txCount : (resetRegisters s).txCount = 0 := rfl
@[simp] theorem resetRegisters_fp : (resetRegisters s).fp = .reset := rfl
@[simp] theorem resetRegisters_mem : (resetRegisters s).mem = s.mem := rfl
@[simp] theorem resetRegisters_rxq : (resetRegisters s).rxq = s.rxq := rfl
@[simp] theorem resetRegisters_txh : (resetRegisters s).txh = s.txh := rfl
@[simp] theorem resetRegisters_resetPin : (resetRegisters s).resetPin = s.resetPin := rfl
@[simp] theorem resetRegisters_env : (resetRegisters s).env = s.env := rfl
@[simp] theorem resetRegisters_modelFaults : (resetRegisters s).modelFaults = s.modelFaults := rfl
@[simp] theorem resetRegisters_draws : (resetRegisters s).draws = s.draws := rfl

end Sys2Proof.Machine
end

