-- ==== Sys2Proof/Laws/Ops.lean ====
section
/-! SUPPORT. One lemma for each shared operation that says everything it can do: accepting a command, the end checks,
the RESET pin, the read size, reading frames, writing SAMPLE entries, the digits of a number, window addresses. -/

namespace Sys2Proof.Machine

/-! ### Acceptance, end checks, the RESET pin -/

theorem accept_of_accepts {opc : Byte} {body : State → State} {s : State} (h : s.accepts) :
    accept opc body s = .next (body (launching opc s)) := by
  rcases h with h | h <;> simp only [accept, h]

theorem accept_of_dropped {opc : Byte} {body : State → State} {s : State} (h : s.isBusy ∨ s.status.state = .error) :
    accept opc body s = .next (overrun s) := by
  rcases h with h | h
  · simp only [accept, show s.status.state = .busy from h]
  · simp only [accept, h]

/-- The Bounded Reader's end check: done, timed out, or nothing. -/
theorem brCheck_cases (s : State) :
    (s.br.len = s.br.n ∧ brCheck s = setEngine .done s) ∨
    (s.br.len ≠ s.br.n ∧ s.br.max ≤ s.br.empty ∧ brCheck s = raise .bulkReadTimeout s) ∨
    (s.br.len ≠ s.br.n ∧ s.br.empty < s.br.max ∧ brCheck s = s) := by
  by_cases h : s.br.len = s.br.n
  · exact .inl ⟨h, by simp [brCheck, h]⟩
  · by_cases h' : s.br.max ≤ s.br.empty
    · exact .inr (.inl ⟨h, h', by simp [brCheck, h, h']⟩)
    · exact .inr (.inr ⟨h, by bv_omega, by simp [brCheck, h, h']⟩)

/-- The Handshake Validator's budget check: timed out, or nothing. -/
theorem hvCheck_cases (s : State) :
    ((s.hvMaxwait ≤ s.hv.inner ∨ s.hvOutermax ≤ s.hv.outer) ∧ hvCheck s = raise .protocolTimeout s) ∨
    (s.hv.inner < s.hvMaxwait ∧ s.hv.outer < s.hvOutermax ∧ hvCheck s = s) := by
  by_cases h : s.hvMaxwait ≤ s.hv.inner ∨ s.hvOutermax ≤ s.hv.outer
  · exact .inl ⟨h, by simp only [hvCheck, if_pos h]⟩
  · refine .inr ⟨?_, ?_, by simp only [hvCheck, if_neg h]⟩ <;> bv_omega

/-- Driving the RESET pin: asserted, released after an assertion, or no edge. -/
theorem driveReset_cases (b : Bool) (s : State) :
    (b = true ∧ driveReset b s = { s with resetPin := true }) ∨
    (b = false ∧ s.resetPin = true ∧ driveReset b s = { resetRegisters s with mem := [], resetPin := false }) ∨
    (b = false ∧ s.resetPin = false ∧ driveReset b s = s) := by
  cases b with
  | true => exact .inl ⟨rfl, rfl⟩
  | false =>
    cases h : s.resetPin
    · exact .inr (.inr ⟨rfl, rfl, by simp [driveReset, h]⟩)
    · exact .inr (.inl ⟨rfl, rfl, by simp [driveReset, h]⟩)

/-! ### The Bounded Reader's read size -/

theorem readSize_bounds (remaining available : Nat) (h : 1 ≤ remaining) :
    1 ≤ readSize remaining available ∧ readSize remaining available ≤ remaining := by
  unfold readSize; omega

/-- What a query step latches, as a number. -/
theorem brQuery_r_toNat (s : State) (h : s.br.len < s.br.n) :
    (brQuery s).br.r.toNat = readSize (s.br.n.toNat - s.br.len.toNat) (rxAvail s) := by
  have hl : s.br.len.toNat < s.br.n.toNat := h
  have hb := (readSize_bounds (s.br.n.toNat - s.br.len.toNat) (rxAvail s) (by omega)).2
  have hn := s.br.n.isLt
  simp only [brQuery, BitVec.toNat_ofNat]
  exact Nat.mod_eq_of_lt (by omega)

/-! ### Frames of ACC -/

/-- A frame is its two little-endian words. -/
theorem readFrame_eq_some (m : Memory) (j : Nat) (ts raw : Word) :
    readFrame m j = some (ts, raw) ↔
      m.readWord (accBase + 8 * j) = some ts ∧ m.readWord (accBase + 8 * j + 4) = some raw := by
  simp only [readFrame, Memory.readWord, frameSize, Memory.readBytes, Nat.add_assoc, Nat.reduceAdd]
  cases m.read (accBase + 8 * j) <;> cases m.read (accBase + (8 * j + 1)) <;>
    cases m.read (accBase + (8 * j + 2)) <;> cases m.read (accBase + (8 * j + 3)) <;> simp
  cases m.read (accBase + (8 * j + 4)) <;> cases m.read (accBase + (8 * j + 5)) <;>
    cases m.read (accBase + (8 * j + 6)) <;> cases m.read (accBase + (8 * j + 7)) <;> simp

/-- A frame is missing when one of its eight bytes was never written. -/
theorem readFrame_eq_none (m : Memory) (j : Nat) :
    readFrame m j = none ↔ ∃ i, i < 8 ∧ m.read (accBase + 8 * j + i) = none := by
  rw [← readBytes_eq_none]
  cases h : m.readBytes (accBase + 8 * j) 8 with
  | none => simp [readFrame, frameSize, h]
  | some bs =>
    have hl := ((readBytes_eq_some m _ _ bs).1 h).1
    match bs, hl with
    | [b0, b1, b2, b3, b4, b5, b6, b7], _ => simp [readFrame, frameSize, h]

/-- What reading frames answers: as many as asked, each the frame at its index. -/
theorem readFrames_eq_some (m : Memory) (j k : Nat) (fs : List (Word × Word)) :
    readFrames m j k = some fs ↔ fs.length = k ∧ ∀ i, i < k → readFrame m (j + i) = fs[i]? := by
  induction k generalizing j fs with
  | zero =>
    simp only [readFrames, Option.some.injEq, Nat.not_lt_zero, false_imp_iff, implies_true, and_true,
      List.length_eq_zero_iff]
    exact eq_comm
  | succ k ih =>
    constructor
    · intro h
      simp only [readFrames] at h
      split at h
      · rename_i f gs hf hgs
        cases h
        obtain ⟨hl, hr⟩ := (ih (j + 1) gs).1 hgs
        refine ⟨by simp [hl], fun i hi => ?_⟩
        cases i with
        | zero => simpa using hf
        | succ i =>
          have := hr i (by omega)
          rw [show j + (i + 1) = j + 1 + i by omega]
          simpa using this
      · exact absurd h (by simp)
    · rintro ⟨hl, hr⟩
      cases fs with
      | nil => simp at hl
      | cons f gs =>
        have h0 : readFrame m j = some f := by simpa using hr 0 (by omega)
        have h1 : readFrames m (j + 1) k = some gs := by
          refine (ih (j + 1) gs).2 ⟨by simpa using hl, fun i hi => ?_⟩
          have := hr (i + 1) (by omega)
          rw [show j + 1 + i = j + (i + 1) by omega]
          simpa using this
        simp only [readFrames, h0, h1]

/-- Reading frames fails when one of them is missing. -/
theorem readFrames_eq_none (m : Memory) (j k : Nat) :
    readFrames m j k = none ↔ ∃ i, i < k ∧ readFrame m (j + i) = none := by
  induction k generalizing j with
  | zero => simp [readFrames]
  | succ k ih =>
    simp only [readFrames]
    constructor
    · intro h
      cases h0 : readFrame m j with
      | none => exact ⟨0, by omega, h0⟩
      | some f =>
        cases h1 : readFrames m (j + 1) k with
        | none =>
          obtain ⟨i, hi, hr⟩ := (ih (j + 1)).1 h1
          exact ⟨i + 1, by omega, by rw [show j + (i + 1) = j + 1 + i by omega]; exact hr⟩
        | some fs => simp [h0, h1] at h
    · rintro ⟨i, hi, hr⟩
      cases i with
      | zero => simp [show readFrame m j = none from hr]
      | succ i =>
        have h1 : readFrames m (j + 1) k = none :=
          (ih (j + 1)).2 ⟨i, by omega, by rw [show j + 1 + i = j + (i + 1) by omega]; exact hr⟩
        simp [h1]

/-! ### SAMPLE entries -/

@[simp] theorem sampleBytes_length (x : Sample) : (sampleBytes x).length = 32 := by
  simp [sampleBytes]

theorem writeSamples_wf (m : Memory) (j : Nat) (xs : List Sample) (h : m.wf) : (writeSamples m j xs).wf := by
  induction xs generalizing m j with
  | nil => exact h
  | cons x xs ih => rw [writeSamples]; exact ih _ _ (writeBytes_wf m _ _ h)

/-- Writing entries leaves every byte outside them alone. -/
theorem read_writeSamples_outside (m : Memory) (j : Nat) (xs : List Sample) (a : Nat)
    (h : ¬(sampleBase + 32 * j ≤ a ∧ a < sampleBase + 32 * (j + xs.length))) :
    (writeSamples m j xs).read a = m.read a := by
  induction xs generalizing m j with
  | nil => rfl
  | cons x xs ih =>
    simp only [List.length_cons] at h
    rw [writeSamples, ih _ _ (by omega)]
    exact read_writeBytes_outside _ _ _ _ (by simp only [sampleBytes_length, sampleSize]; omega)

/-- Written entries read back byte by byte. -/
theorem read_writeSamples_inside (m : Memory) (j : Nat) (xs : List Sample) (i k : Nat) (x : Sample)
    (hx : xs[i]? = some x) (hk : k < 32) :
    (writeSamples m j xs).read (sampleBase + 32 * (j + i) + k) = (sampleBytes x)[k]? := by
  induction xs generalizing m j i with
  | nil => simp at hx
  | cons y ys ih =>
    cases i with
    | zero =>
      simp only [List.getElem?_cons_zero, Option.some.injEq] at hx
      subst hx
      rw [writeSamples, read_writeSamples_outside _ _ _ _ (by omega)]
      have := read_writeBytes_inside m (sampleBase + sampleSize * j) (sampleBytes y) k (by simpa using hk)
      rw [show sampleBase + 32 * (j + 0) + k = sampleBase + sampleSize * j + k by simp only [sampleSize]; omega, this]
      simp [hk]
    | succ i =>
      rw [writeSamples, show j + (i + 1) = j + 1 + i by omega]
      exact ih _ _ _ (by simpa using hx)

/-! ### Digits -/

/-- The loop puts the digits before what it was given. -/
theorem decLoop_append (fuel v : Nat) (s : List Byte) : decLoop fuel v s = decLoop fuel v [] ++ s := by
  induction fuel generalizing v s with
  | zero => rfl
  | succ n ih =>
    simp only [decLoop]
    split
    · rfl
    · rw [ih (v / 10) (digitByte v :: s), ih (v / 10) [digitByte v], List.append_assoc]
      rfl

/-! ### Host variables -/

/-- A read that was answered loads its variable, and no other. -/
theorem hostValue_hostLoad (r r' : Nat) (s : State) (v : Word) (h : s.env.reply = some (.data v)) :
    hostValue (.var r') (hostLoad r s) = if r' = r then some v else hostValue (.var r') s := by
  simp only [hostLoad, h, hostValue, cellGet_cellSet]

/-! ### Window addresses -/

/-- The address of an offset is in the window, at that offset. -/
@[simp] theorem windowOffset_addr (c : Config) (off : BitVec 28) : windowOffset c (c.addr off) = some off.toNat := by
  have h1 : (c.addr off).extractLsb' 28 4 = c.fheBase := by
    apply BitVec.eq_of_getLsbD_eq
    intro i hi
    simp only [Config.addr, BitVec.getLsbD_extractLsb', BitVec.getLsbD_append]
    simp [hi]
  have h2 : (c.addr off).extractLsb' 0 28 = off := by
    apply BitVec.eq_of_getLsbD_eq
    intro i hi
    simp only [Config.addr, BitVec.getLsbD_extractLsb', BitVec.getLsbD_append]
    simp [hi]
  simp [windowOffset, h1, h2]

end Sys2Proof.Machine
end

