-- ==== Sys2Proof/Laws/PerInstr.lean ====
section
/-! SUPPORT. Statements about every instruction, one lemma per constructor. -/

namespace Sys2Proof.Laws

/-- Family `EncodesItsFields`: the word of a well-formed command has its opcode and a zero RSV, and decodes to the
command (30_encoding.md rules R73, R76, R85). -/
def EncodesItsFields.Statement (i : Instr) : Prop :=
  i.wf = true → opcField (encode i) = i.opcode ∧ rsvField (encode i) = 0 ∧ decode (encode i) = .ok i

theorem EncodesItsFields.softReset : EncodesItsFields.Statement .softReset := fun _ => by
  simp [encode, Instr.opcode, decode, decodePlain]

theorem EncodesItsFields.readExact : EncodesItsFields.Statement .readExact := fun _ => by
  simp [encode, Instr.opcode, decode, decodePlain]

theorem EncodesItsFields.exchangeDec (ack : Byte) : EncodesItsFields.Statement (.exchangeDec ack) := fun _ => by
  simp [encode, Instr.opcode, decode]

theorem EncodesItsFields.exchangeLit (ack lit : Byte) : EncodesItsFields.Statement (.exchangeLit ack lit) := fun h => by
  have h' : lit ≤ 0x7F := by simpa [Instr.wf] using h
  simpa [encode, Instr.opcode, decode] using h'

theorem EncodesItsFields.decodeFrames : EncodesItsFields.Statement .decodeFrames := fun _ => by
  simp [encode, Instr.opcode, decode, decodePlain]

theorem EncodesItsFields.flushRx : EncodesItsFields.Statement .flushRx := fun _ => by
  simp [encode, Instr.opcode, decode, decodePlain]

end Sys2Proof.Laws
end

