-- ==== Sys2Proof/Laws/Step.lean ====
section
/-! SUPPORT. Everything a step can do, said once: each next state is one `Move` of the hardware, up to the model's own
fields for the agents. Invariants are proved move by move (`step_preserves`). -/

namespace Sys2Proof.Machine

/-- `s` with other agents' fields. -/
def withEnv (e : Env) (s : State) : State := { s with env := e }

@[simp] theorem withEnv_env (s : State) (e : Env) : (withEnv e s).env = e := rfl
@[simp] theorem withEnv_self (s : State) : withEnv s.env s = s := rfl
@[simp] theorem withEnv_withEnv (s : State) (e e' : Env) : withEnv e (withEnv e' s) = withEnv e s := rfl

/-- One atomic change of the hardware, with the conditions under which it happens. -/
inductive Move (s : State) : State → Prop where
  | stay : Move s s
  | busError : Move s { s with modelFaults.hostBusError := true }
  | draw (h : s.isBusy) : Move s { s with draws := s.draws + 1, modelFaults.readWhileBusy := true }
  | drop (h : s.isBusy ∨ s.status.state = .error) : Move s (overrun s)
  | softReset (h : ¬ s.isBusy) : Move s (resetRegisters s)
  | flush (h : s.accepts) : Move s (setEngine .done (rxFlush (launching 0x06 s)))
  | illegal (opc : Byte) (h : s.accepts) : Move s (raise .illegalCommand (launching opc s))
  | readExact (h : s.accepts) : Move s (launchReadExact (launching 0x02 s))
  | exchange (opc a : Byte) (f : ValueForm) (h : s.accepts) (ho : opc = 0x03 ∨ opc = 0x04) :
      Move s (launchExchange a f (launching opc s))
  | decode (h : s.accepts) : Move s (launchDecode (launching 0x05 s))
  | store (r : Reg) (w : Word) (h : ¬ s.isBusy) : Move s (writeReg r w s)
  | storeAcc (off : Nat) (z : Size) (t : Target) (w : Word) (h : ¬ s.isBusy) (ht : busTarget s.cfg off z = some t) :
      Move s (storeAcc t w s)
  | push (bs : List Byte) : Move s (devicePush bs s)
  | pin (asserted : Bool) : Move s (driveReset asserted s)
  | query (h : s.inReadExact) (hs : s.br.sub = .query) (hp : s.resetPin = false) : Move s (brQuery s)
  | read (h : s.inReadExact) (hs : s.br.sub = .read) (hp : s.resetPin = false) : Move s (brRead s)
  | emptyPoll (h : s.inExchange) (hq : s.rxq = []) (hp : s.resetPin = false) : Move s (hvEmptyPoll s)
  | receive (b : Byte) (q : List Byte) (h : s.inExchange) (hq : s.rxq = b :: q) (hp : s.resetPin = false) :
      Move s (hvReceive b (rxTake 1 s))
  | decodeStep (fs : List (Word × Word)) (h : s.inDecode)
      (hf : readFrames s.mem 0 (s.fp.dlen.toNat / frameSize) = some fs) (hp : s.resetPin = false) :
      Move s (finishDecode fs s)

/-- A move does not depend on the agents' fields. -/
theorem Move.of_withEnv {e : Env} {s t : State} (h : Move (withEnv e s) t) : ∃ t₀, Move s t₀ ∧ t = withEnv e t₀ := by
  cases h with
  | stay => exact ⟨s, .stay, rfl⟩
  | busError => exact ⟨_, .busError, rfl⟩
  | draw h => exact ⟨_, .draw h, rfl⟩
  | drop h => exact ⟨_, .drop h, rfl⟩
  | softReset h => exact ⟨_, .softReset h, rfl⟩
  | flush h => exact ⟨_, .flush h, rfl⟩
  | illegal opc h => exact ⟨_, .illegal opc h, rfl⟩
  | readExact h =>
    refine ⟨_, .readExact h, ?_⟩
    unfold launchReadExact brCheck
    simp only [apply_ite (withEnv e)]
    rfl
  | exchange opc a f h ho =>
    refine ⟨_, .exchange opc a f h ho, ?_⟩
    unfold launchExchange hvCheck
    simp only [apply_ite (withEnv e)]
    rfl
  | decode h =>
    refine ⟨_, .decode h, ?_⟩
    unfold launchDecode
    simp only [apply_ite (withEnv e)]
    rfl
  | store r w h => exact ⟨_, .store r w h, by cases r <;> rfl⟩
  | storeAcc off z u w h ht => exact ⟨_, .storeAcc off z u w h ht, by cases u <;> rfl⟩
  | push bs => exact ⟨_, .push bs, rfl⟩
  | pin b =>
    refine ⟨_, .pin b, ?_⟩
    unfold driveReset
    simp only [apply_ite (withEnv e)]
    rfl
  | query h hs hp => exact ⟨_, .query h hs hp, rfl⟩
  | read h hs hp =>
    refine ⟨_, .read h hs hp, ?_⟩
    unfold brRead brCheck
    simp only [apply_ite (withEnv e)]
    rfl
  | emptyPoll h hq hp =>
    refine ⟨_, .emptyPoll h hq hp, ?_⟩
    unfold hvEmptyPoll hvCheck
    simp only [apply_ite (withEnv e)]
    rfl
  | receive b q h hq hp =>
    refine ⟨_, .receive b q h hq hp, ?_⟩
    obtain ⟨cfg, ⟨st, er, pf, ov, ph, rb, op⟩, rest⟩ := s
    cases ph <;>
    · unfold hvReceive
      simp only [apply_ite (withEnv e)]
      rfl
  | decodeStep fs h hf hp => exact ⟨_, .decodeStep fs h hf hp, rfl⟩

/-- What `accept` answers: a launch in IDLE or DONE, a drop in BUSY or ERROR. -/
theorem accept_next {opc : Byte} {body : State → State} {s t : State} (h : accept opc body s = .next t) :
    (s.accepts ∧ t = body (launching opc s)) ∨ ((s.isBusy ∨ s.status.state = .error) ∧ t = overrun s) := by
  unfold accept at h
  split at h <;> cases h <;> simp_all [State.accepts, State.isBusy]

theorem illegalCommand_move {opc : Byte} {s t : State} (h : illegalCommand opc s = .next t) : Move s t := by
  obtain ⟨ha, rfl⟩ | ⟨hd, rfl⟩ := accept_next h
  · exact .illegal opc ha
  · exact .drop hd

/-- What executing a command does. -/
theorem exec_move {i : Instr} {s t : State} (h : exec i s = .next t) : Move s t := by
  cases i with
  | softReset =>
    simp only [exec, execSoftReset] at h
    split at h <;> cases h
    · exact .softReset (by simp_all [State.isBusy])
    · exact .softReset (by simp_all [State.isBusy])
    · exact .softReset (by simp_all [State.isBusy])
    · exact .drop (.inl (by simpa [State.isBusy]))
  | readExact =>
    obtain ⟨ha, rfl⟩ | ⟨hd, rfl⟩ := accept_next h
    · exact .readExact ha
    · exact .drop hd
  | exchangeDec a =>
    obtain ⟨ha, rfl⟩ | ⟨hd, rfl⟩ := accept_next h
    · exact .exchange _ a .dec ha (.inl rfl)
    · exact .drop hd
  | exchangeLit a c =>
    obtain ⟨ha, rfl⟩ | ⟨hd, rfl⟩ := accept_next h
    · split
      · exact .illegal _ ha
      · exact .exchange _ a (.lit c) ha (.inr rfl)
    · exact .drop hd
  | decodeFrames =>
    obtain ⟨ha, rfl⟩ | ⟨hd, rfl⟩ := accept_next h
    · exact .decode ha
    · exact .drop hd
  | flushRx =>
    obtain ⟨ha, rfl⟩ | ⟨hd, rfl⟩ := accept_next (show execFlushRx s = _ from h)
    · exact .flush ha
    · exact .drop hd

/-- What a write to CMD does. -/
theorem cmdWrite_move {w : Word} {s t : State} (h : cmdWrite w s = .next t) : Move s t := by
  unfold cmdWrite at h
  split at h
  · exact exec_move h
  · exact illegalCommand_move h

/-- What an engine step does. -/
theorem engineStep_move {s t : State} (hp : s.resetPin = false) (h : engineStep s = .next t) : Move s t := by
  unfold engineStep at h
  split at h
  · rename_i hb
    unfold busyStep at h
    split at h
    · rename_i ho
      unfold brStep at h
      split at h <;> cases h
      · exact .query ⟨hb, ho⟩ (by assumption) hp
      · exact .read ⟨hb, ho⟩ (by assumption) hp
    · have hx : ∀ (_ : s.status.op = 0x03 ∨ s.status.op = 0x04), hvStep s = .next t → Move s t := by
        intro ho h
        unfold hvStep rxTaken at h
        cases hq : s.rxq with
        | nil => simp only [hq, List.take_nil] at h; cases h; exact .emptyPoll ⟨hb, ho⟩ hq hp
        | cons b q => simp only [hq, List.take_succ_cons] at h; cases h; exact .receive b q ⟨hb, ho⟩ hq hp
      split at h
      · rename_i ho; exact hx (.inl ho) h
      · split at h
        · rename_i ho; exact hx (.inr ho) h
        · split at h
          · rename_i ho
            unfold Sys2Proof.Machine.decodeStep at h
            split at h <;> cases h
            rename_i hf
            exact .decodeStep _ ⟨hb, ho⟩ hf hp
          · cases h
  all_goals cases h; exact .stay

/-- The next states of an access: a move, up to the agents' fields. -/
def Reaches (s t : State) : Prop := ∃ t₀ e, Move s t₀ ∧ t = withEnv e t₀

theorem Reaches.of_move {s t : State} (h : Move s t) : Reaches s t := ⟨t, t.env, h, rfl⟩

theorem Reaches.of_withEnv {e : Env} {s t : State} (h : Reaches (withEnv e s) t) : Reaches s t := by
  obtain ⟨t₀, e', hm, rfl⟩ := h
  obtain ⟨t₁, hm', rfl⟩ := hm.of_withEnv
  exact ⟨t₁, e', hm', rfl⟩

theorem Reaches.withEnv {e : Env} {s t : State} (h : Reaches s t) : Reaches s (withEnv e t) := by
  obtain ⟨t₀, e', hm, rfl⟩ := h
  exact ⟨t₀, e, hm, rfl⟩

theorem hostRead_reaches {u : Target} {s t : State} (h : hostRead u s = .next t) : Reaches s t := by
  unfold hostRead at h
  split at h
  · rename_i hb
    cases h
    exact ⟨_, _, .draw hb.1, rfl⟩
  · split at h <;> cases h
    exact ⟨s, _, .stay, rfl⟩

theorem unlessBusy_reaches {f : State → State} {s : State} (h : ¬ s.isBusy → Move s (f s)) :
    Reaches s (unlessBusy f s) := by
  unfold unlessBusy
  split
  · rename_i hb; exact .of_move (.drop (.inl hb))
  · rename_i hb; exact .of_move (h hb)

theorem hostWrite_reaches {off : Nat} {z : Size} {u : Target} {w : Word} {s t : State}
    (hu : busTarget s.cfg off z = some u) (h : hostWrite u w s = .next t) : Reaches s t := by
  unfold hostWrite at h
  split at h
  · exact .of_move (cmdWrite_move h)
  · cases h
    split
    · exact unlessBusy_reaches fun hb => .store _ w hb
    · exact .of_move .stay
  · cases h; exact unlessBusy_reaches fun hb => .storeAcc off z _ w hb hu
  · cases h; exact unlessBusy_reaches fun hb => .storeAcc off z _ w hb hu
  · cases h; exact .of_move .stay

theorem busAccess_reaches {a : Access} {s t : State} (h : busAccess a s = .next t) : Reaches s t := by
  unfold busAccess at h
  split at h
  · cases h; exact ⟨s, _, .stay, rfl⟩
  · split at h
    · cases h; exact ⟨s, _, .stay, rfl⟩
    · split at h
      · cases h; exact ⟨_, _, .busError, rfl⟩
      · rename_i off _ _ u hu
        unfold targetAccess at h
        split at h
        · exact hostRead_reaches h
        · exact (hostWrite_reaches (s := answer (some .done) s) hu h).of_withEnv

/-- What `onNext` answers. -/
theorem onNext_next {f : State → State} {o : Host.Outcome State Fault Refusal} {t : State} (h : onNext f o = .next t) :
    ∃ u, o = .next u ∧ t = f u := by
  cases o with
  | next u => cases h; exact ⟨u, rfl, rfl⟩
  | fault r => cases h
  | refused r => cases h

theorem hostLoad_env (r : Nat) (s : State) : ∃ e, hostLoad r s = withEnv e s := by
  unfold hostLoad
  split
  · exact ⟨_, rfl⟩
  · exact ⟨s.env, rfl⟩

theorem afterWait_env (p : List HostOp) (s : State) : ∃ e, afterWait p s = withEnv e s := by
  unfold afterWait
  split
  · obtain ⟨e, he⟩ := hostLoad_env statusVar s
    rw [he]
    exact ⟨_, rfl⟩
  · exact ⟨_, rfl⟩

theorem afterCheck_env (p : List HostOp) (s : State) : ∃ e, afterCheck p s = withEnv e s := by
  unfold afterCheck
  split
  · obtain ⟨e, he⟩ := hostLoad_env statusVar s
    rw [he]
    exact ⟨_, rfl⟩
  · exact ⟨_, rfl⟩

theorem hostTurn_reaches {s t : State} (h : hostTurn s = .next t) : Reaches s t := by
  unfold hostTurn at h
  split at h
  · cases h; exact .of_move .stay
  · unfold hostOperation at h
    split at h
    · split at h
      · exact (busAccess_reaches h).of_withEnv (e := { s.env with prog := _ })
      · cases h
    · obtain ⟨u, hu, rfl⟩ := onNext_next h
      obtain ⟨e, he⟩ := hostLoad_env _ u
      rw [he]
      exact ((busAccess_reaches hu).of_withEnv (e := { s.env with prog := _ })).withEnv
    · obtain ⟨u, hu, rfl⟩ := onNext_next h
      obtain ⟨e, he⟩ := afterWait_env _ u
      rw [he]
      exact (busAccess_reaches hu).withEnv
    · obtain ⟨u, hu, rfl⟩ := onNext_next h
      obtain ⟨e, he⟩ := afterCheck_env _ u
      rw [he]
      exact (busAccess_reaches hu).withEnv

theorem takeTurn_reaches {u : Turn} {s t : State} (h : takeTurn u s = .next t) : Reaches s t := by
  cases u with
  | host => exact hostTurn_reaches h
  | engine =>
    simp only [takeTurn] at h
    split at h
    · cases h; exact .of_move .stay
    · rename_i hp; exact .of_move (engineStep_move (by simpa using hp) h)
  | push bs => cases h; exact .of_move (.push bs)
  | reset b => cases h; exact .of_move (.pin b)

/-- EVERYTHING A STEP CAN DO: one move, up to the agents' fields. -/
theorem step_reaches {s t : State} (h : step s = .next t) : Reaches s t := by
  unfold step nextEvent at h
  split at h
  · exact takeTurn_reaches h
  · exact (takeTurn_reaches h).of_withEnv (e := { s.env with sched := _ })

/-- A property that no move breaks and that does not depend on the agents' fields is kept by every step. -/
theorem step_preserves {P : State → Prop} (henv : ∀ s e, P s → P (withEnv e s)) (hmove : ∀ s t, Move s t → P s → P t)
    {s t : State} (h : step s = .next t) (hs : P s) : P t := by
  obtain ⟨t₀, e, hm, rfl⟩ := step_reaches h
  exact henv _ _ (hmove _ _ hm hs)

/-- No step refuses: every command has its meaning. -/
theorem step_not_refused (s : State) (r : Refusal) : step s ≠ .refused r := by
  have haccept : ∀ opc body s, accept opc body s ≠ .refused r := by
    intro opc body s h; unfold accept at h; split at h <;> cases h
  have hexec : ∀ i s, exec i s ≠ .refused r := by
    intro i s h
    cases i with
    | softReset => simp only [exec, execSoftReset] at h; split at h <;> cases h
    | flushRx => exact haccept _ _ s (show execFlushRx s = _ from h)
    | _ => exact haccept _ _ _ h
  have hbus : ∀ a s, busAccess a s ≠ .refused r := by
    intro a s h
    unfold busAccess at h
    split at h
    · cases h
    · split at h
      · cases h
      · split at h
        · cases h
        · unfold targetAccess at h
          split at h
          · unfold hostRead at h
            split at h
            · cases h
            · split at h <;> cases h
          · unfold hostWrite at h
            split at h
            · unfold cmdWrite at h
              split at h
              · exact hexec _ _ h
              · exact haccept _ _ _ h
            all_goals cases h
  have hon : ∀ f o, onNext f o = .refused r → o = .refused r := by
    intro f o h; cases o <;> cases h; rfl
  have hturn : ∀ u s, takeTurn u s ≠ .refused r := by
    intro u s h
    cases u with
    | host =>
      simp only [takeTurn, hostTurn] at h
      split at h
      · cases h
      · unfold hostOperation at h
        split at h
        · split at h
          · exact hbus _ _ h
          · cases h
        all_goals exact hbus _ _ (hon _ _ h)
    | engine =>
      simp only [takeTurn, engineStep, busyStep, brStep, hvStep, Sys2Proof.Machine.decodeStep] at h
      repeat' split at h
      all_goals cases h
    | push bs => cases h
    | reset b => cases h
  intro h
  unfold step nextEvent at h
  split at h
  · exact hturn _ _ h
  · exact hturn _ _ h

end Sys2Proof.Machine
end

