-- ==== Sys2Proof/Tests/Slice0.lean ====
section
/-! SUPPORT. Tests: expected results come from spec/ (30_encoding.md rules R73 to R85, 95_test_vectors.md). Then one
witness for the hypotheses of every statement that has some, each clause met at a boundary of its range. -/

namespace Sys2Proof.Tests

open Sys2Proof Sys2Proof.Machine

/-! ### Helpers -/

/-- A small FHE: ACC_SIZE = 16. -/
def cfg16 : Config := { accSize := 16, fheBase := 0 }

/-- Right after RESET, with RXQ. -/
def idle (q : List Byte) : State := State.resetWith cfg16 q

/-- With both operand registers. -/
def withArgs (a b : Word) (s : State) : State := { s with arg0 := a, arg1 := b }

/-- With both exchange budgets. -/
def withBudgets (i o : Word) (s : State) : State := { s with hvMaxwait := i, hvOutermax := o }

/-- With bytes written from ACC[0]. -/
def withAcc (bs : List Byte) (s : State) : State := { s with mem := s.mem.writeBytes accBase bs }

/-- With a schedule and a host program. -/
def withProgram (ts : List Turn) (p : List HostOp) (s : State) : State :=
  { s with env := { sched := ts, prog := p, vars := [], reply := none } }

/-- In DONE, after a FLUSH_RX. -/
def doneState : State := { idle [] with status.state := .done, status.op := 0x06 }

/-- In ERROR, after an illegal word. -/
def errorState : State := { idle [] with status.state := .error, status.err := .illegalCommand }

/-- A running READ_EXACT of 4 bytes with 2 polls, at sub-step `u` with read size `r`. -/
def reading (u : BrSub) (r : Word) (q : List Byte) : State :=
  { idle q with
    status.state := .busy, status.op := 0x02
    br := { n := 4, max := 2, len := 0, empty := 0, sub := u, r := r } }

/-- A running EXCHANGE_DEC of 5 with ack byte 1 in phase `p`, `k` empty polls so far. -/
def exchanging (p : Phase) (k : Word) (q : List Byte) : State :=
  { idle q with
    status.state := .busy, status.op := 0x03, status.phase := p
    hv := { ack := 1, value := 5, inner := k, outer := k, text := [0x35] } }

/-- A running DECODE of `len` bytes. -/
def decoding (len : Word) (bs : List Byte) : State :=
  withAcc bs { idle [] with status.state := .busy, status.op := 0x05, fp.dlen := len }

/-- The next state, if there is one. -/
def next? : Host.Outcome State Fault Refusal → Option State
  | .next s => some s
  | .fault _ => none
  | .refused _ => none

/-- STATUS of the next state. -/
def status? (o : Host.Outcome State Fault Refusal) : Option Word := (next? o).map (·.status.word)

/-! ### Encodings: words written out from rules R73, R75, R76 -/

theorem test_decode_soft_reset : decode 0b00000000000000000000000000000001#32 = .ok .softReset := by decide
theorem test_decode_read_exact : decode 0b00000000000000000000000000000010#32 = .ok .readExact := by decide
theorem test_decode_exchange_dec :
    decode 0b00000000000000001000000100000011#32 = .ok (.exchangeDec 0x81) := by decide
theorem test_decode_exchange_lit :
    decode 0b00000000010100110000001000000100#32 = .ok (.exchangeLit 0x02 0x53) := by decide
theorem test_decode_decode : decode 0b00000000000000000000000000000101#32 = .ok .decodeFrames := by decide
theorem test_decode_flush_rx : decode 0b00000000000000000000000000000110#32 = .ok .flushRx := by decide

/-- The illegal words of V3. -/
theorem test_decode_illegal :
    decode 0x00000000#32 = .error .reservedOpcode ∧ decode 0x00000007#32 = .error .reservedOpcode ∧
    decode 0x000000FF#32 = .error .reservedOpcode ∧ decode 0x01000002#32 = .error .rsvNonzero ∧
    decode 0x00000102#32 = .error .ackNonzero ∧ decode 0x00000101#32 = .error .ackNonzero ∧
    decode 0x00000106#32 = .error .ackNonzero ∧ decode 0x00010003#32 = .error .litNonzero ∧
    decode 0x00800204#32 = .error .litRange := by decide

/-- The encodings of rule R85. -/
theorem test_encode :
    encode (.exchangeDec 0x01) = 0x00000103#32 ∧ encode (.exchangeLit 0x02 0x53) = 0x00530204#32 ∧
    encode .flushRx = 0x00000006#32 := by decide

theorem test_decodeTableWord :
    decodeTableWord 32 0x00530204 = some (.exchangeLit 0x02 0x53) ∧ decodeTableWord 8 0x06 = some .flushRx ∧
    decodeTableWord 32 0x00800204 = none := by decide

/-! ### WellFormed smoke test: its one check refuses a literal above 0x7F (rule R76) -/

theorem test_wf_refuses_literal_0x80 : (Instr.exchangeLit 0x02 0x80).wf = false := by decide
theorem test_wf_takes_literal_0x7F : (Instr.exchangeLit 0x02 0x7F).wf = true := by decide

/-! ### One step on a placed word -/

/-- V3: STATUS after each word in IDLE with RXQ empty. -/
theorem test_step_words_of_V3 :
    [0x00000000, 0x00000007, 0x01000002, 0x00000101, 0x00010003, 0x00800204, 0x00000001, 0x00000006].map
      (fun w => status? (step (State.reset.withFetchWord 32 w))) =
    [some 0x00000013, some 0x07000013, some 0x02000013, some 0x01000013, some 0x03000013, some 0x04000013,
      some 0x00000000, some 0x06000002] := by decide

/-- Rule R92: SOFT_RESET leaves ERROR and keeps RXQ and ACC. -/
theorem test_soft_reset :
    next? (exec .softReset (withAcc [7] { errorState with arg0 := 9, rxq := [1] })) =
      some (withAcc [7] (idle [1])) := by decide

/-- V7. -/
theorem test_flush_rx :
    (next? (exec .flushRx (idle [0x00, 0x4F]))).map (fun t => (t.rxq, t.status.word)) =
      some ([], 0x06000002#32) := by decide

/-- V12: n = 0 is DONE at launch, n = 1 with m = 0 is ERROR at launch. -/
theorem test_read_exact_launch_edges :
    status? (exec .readExact (withArgs 0 5 (idle []))) = some 0x02000002#32 ∧
    status? (exec .readExact (withArgs 1 0 (idle []))) = some 0x02000043#32 := by decide

/-- V9's second event: BR_R was fixed at 1 by the QUERY, so one byte of three is taken. -/
theorem test_read_takes_what_the_query_fixed :
    (next? (engineStep (reading .read 1 [1, 2, 3]))).map (fun t => (t.rxq, t.mem, t.br.len, t.status.word)) =
      some ([2, 3], [(0x10000, 1)], 1, 0x02000001#32) := by decide

/-- V15's launch. -/
theorem test_exchange_dec_launch :
    (next? (exec (.exchangeDec 0x01) (withArgs 80 0 (idle [])))).map (fun t => (t.txh, t.hv.text, t.status.word)) =
      some ([0x01], [0x38, 0x30], 0x03000001#32) := by decide

/-- V16: a wrong echo. -/
theorem test_echo_mismatch :
    (next? (engineStep { exchanging .echo 0 [2] with txh := [1] })).map (fun t => (t.txh, t.status.word)) =
      some ([1], 0x03020023#32) := by decide

/-- V19b's launch. -/
theorem test_exchange_lit_launch :
    (next? (exec (.exchangeLit 0x02 0x53) (idle []))).map (fun t => (t.txh, t.hv.text, t.hv.value, t.status.word)) =
      some ([0x02], [0x53], 0x53#32, 0x04000001#32) := by decide

/-- V19b's last step: 'O' in the execution phase. -/
theorem test_execution_acknowledged :
    status? (engineStep (exchanging .execution 0 [0x4F])) = some 0x03000402#32 := by decide

/-- V21: two frames across a timestamp wrap; SAMPLE[1].REL_TS = 0xFFFFFFFF00000011. -/
theorem test_decode_wrap :
    (next? (engineStep (decoding 16
      [0xFF, 0xFF, 0xFF, 0xFF, 0, 0, 0, 0, 0x10, 0, 0, 0, 0, 0, 0, 0]))).map
        (fun t => (t.fp.count, t.fp.ts0, t.mem.readWord 0x1000028, t.mem.readWord 0x100002C)) =
      some (2, 0xFFFFFFFF, some 0x00000011, some 0xFFFFFFFF) := by decide

/-- V22: 7 bytes hold no frame. -/
theorem test_decode_partial :
    (next? (engineStep (decoding 7 []))).map (fun t => (t.fp.count, t.fp.rem, t.fp.ts0, t.status.word)) =
      some (0, 7, 0, 0x05000102#32) := by decide

/-! ### Arithmetic -/

/-- Rule R86: `wait` in DONE loads STATUS into `s` and goes on. -/
theorem test_wait_loads_s :
    (next? (step (withProgram [] [.wait, .check] doneState))).map (fun t => (t.env.vars, t.env.prog)) =
      some ([(statusVar, 0x06000002#32)], [.check]) := by decide

/-- Rows of V24: CAP_Q and the bits of CAP_F64. -/
theorem test_capacitance_rows :
    [(0xFFF80000#32, 0#5), (0xFFFFFFFF, 0), (0xFFFFFFE5, 0), (0x00004000, 0), (0x0000C000, 0), (0x7FFFFFFF, 31),
      (0x80000000, 31)].map (fun x => let n := capN x.1 x.2; (capQ n, capF64 n (capQ n))) =
    [(-10000, 0xBFF0000000000000#64), (0, 0x8000000000000000), (-1, 0xBF1A36E2EB1C432D), (312, 0x3F9FF2E48E8A71DE),
      (938, 0x3FB80346DC5D6388), (41928750, 0x40B060E000000000), (-39991250, 0xC0AF3E4000000000)] := by decide

/-- V14. -/
theorem test_decimal_text :
    decText 0 = [0x30] ∧ decText 640 = [0x36, 0x34, 0x30] ∧
    decText 4294967295 = [0x34, 0x32, 0x39, 0x34, 0x39, 0x36, 0x37, 0x32, 0x39, 0x35] := by decide

/-- V1. -/
theorem test_capdac_clamp :
    [0x00000002#32, 0x0000001F, 0x00000020, 0x7FFFFFFF, 0xFFFFFFFF, 0x80000000].map capdacClamp =
      [2, 31, 31, 31, 0, 0] := by decide

/-! ### Legal states for the witnesses -/

/-- Nothing is written, so memory is legal. -/
theorem memoryInv_of_empty {s : State} (h : s.mem = []) : s.MemoryInv where
  canonical := by rw [h]; exact .nil
  inside a ha := by simp [h, Memory.read, cellGet] at ha
  wholeEntries j k _ := by simp [h, Memory.read, cellGet]
  reservedZero j k b _ _ hb := by simp [h, Memory.read, cellGet] at hb

/-- A state outside BUSY and ERROR whose readers are at rest is legal. -/
theorem idle_control (a b : Word) (q : List Byte) (m : Memory) :
    ({ withArgs a b (idle q) with mem := m } : State).ControlInv := by
  constructor <;> simp [withArgs, idle, State.resetWith, cfg16, Config.wf, Status.reset, BoundedReader.reset,
    State.isBusy, State.inReadExact, State.inExchange, State.inDecode]

theorem reading_control (u : BrSub) (r : Word) (q : List Byte) (h : 1 ≤ r.toNat ∧ r.toNat ≤ 4) :
    (reading u r q).ControlInv := by
  constructor <;> simp [reading, idle, State.resetWith, cfg16, Config.wf, Status.reset,
    State.isBusy, State.inReadExact, State.inExchange, State.inDecode, h]

theorem exchanging_control (p : Phase) (k : Word) (q : List Byte) (h : k < 20) : (exchanging p k q).ControlInv := by
  have h' : k < 40 := by bv_omega
  constructor <;> simp [exchanging, idle, State.resetWith, cfg16, Config.wf, Status.reset, BoundedReader.reset,
    State.isBusy, State.inReadExact, State.inExchange, State.inDecode, hvMaxwaitReset, hvOutermaxReset]
  exact ⟨h, h'⟩

theorem decoding_control (len : Word) (bs : List Byte) (h : len.toNat ≤ 16) : (decoding len bs).ControlInv := by
  constructor <;> simp [decoding, withAcc, idle, State.resetWith, cfg16, Config.wf, Status.reset, BoundedReader.reset,
    State.isBusy, State.inReadExact, State.inExchange, State.inDecode, h]

/-! ### Witnesses, one per statement with hypotheses -/

/-- Each clause of the illegal words at a boundary, and a state that accepts. -/
theorem witness_IllegalWordsRaiseIllegalCommand :
    (idle []).accepts ∧ doneState.accepts ∧ (∃ e, decode 0x00000000 = .error e) ∧ (∃ e, decode 0x00000007 = .error e) ∧
    (∃ e, decode 0x01000001 = .error e) ∧ (∃ e, decode 0x00000106 = .error e) ∧ (∃ e, decode 0x00010003 = .error e) ∧
    (∃ e, decode 0x00800004 = .error e) :=
  ⟨.inl rfl, .inr rfl, ⟨_, rfl⟩, ⟨_, rfl⟩, ⟨_, rfl⟩, ⟨_, rfl⟩, ⟨_, rfl⟩, ⟨_, rfl⟩⟩

theorem witness_CmdWriteIsHandledByState :
    (reading .query 1 []).isBusy ∧ errorState.status.state = .error ∧ (idle []).accepts ∧ doneState.accepts :=
  ⟨rfl, rfl, .inl rfl, .inr rfl⟩

theorem witness_SoftResetRestoresTheResetValues : ¬ errorState.isBusy ∧ (reading .query 1 []).isBusy :=
  ⟨by simp [State.isBusy, errorState], rfl⟩

theorem witness_FlushRxEmptiesTheFifo :
    (idle [1]).accepts ∧ opcField 0x00000106 = 0x06 ∧ (0x00000106 : Word) ≠ 0x00000006 :=
  ⟨.inl rfl, by decide, by decide⟩

theorem witness_StepRunsTheDecodedCommand :
    decode 0x00000103 = .ok (.exchangeDec 0x01) ∧
    (∃ s : State, s.resetPin = false ∧ s.env.sched = .host :: [.engine] ∧
      s.env.prog = .write (s.cfg.addr 0x000) .b4 (.imm 0x00000103) :: [.wait]) ∧
    canLaunch (idle []) = true :=
  ⟨rfl, ⟨withProgram [.host, .engine] [.write (cfg16.addr 0x000) .b4 (.imm 0x00000103), .wait] (idle []), rfl, rfl, rfl⟩, by decide⟩

theorem witness_StepTakesTheNextTurn :
    (∃ s : State, s.env.sched = Turn.push [1] :: []) ∧
    ((reading .query 1 []).env.sched = [] ∧ (reading .query 1 []).isBusy ∧ (reading .query 1 []).resetPin = false) ∧
    ((idle []).env.sched = [] ∧ ¬ (idle []).isBusy) :=
  ⟨⟨{ idle [] with env.sched := [.push [1]] }, rfl⟩, ⟨rfl, rfl, rfl⟩, rfl,
    by simp [State.isBusy, idle, State.resetWith, Status.reset]⟩

/-- Both outcomes: an exchange steps, a DECODE of an unwritten byte stops. -/
theorem witness_BusyEngineAlwaysSteps :
    ((exchanging .echo 19 []).Inv ∧ (exchanging .echo 19 []).isBusy) ∧
    (decoding 8 []).Inv ∧ (decoding 8 []).isBusy :=
  ⟨⟨⟨exchanging_control _ _ _ (by decide), memoryInv_of_empty rfl⟩, rfl⟩,
    ⟨decoding_control _ _ (by decide), memoryInv_of_empty rfl⟩, rfl⟩

/-- ARG0 one above ACC_SIZE and equal to it; n = 0; m = 0; neither. -/
theorem witness_ReadExactLaunchLatchesItsOperands :
    ((withArgs 17 1 (idle [])).accepts ∧ cfg16.accSize < (17 : Word).toNat) ∧
    ((withArgs 16 1 (idle [])).accepts ∧ (16 : Word).toNat ≤ cfg16.accSize ∧ (16 : Word) ≠ 0 ∧ (1 : Word) ≠ 0) ∧
    ((withArgs 0 0 (idle [])).accepts ∧ (withArgs 0 0 (idle [])).arg0 = 0) ∧
    ((withArgs 1 0 (idle [])).accepts ∧ (withArgs 1 0 (idle [])).arg0 ≠ 0 ∧ (withArgs 1 0 (idle [])).arg1 = 0) :=
  ⟨⟨.inl rfl, by decide⟩, ⟨.inl rfl, by decide, by decide, by decide⟩, ⟨.inl rfl, rfl⟩, .inl rfl, by decide, rfl⟩

theorem witness_QueryStepFixesTheReadSize :
    (reading .query 1 [5, 6]).inReadExact ∧ (reading .query 1 [5, 6]).br.sub = .query := ⟨⟨rfl, rfl⟩, rfl⟩

/-- The three clauses: the last bytes arrive; the last poll is empty; neither. -/
theorem witness_ReadStepAppendsWhatItTook :
    (∃ s t : State, s.ControlInv ∧ s.inReadExact ∧ s.br.sub = .read ∧ engineStep s = .next t ∧ t.br.len = t.br.n) ∧
    (∃ s t : State, s.ControlInv ∧ s.inReadExact ∧ s.br.sub = .read ∧ engineStep s = .next t ∧
      t.br.len ≠ t.br.n ∧ t.br.empty < t.br.max) ∧
    (∃ s t : State, s.ControlInv ∧ s.inReadExact ∧ s.br.sub = .read ∧ engineStep s = .next t ∧
      t.br.len ≠ t.br.n ∧ t.br.max ≤ t.br.empty) := by
  refine ⟨⟨reading .read 4 [1, 2, 3, 4], _, reading_control _ _ _ (by decide), ⟨rfl, rfl⟩, rfl, rfl, by decide⟩,
    ⟨reading .read 1 [], _, reading_control _ _ _ (by decide), ⟨rfl, rfl⟩, rfl, rfl, by decide, by decide⟩,
    ⟨{ reading .read 1 [] with br := { n := 4, max := 1, len := 0, empty := 0, sub := .read, r := 1 } }, _, ?_,
      ⟨rfl, rfl⟩, rfl, rfl, by decide, by decide⟩⟩
  constructor <;> simp [reading, idle, State.resetWith, cfg16, Config.wf, Status.reset,
    State.isBusy, State.inReadExact, State.inExchange, State.inDecode]

/-- One byte, one poll, so 4 engine turns. -/
theorem witness_ReadExactEndsWithinItsBound :
    ∃ t, (withArgs 1 1 (idle [])).accepts ∧ (withArgs 1 1 (idle [])).resetPin = false ∧
      (withArgs 1 1 (idle [])).arg0.toNat ≤ (withArgs 1 1 (idle [])).cfg.accSize ∧
      exec .readExact (withArgs 1 1 (idle [])) = .next t ∧
      2 * ((withArgs 1 1 (idle [])).arg0.toNat + (withArgs 1 1 (idle [])).arg1.toNat) ≤
        ([[], [7], [], []] : List (List Byte)).length :=
  ⟨_, .inl rfl, rfl, by decide, rfl, by decide⟩

theorem witness_ReadExactCollectsTheStreamInOrder :
    ∃ t u, (withArgs 2 1 (idle [9])).accepts ∧ (withArgs 2 1 (idle [9])).resetPin = false ∧
      (withArgs 2 1 (idle [9])).arg0.toNat ≤ (withArgs 2 1 (idle [9])).cfg.accSize ∧
      exec .readExact (withArgs 2 1 (idle [9])) = .next t ∧ deviceRun [[], [8]] t = .next u :=
  ⟨_, _, .inl rfl, rfl, by decide, rfl, rfl⟩

/-- Both clauses: one turn before the budget is spent, and the turn that spends it. -/
theorem witness_SilentDeviceTimesOutAfterExactlyTheBudget :
    (∃ t, (withArgs 1 1 (idle [])).accepts ∧ (withArgs 1 1 (idle [])).resetPin = false ∧
      (withArgs 1 1 (idle [])).arg0 ≠ 0 ∧ (withArgs 1 1 (idle [])).arg0.toNat ≤ (withArgs 1 1 (idle [])).cfg.accSize ∧
      (withArgs 1 1 (idle [])).rxq = [] ∧ exec .readExact (withArgs 1 1 (idle [])) = .next t) ∧
    1 < 2 * (withArgs 1 1 (idle [])).arg1.toNat ∧ 2 * (withArgs 1 1 (idle [])).arg1.toNat ≤ 2 :=
  ⟨⟨_, .inl rfl, rfl, by decide, by decide, rfl, rfl⟩, by decide, by decide⟩

theorem witness_EmptyPollCounterNeverFalls :
    ∃ t, (reading .read 1 []).ControlInv ∧ (reading .read 1 []).inReadExact ∧
      (reading .read 1 []).resetPin = false ∧ step (reading .read 1 []) = .next t :=
  ⟨_, reading_control _ _ _ (by decide), ⟨rfl, rfl⟩, rfl, rfl⟩

/-- Both forms, the literal at its largest; a budget of 0 and budgets of 1. -/
theorem witness_ExchangeLaunchSendsTheAckByte :
    ((idle []).accepts ∧ ((idle []).hvMaxwait ≠ 0 ∧ (idle []).hvOutermax ≠ 0)) ∧
    ((withBudgets 0 1 (idle [])).accepts ∧ (withBudgets 0 1 (idle [])).hvMaxwait = 0) ∧
    ((withBudgets 1 0 (idle [])).accepts ∧ (withBudgets 1 0 (idle [])).hvOutermax = 0) ∧
    (∃ c : Byte, c ≤ 0x7F ∧ Instr.exchangeLit 0x02 0x7F = .exchangeLit 0x02 c) :=
  ⟨⟨.inl rfl, by decide, by decide⟩, ⟨.inl rfl, rfl⟩, ⟨.inl rfl, rfl⟩, 0x7F, by decide, rfl⟩

theorem witness_DecimalTextIsTheNumeral : (1 : Word) ≠ 0 := by decide

theorem witness_EchoAcceptedSendsTheText :
    (exchanging .echo 19 [1, 2]).inExchange ∧ (exchanging .echo 19 [1, 2]).status.phase = .echo ∧
    (exchanging .echo 19 [1, 2]).rxq = (exchanging .echo 19 [1, 2]).hv.ack :: [2] :=
  ⟨⟨rfl, .inl rfl⟩, rfl, rfl⟩

theorem witness_ExecutionAcknowledgmentEndsTheExchange :
    (exchanging .execution 0 [0x4F]).inExchange ∧ (exchanging .execution 0 [0x4F]).status.phase = .execution ∧
    (exchanging .execution 0 [0x4F]).rxq = 0x4F :: [] :=
  ⟨⟨rfl, .inl rfl⟩, rfl, rfl⟩

/-- Both phases: 'O' is wrong in the echo phase, the ack byte in the execution phase. -/
theorem witness_MismatchSendsNothingMore :
    ((exchanging .echo 0 [0x4F]).inExchange ∧ (exchanging .echo 0 [0x4F]).rxq = 0x4F :: [] ∧
      (0x4F : Byte) ≠ (exchanging .echo 0 [0x4F]).hv.ack) ∧
    (exchanging .execution 0 [1]).inExchange ∧ (exchanging .execution 0 [1]).rxq = 1 :: [] ∧ (1 : Byte) ≠ 0x4F :=
  ⟨⟨⟨rfl, .inl rfl⟩, rfl, by decide⟩, ⟨rfl, .inl rfl⟩, rfl, by decide⟩

/-- Both clauses at their boundary: with HV_MAXWAIT = 20, after 18 and after 19 empty polls. -/
theorem witness_EmptyPollCountsAgainstBothBudgets :
    ((exchanging .echo 18 []).ControlInv ∧ (exchanging .echo 18 []).inExchange ∧ (exchanging .echo 18 []).rxq = [] ∧
      (exchanging .echo 18 []).hv.inner.toNat + 1 < (exchanging .echo 18 []).hvMaxwait.toNat ∧
      (exchanging .echo 18 []).hv.outer.toNat + 1 < (exchanging .echo 18 []).hvOutermax.toNat) ∧
    ((exchanging .echo 19 []).ControlInv ∧ (exchanging .echo 19 []).inExchange ∧ (exchanging .echo 19 []).rxq = [] ∧
      (exchanging .echo 19 []).hvMaxwait.toNat ≤ (exchanging .echo 19 []).hv.inner.toNat + 1) :=
  ⟨⟨exchanging_control _ _ _ (by decide), ⟨rfl, .inl rfl⟩, rfl, by decide, by decide⟩,
    exchanging_control _ _ _ (by decide), ⟨rfl, .inl rfl⟩, rfl, by decide⟩

theorem witness_OneBytePerPoll :
    ∃ t, (exchanging .echo 0 [1, 0x4F]).inExchange ∧ engineStep (exchanging .echo 0 [1, 0x4F]) = .next t :=
  ⟨_, ⟨rfl, .inl rfl⟩, rfl⟩

/-- HV_MAXWAIT = HV_OUTERMAX = 1: 3 engine turns. -/
theorem witness_ExchangeEndsWithinItsBound :
    ∃ t, (withBudgets 1 1 (idle [])).accepts ∧ (withBudgets 1 1 (idle [])).resetPin = false ∧
      IsExchange (.exchangeDec 1) 1 (decText 0) (withBudgets 1 1 (idle [])) ∧
      exec (.exchangeDec 1) (withBudgets 1 1 (idle [])) = .next t ∧
      min (2 * (withBudgets 1 1 (idle [])).hvMaxwait.toNat) (withBudgets 1 1 (idle [])).hvOutermax.toNat + 2 ≤
        ([[1], [], []] : List (List Byte)).length :=
  ⟨_, .inl rfl, rfl, .inl ⟨rfl, rfl⟩, rfl, by decide⟩

/-- Both clauses: a DONE exchange and one in ERROR in the echo phase. -/
theorem witness_DoneExchangeSawEchoThenO :
    (idle []).accepts ∧ (idle []).resetPin = false ∧ IsExchange (.exchangeDec 1) 1 (decText 0) (idle []) ∧
    (∃ t u, exec (.exchangeDec 1) (idle []) = .next t ∧ deviceRun [[1], [0x4F]] t = .next u ∧
      u.status.state = .done) ∧
    (∃ t u, exec (.exchangeDec 1) (idle []) = .next t ∧ deviceRun [[2]] t = .next u ∧
      u.status.state = .error ∧ u.status.phase = .echo) :=
  ⟨.inl rfl, rfl, .inl ⟨rfl, rfl⟩, ⟨_, _, rfl, rfl, by decide⟩, _, _, rfl, rfl, by decide, by decide⟩

/-- Equal budgets of 2: BUSY after 1 empty poll, timed out after 2. -/
theorem witness_MissingEchoTimesOutAfterMaxWaitPolls :
    ∃ t, (withBudgets 2 2 (idle [])).accepts ∧ (withBudgets 2 2 (idle [])).resetPin = false ∧
      IsExchange (.exchangeLit 1 0x7F) 1 [0x7F] (withBudgets 2 2 (idle [])) ∧ (withBudgets 2 2 (idle [])).rxq = [] ∧
      exec (.exchangeLit 1 0x7F) (withBudgets 2 2 (idle [])) = .next t ∧
      (withBudgets 2 2 (idle [])).hvMaxwait ≤ (withBudgets 2 2 (idle [])).hvOutermax ∧
      1 < (withBudgets 2 2 (idle [])).hvMaxwait.toNat ∧ (withBudgets 2 2 (idle [])).hvMaxwait.toNat ≤ 2 :=
  ⟨_, .inl rfl, rfl, .inr ⟨0x7F, by decide, rfl, rfl⟩, rfl, rfl, by decide, by decide, by decide⟩

/-- The smallest outer budget that never decides: 2 * 2 - 1 = 3. -/
theorem witness_LargeOuterBudgetNeverDecides :
    ∃ t t', (withBudgets 2 3 (idle [])).accepts ∧ (withBudgets 2 3 (idle [])).resetPin = false ∧
      IsExchange (.exchangeDec 1) 1 (decText 0) (withBudgets 2 3 (idle [])) ∧
      1 ≤ (withBudgets 2 3 (idle [])).hvMaxwait.toNat ∧
      2 * (withBudgets 2 3 (idle [])).hvMaxwait.toNat ≤ (withBudgets 2 3 (idle [])).hvOutermax.toNat + 1 ∧
      exec (.exchangeDec 1) (withBudgets 2 3 (idle [])) = .next t ∧
      exec (.exchangeDec 1) { withBudgets 2 3 (idle []) with hvOutermax := 0xFFFFFFFF } = .next t' :=
  ⟨_, _, .inl rfl, rfl, .inl ⟨rfl, rfl⟩, by decide, by decide, rfl, rfl⟩

/-- ARG0 one above ACC_SIZE and equal to it. -/
theorem witness_DecodeLaunchLatchesItsOperands :
    ((withArgs 17 0 (idle [])).accepts ∧ (withArgs 17 0 (idle [])).cfg.accSize < (withArgs 17 0 (idle [])).arg0.toNat) ∧
    (withArgs 16 0 (idle [])).accepts ∧ (withArgs 16 0 (idle [])).arg0.toNat ≤ (withArgs 16 0 (idle [])).cfg.accSize :=
  ⟨⟨.inl rfl, by decide⟩, .inl rfl, by decide⟩

/-- No whole frame, and one frame with 3 trailing bytes. -/
theorem witness_DecodeStepWritesEverySample :
    ((decoding 7 []).ControlInv ∧ (decoding 7 []).inDecode ∧
      ∀ i, i < 8 * ((decoding 7 []).fp.dlen.toNat / 8) → ((decoding 7 []).mem.read (accBase + i)).isSome) ∧
    (decoding 11 [1, 2, 3, 4, 5, 6, 7, 8]).ControlInv ∧ (decoding 11 [1, 2, 3, 4, 5, 6, 7, 8]).inDecode ∧
      ∀ i, i < 8 * ((decoding 11 [1, 2, 3, 4, 5, 6, 7, 8]).fp.dlen.toNat / 8) →
        ((decoding 11 [1, 2, 3, 4, 5, 6, 7, 8]).mem.read (accBase + i)).isSome :=
  ⟨⟨decoding_control _ _ (by decide), ⟨rfl, rfl⟩, by decide⟩, decoding_control _ _ (by decide), ⟨rfl, rfl⟩, by decide⟩

/-- Both sides: with every byte written but the last, and with all written. -/
theorem witness_DecodeFaultsExactlyOnUnwrittenBytes :
    (decoding 8 [1, 2, 3, 4, 5, 6, 7]).inDecode ∧ (decoding 8 [1, 2, 3, 4, 5, 6, 7]).mem.read (accBase + 7) = none ∧
    (decoding 8 [1, 2, 3, 4, 5, 6, 7, 8]).inDecode ∧ next? (engineStep (decoding 8 [1, 2, 3, 4, 5, 6, 7, 8])) ≠ none :=
  ⟨⟨rfl, rfl⟩, by decide, ⟨rfl, rfl⟩, by decide⟩

/-- A tie (V25: N = 16384). -/
theorem witness_CapQIsTheNearestTenThousandth : 2 * |capQ 16384 * 2 ^ 15 - 16384 * 625| = 2 ^ 15 := by decide

/-- Both clauses, the zero with either sign of N. -/
theorem witness_CapF64IsTheNearestBinary64 :
    capQ (capN 27 0) ≠ 0 ∧ (capQ (capN 0xFFFFFFFF 0) = 0 ∧ capN 0xFFFFFFFF 0 < 0) ∧
    (capQ (capN 26 0) = 0 ∧ ¬ capN 26 0 < 0) := by decide

theorem witness_EncodedFrameDecodesToItself :
    (withAcc (leBytes 4 (1000 : Word) ++ leBytes 4 (0xFFF80000 : Word)) (withArgs 8 0 (idle []))).ControlInv ∧
    (withAcc (leBytes 4 (1000 : Word) ++ leBytes 4 (0xFFF80000 : Word)) (withArgs 8 0 (idle []))).accepts ∧
    (withAcc (leBytes 4 (1000 : Word) ++ leBytes 4 (0xFFF80000 : Word)) (withArgs 8 0 (idle []))).arg0 = 8 ∧
    (withAcc (leBytes 4 (1000 : Word) ++ leBytes 4 (0xFFF80000 : Word)) (withArgs 8 0 (idle []))).mem.readBytes
      accBase 8 = some (leBytes 4 (1000 : Word) ++ leBytes 4 (0xFFF80000 : Word)) :=
  ⟨idle_control _ _ _ _, .inl rfl, rfl, by decide⟩

/-- Two running DECODEs that differ elsewhere. -/
theorem witness_DecodeDependsOnItsInputsAlone :
    ∃ t, (decoding 8 [1, 2, 3, 4, 5, 6, 7, 8]).ControlInv ∧ (decoding 8 [1, 2, 3, 4, 5, 6, 7, 8, 9]).ControlInv ∧
      (decoding 8 [1, 2, 3, 4, 5, 6, 7, 8]).inDecode ∧ (decoding 8 [1, 2, 3, 4, 5, 6, 7, 8, 9]).inDecode ∧
      (decoding 8 [1, 2, 3, 4, 5, 6, 7, 8]).fp.dlen = (decoding 8 [1, 2, 3, 4, 5, 6, 7, 8, 9]).fp.dlen ∧
      (decoding 8 [1, 2, 3, 4, 5, 6, 7, 8]).fp.dc = (decoding 8 [1, 2, 3, 4, 5, 6, 7, 8, 9]).fp.dc ∧
      (∀ i, i < 8 * ((decoding 8 [1, 2, 3, 4, 5, 6, 7, 8]).fp.dlen.toNat / 8) →
        (decoding 8 [1, 2, 3, 4, 5, 6, 7, 8]).mem.read (accBase + i) =
          (decoding 8 [1, 2, 3, 4, 5, 6, 7, 8, 9]).mem.read (accBase + i)) ∧
      engineStep (decoding 8 [1, 2, 3, 4, 5, 6, 7, 8]) = .next t :=
  ⟨_, decoding_control _ _ (by decide), decoding_control _ _ (by decide), ⟨rfl, rfl⟩, ⟨rfl, rfl⟩, rfl, rfl, by decide,
    rfl⟩

theorem witness_CapdacWriteClamps : (idle []).resetPin = false ∧ ¬ (idle []).isBusy :=
  ⟨rfl, by simp [State.isBusy, idle, State.resetWith, Status.reset]⟩

/-- The first and the last of the four registers. -/
theorem witness_OperandRegistersReadBack :
    doneState.resetPin = false ∧ ¬ doneState.isBusy ∧
    (Reg.arg0, 0x008#28) ∈ [(Reg.arg0, 0x008#28), (.arg1, 0x00C#28), (.hvMaxwait, 0x014#28), (.hvOutermax, 0x018#28)] ∧
    (Reg.hvOutermax, 0x018#28) ∈
      [(Reg.arg0, 0x008#28), (.arg1, 0x00C#28), (.hvMaxwait, 0x014#28), (.hvOutermax, 0x018#28)] :=
  ⟨rfl, by simp [State.isBusy, doneState], by decide, by decide⟩

/-- Accepted and refused accesses at the edges of the map (ACC_SIZE = 16, MAX_SAMPLES = 2). -/
theorem witness_BusErrorsChangeNothing :
    cfg16.wf = true ∧ (idle []).resetPin = false ∧ windowOffset cfg16 0x0FFFFFFF = some 0xFFFFFFF ∧
    busTarget cfg16 0x048 .b4 = some (.reg .fpTs0) ∧ busTarget cfg16 0x04C .b4 = none ∧
    busTarget cfg16 0x1000F .b1 = some (.accByte 15) ∧ busTarget cfg16 0x10010 .b1 = none ∧
    busTarget cfg16 0x1000C .b4 = some (.accWord 12) ∧ busTarget cfg16 0x10002 .b4 = none ∧
    busTarget cfg16 0x100003C .b4 = some (.sampleWord 60) ∧ busTarget cfg16 0x1000040 .b4 = none ∧
    busTarget cfg16 0x10000 .b2 = none ∧ busTarget cfg16 0x004 .b1 = none := by decide

/-- The last clause: an accepted access that has a next state. -/
theorem witness_BusErrorsChangeNothing_accepted :
    ∃ t, windowOffset cfg16 0x00000048 = some 0x48 ∧ busTarget cfg16 0x48 .b4 = some (.reg .fpTs0) ∧
      busAccess (.read 0x00000048 .b4) (idle []) = .next t :=
  ⟨_, by decide, by decide, rfl⟩

/-- Every kind of target while BUSY; a read-only register and SAMPLE are ignored outside BUSY too. -/
theorem witness_WritesWhileBusyAreDropped :
    (reading .query 1 []).isBusy ∧ (reading .query 1 []).resetPin = false ∧
    busTarget cfg16 (0x000#28).toNat .b4 = some (.reg .cmd) ∧ busTarget cfg16 (0x018#28).toNat .b4 = some (.reg .hvOutermax) ∧
    busTarget cfg16 (0x01C#28).toNat .b4 = some (.reg .brN) ∧ busTarget cfg16 (0x1000F#28).toNat .b1 = some (.accByte 15) ∧
    busTarget cfg16 (0x10000#28).toNat .b4 = some (.accWord 0) ∧
    busTarget cfg16 (0x1000000#28).toNat .b4 = some (.sampleWord 0) :=
  ⟨rfl, rfl, by decide, by decide, by decide, by decide, by decide, by decide⟩

/-- Read-only registers at both ends, and the last word of SAMPLE, outside BUSY. -/
theorem witness_WritesWhileBusyAreDropped_ignored :
    (idle []).resetPin = false ∧ busTarget cfg16 (0x004#28).toNat .b4 = some (.reg .status) ∧
    busTarget cfg16 (0x048#28).toNat .b4 = some (.reg .fpTs0) ∧
    Reg.status ∉ [Reg.cmd, .arg0, .arg1, .capdac, .hvMaxwait, .hvOutermax] ∧
    Reg.fpTs0 ∉ [Reg.cmd, .arg0, .arg1, .capdac, .hvMaxwait, .hvOutermax] ∧
    busTarget cfg16 (0x100003C#28).toNat .b4 = some (.sampleWord 60) := by decide

theorem witness_HostReadsHaveNoSideEffect : ∃ t, busAccess (.read 0x00000014 .b4) (idle []) = .next t := ⟨_, rfl⟩

theorem witness_StatusReadsAreExact :
    (reading .query 1 []).resetPin = false ∧ (reading .query 1 []).isBusy ∧
    busTarget cfg16 (0x000#28).toNat .b4 = some (.reg .cmd) ∧ Target.reg .cmd ≠ .reg .status ∧
    busTarget cfg16 (0x1000F#28).toNat .b1 = some (.accByte 15) ∧ Target.accByte 15 ≠ .reg .status :=
  ⟨rfl, rfl, by decide, by decide, by decide, by decide⟩

/-- The first and the last register of the map: CMD reads 0, FP_TS0 its field. -/
theorem witness_RegistersReadAtTheirOffsets :
    (idle []).resetPin = false ∧ ¬ (idle []).isBusy ∧
    (∃ (r : Reg) (v : Word), [(Reg.cmd, (0 : Word)), (.status, (idle []).status.word)][0]? = some (r, v)) ∧
    regAt (4 * 18) = some .fpTs0 :=
  ⟨rfl, by simp [State.isBusy, idle, State.resetWith, Status.reset], ⟨_, _, rfl⟩, rfl⟩

/-- The last word of ACC. -/
theorem witness_AccWordsAreLittleEndian :
    (idle []).cfg.wf = true ∧ (idle []).resetPin = false ∧ ¬ (idle []).isBusy ∧ 12 < (idle []).cfg.accSize ∧ 12 % 4 = 0 :=
  ⟨by decide, rfl, by simp [State.isBusy, idle, State.resetWith, Status.reset], by decide, rfl⟩

/-- The last byte of ACC, not written. -/
theorem witness_AccBytesReadBackOnceWritten :
    (idle []).cfg.wf = true ∧ (idle []).resetPin = false ∧ ¬ (idle []).isBusy ∧ 15 < (idle []).cfg.accSize ∧
    (idle []).mem.read (accBase + 15) = none :=
  ⟨by decide, rfl, by simp [State.isBusy, idle, State.resetWith, Status.reset], by decide, rfl⟩

/-- The last word of the last entry written, and an entry never written. -/
theorem witness_SampleWindowReadsItsEntries :
    ∃ s : State, s.cfg.wf = true ∧ s.resetPin = false ∧ ¬ s.isBusy ∧ 1 < s.cfg.maxSamples ∧
      s.mem.readWord (sampleBase + 32 * 1 + 4 * 7) = some 0 ∧
      (∀ k, k < 32 → s.mem.read (sampleBase + 32 * 0 + k) = none) :=
  ⟨{ idle [] with mem := writeSamples [] 1 [sampleOf 1000 0 (1000, 0)] }, by decide, rfl,
    by simp [State.isBusy, idle, State.resetWith, Status.reset], by decide, by decide, by decide⟩

/-- Both outcomes: the state stays in ERROR, and SOFT_RESET leaves it. -/
theorem witness_ErrorIsLeftOnlyByReset :
    errorState.status.state = .error ∧ (∃ t, step errorState = .next t) ∧
    ∃ t, step (withProgram [.host] [.write (cfg16.addr 0x000) .b4 (.imm 0x00000001)] errorState) = .next t ∧ t.status = Status.reset :=
  ⟨rfl, ⟨_, rfl⟩, _, rfl, by decide⟩

theorem witness_HostCannotDisturbARunningCommand :
    ∃ s t : State, s.isBusy ∧ s.resetPin = false ∧ takeTurn .host s = .next t ∧ t.status.ovr = true :=
  ⟨withProgram [] [.write (cfg16.addr 0x008) .b4 (.imm 99)] (reading .query 1 []), _, rfl, rfl, rfl, by decide⟩

/-- One turn of each kind. -/
theorem witness_OnlyTheEngineTakesFromTheFifo :
    (∃ t, takeTurn (.push [1]) (idle []) = .next t) ∧ (∃ t, takeTurn .engine (exchanging .echo 0 [1]) = .next t) ∧
    (∃ t, takeTurn .host (idle [1]) = .next t) ∧ ∃ t, takeTurn (.reset true) (idle [1]) = .next t :=
  ⟨⟨_, rfl⟩, ⟨_, rfl⟩, ⟨_, rfl⟩, _, rfl⟩

theorem witness_TxCountCountsTheBytesSent :
    ∃ t, step (exchanging .echo 0 [1]) = .next t ∧ t.txh = [0x35] ∧ t.txCount = 1 := ⟨_, rfl, by decide, by decide⟩

theorem witness_ResetPinRestoresTheResetValues : ∃ s : State, s.resetPin = true ∧ s.isBusy :=
  ⟨{ reading .query 1 [] with resetPin := true }, rfl, rfl⟩

/-- The smallest and the largest ACC_SIZE. -/
theorem witness_ResetMeetsTheInvariant :
    ({ accSize := 8, fheBase := 0xF } : Config).wf = true ∧ ({ accSize := 0x00FF0000, fheBase := 0 } : Config).wf = true := by
  decide

theorem witness_StepKeepsTheControlInvariant :
    ∃ t, (exchanging .echo 19 []).ControlInv ∧ step (exchanging .echo 19 []) = .next t :=
  ⟨_, exchanging_control _ _ _ (by decide), rfl⟩

theorem witness_StepKeepsTheInvariant :
    ∃ t, (reading .read 4 [1, 2, 3, 4]).Inv ∧ step (reading .read 4 [1, 2, 3, 4]) = .next t :=
  ⟨_, ⟨reading_control _ _ _ (by decide), memoryInv_of_empty rfl⟩, rfl⟩

/-- All three model faults are recorded. -/
theorem witness_ParametersAndModelFaultsPersist :
    ∃ s t : State, step s = .next t ∧ s.modelFaults.hostBusError ∧ s.modelFaults.hostOverrun ∧
      s.modelFaults.readWhileBusy :=
  ⟨{ idle [] with modelFaults := { hostBusError := true, hostOverrun := true, readWhileBusy := true } }, _, rfl, rfl,
    rfl, rfl⟩

/-- `wait` while BUSY and `check` in ERROR. -/
theorem witness_WaitAndCheckFollowStatus :
    (∃ s : State, s.resetPin = false ∧ s.env.prog = .wait :: [] ∧ s.isBusy) ∧
    ∃ s : State, s.resetPin = false ∧ s.env.prog = .check :: [.wait] ∧ s.status.state = .error :=
  ⟨⟨withProgram [] [.wait] (reading .query 1 []), rfl, rfl, rfl⟩,
    withProgram [] [.check, .wait] errorState, rfl, rfl, rfl⟩

end Sys2Proof.Tests
end

/-! PROOF. The encodings of 30_encoding.md: command words as numbers, the illegal words and their one effect, the
decimal text. -/

namespace Sys2Proof.Proofs

open Sys2Proof.Machine

/-! ### Command words as numbers (rules R73, R85) -/

/-- A command word is its four fields, each shifted to its place: a bit of the word lies in one field, and there the
other three summands are 0. -/
theorem commandWord_eq_or (rsv lit ack opc : Byte) :
    commandWord rsv lit ack opc =
      opc.zeroExtend 32 ||| (ack.zeroExtend 32 <<< 8) ||| (lit.zeroExtend 32 <<< 16) |||
        (rsv.zeroExtend 32 <<< 24) := by
  apply BitVec.eq_of_getLsbD_eq
  intro i hi
  simp only [commandWord, BitVec.getLsbD_append, BitVec.getLsbD_or, BitVec.getLsbD_shiftLeft, BitVec.getLsbD_setWidth,
    BitVec.zeroExtend, Nat.sub_sub]
  obtain h | h | h | h : i < 8 ∨ (8 ≤ i ∧ i < 16) ∨ (16 ≤ i ∧ i < 24) ∨ 24 ≤ i := by omega
  all_goals
    simp (disch := omega) only [if_pos, if_neg, decide_eq_true, decide_eq_false, BitVec.getLsbD_of_ge, Bool.true_and,
      Bool.false_and, Bool.not_true, Bool.not_false, Bool.or_false, Bool.false_or]

/-- Settles O2: `commandWord_eq_or` at the fields that `encode` fills in. -/
theorem commandWordsAreThoseOfTheSpec : Obligations.CommandWordsAreThoseOfTheSpec := by
  refine ⟨rfl, rfl, fun a => ?_, fun a c => ?_, rfl, rfl⟩
  · simp [encode, commandWord_eq_or]
  · simp [encode, commandWord_eq_or]

/-! ### Illegal words (rules R76, R77) -/

/-- A command without operand fields is illegal exactly when one of them is not 0. -/
theorem decodePlain_error (ack lit : Byte) (i : Instr) :
    (∃ e, decodePlain ack lit i = .error e) ↔ ack ≠ 0 ∨ lit ≠ 0 := by
  by_cases ha : ack = 0#8
  · by_cases hl : lit = 0#8
    · simp [decodePlain, ha, hl]
    · simp [decodePlain, ha, hl]
  · simp [decodePlain, ha]

/-- The rows of the opcode table (rule R75). -/
theorem opcode_cases (b : Byte) :
    b = 0 ∨ b = 1 ∨ b = 2 ∨ b = 3 ∨ b = 4 ∨ b = 5 ∨ b = 6 ∨ 7 ≤ b := by
  bv_omega

theorem decode_of_reserved {w : Word} (hr : rsvField w = 0) (h : 7 ≤ opcField w) :
    decode w = .error .reservedOpcode := by
  have hne : ∀ b : Byte, b < 7 → opcField w ≠ b := fun b hb => by bv_omega
  simp [decode, hr, hne]

/-- The illegal words, row by row of the opcode table. -/
theorem decode_error (w : Word) :
    (∃ e, decode w = .error e) ↔
      (opcField w = 0 ∨ 0x07 ≤ opcField w ∨ rsvField w ≠ 0 ∨
        (opcField w ∈ [0x01, 0x02, 0x05, 0x06] ∧ ackField w ≠ 0) ∨
        (opcField w ∈ [0x01, 0x02, 0x03, 0x05, 0x06] ∧ litField w ≠ 0) ∨
        (opcField w = 0x04 ∧ 0x7F < litField w)) := by
  by_cases hr : rsvField w = 0#8
  case neg => simp [decode, hr]
  obtain h | h | h | h | h | h | h | h := opcode_cases (opcField w)
  · simp [decode, hr, h]
  · simp [decode, hr, h, decodePlain_error]
  · simp [decode, hr, h, decodePlain_error]
  · by_cases hl : litField w = 0#8
    · simp [decode, hr, h, hl]
    · simp [decode, hr, h, hl]
  · by_cases hl : 0x7F#8 < litField w
    · simp [decode, hr, h, hl]
    · simp [decode, hr, h, hl]
  · simp [decode, hr, h, decodePlain_error]
  · simp [decode, hr, h, decodePlain_error]
  · exact iff_of_true ⟨_, decode_of_reserved hr h⟩ (.inr (.inl h))

/-! ### The launch of an illegal word (rule R89) -/

/-- A register other than STATUS does not read the STATUS fields. -/
theorem regsKept_of_status (x : Status) (s : State) : regsKept [.status] s { s with status := x } := by
  intro r hr
  cases r with
  | status => exact absurd List.mem_cons_self hr
  | _ => rfl

/-- An illegal word written in IDLE or DONE raises ILLEGAL_COMMAND under its own opcode byte. -/
theorem cmdWrite_of_illegal {w : Word} {s : State} (hs : s.accepts) (hw : ∃ e, decode w = .error e) :
    cmdWrite w s = .next (raise .illegalCommand (launching (opcField w) s)) := by
  obtain ⟨e, he⟩ := hw
  simp only [cmdWrite, he, illegalCommand, accept_of_accepts hs]

/-- Settles O3: `decode_error` lists the illegal words; the launch of one (`cmdWrite_of_illegal`) is an update of STATUS
alone, so every other field of the next state is the old one by computation. -/
theorem illegalWordsRaiseIllegalCommand : Obligations.IllegalWordsRaiseIllegalCommand := by
  refine fun w => ⟨decode_error w, fun s hs hw => ?_⟩
  exact ⟨_, cmdWrite_of_illegal hs hw, rfl, regsKept_of_status _ s, fun _ => rfl, ⟨rfl, rfl⟩, ⟨rfl, rfl⟩, rfl,
    ⟨rfl, rfl⟩, rfl, rfl, rfl, rfl, rfl⟩

/-! ### The decimal text (rule R81) -/

theorem digitByte_toNat (d : Nat) : (digitByte d).toNat = 0x30 + d % 10 := by
  simp only [digitByte, BitVec.toNat_ofNat]
  omega

/-- With enough rounds the loop gives the digits of `v`, the most significant first. -/
theorem decLoop_eq_digits (fuel v : Nat) (hv : v < 10 ^ fuel) :
    decLoop fuel v [] = ((Nat.digits 10 v).map digitByte).reverse := by
  induction fuel generalizing v with
  | zero =>
    obtain rfl : v = 0 := by simpa using hv
    simp [decLoop]
  | succ n ih =>
    by_cases h : v = 0
    · simp [decLoop, h]
    · have hn : v / 10 < 10 ^ n := by omega
      rw [decLoop, if_neg h, decLoop_append, ih _ hn, Nat.digits_eq_cons_digits_div (by decide) h]
      simp [digitByte]

theorem decText_eq_digits {v : Word} (hv : v ≠ 0) :
    decText v = ((Nat.digits 10 v.toNat).map digitByte).reverse := by
  rw [decText, if_neg hv, decLoop_eq_digits _ _ (by omega)]

/-- The value of a text in base ten, its first byte the most significant digit. -/
def decimalValue (bs : List Byte) : Nat := bs.foldl (fun acc d => 10 * acc + (d.toNat - 0x30)) 0

theorem decimalValue_digits (v : Nat) : decimalValue ((Nat.digits 10 v).map digitByte).reverse = v := by
  rw [decimalValue, List.foldl_reverse, List.foldr_map]
  conv_rhs => rw [← Nat.ofDigits_digits 10 v, Nat.ofDigits_eq_foldr]
  refine List.foldr_ext _ _ _ fun d hd acc => ?_
  have hlt : d < 10 := Nat.digits_lt_base (by decide) hd
  simp only [digitByte_toNat, Nat.cast_id]
  omega

theorem decimalValue_decText (v : Word) : decimalValue (decText v) = v.toNat := by
  by_cases hv : v = 0
  · subst hv; rfl
  · rw [decText_eq_digits hv, decimalValue_digits]

theorem decText_digits (v : Word) : ∀ d ∈ decText v, 0x30 ≤ d ∧ d ≤ 0x39 := by
  by_cases hv : v = 0
  · subst hv; decide
  · rw [decText_eq_digits hv]
    intro d hd
    obtain ⟨n, -, rfl⟩ := List.mem_map.1 (List.mem_reverse.1 hd)
    have := digitByte_toNat n
    constructor <;> bv_omega

theorem decText_length (v : Word) : 1 ≤ (decText v).length ∧ (decText v).length ≤ 10 := by
  by_cases hv : v = 0
  · subst hv; decide
  · rw [decText_eq_digits hv, List.length_reverse, List.length_map]
    have h0 : v.toNat ≠ 0 := by bv_omega
    exact ⟨List.length_pos_iff.2 (Nat.digits_ne_nil_iff_ne_zero.2 h0),
      (Nat.digits_length_le_iff (by decide) _).2 (by omega)⟩

theorem decText_head_ne_zero (v : Word) (hv : v ≠ 0) : (decText v).head? ≠ some 0x30 := by
  have h0 : v.toNat ≠ 0 := by bv_omega
  have hne := Nat.digits_ne_nil_iff_ne_zero (b := 10).2 h0
  have hlast := Nat.getLast_digit_ne_zero 10 h0
  have hlt := Nat.digits_lt_base (by decide) (List.getLast_mem hne)
  have hd := digitByte_toNat ((Nat.digits 10 v.toNat).getLast hne)
  rw [decText_eq_digits hv, List.head?_reverse, List.getLast?_map, List.getLast?_eq_some_getLast hne]
  simp only [Option.map_some, ne_eq, Option.some.injEq]
  bv_omega

/-- Settles O20: the text of a nonzero `v` is `Nat.digits 10 v` written as bytes (`decText_eq_digits`), so each clause
is a fact about the digits of a number. -/
theorem decimalTextIsTheNumeral : Obligations.DecimalTextIsTheNumeral := fun v =>
  have ⟨hpos, hle⟩ := decText_length v
  ⟨decimalValue_decText v, decText_digits v, hpos, hle, decText_head_ne_zero v, rfl⟩

end Sys2Proof.Proofs

/-! PROOF. The Bounded Reader of 41_bounded_reader.md: what its launch and its two steps do, and the invariant of a
READ_EXACT beside an arbitrary device. -/

namespace Sys2Proof.Proofs

open Sys2Proof.Machine

/-! ### The end check (rule R98) -/

/-- The end check writes STATUS alone. -/
theorem brCheck_eq_status_update (s : State) : brCheck s = { s with status := (brCheck s).status } := by
  obtain ⟨-, h⟩ | ⟨-, -, h⟩ | ⟨-, -, h⟩ := brCheck_cases s <;> rw [h] <;> rfl

theorem brCheck_status_of_complete {s : State} (h : s.br.len = s.br.n) :
    (brCheck s).status = { s.status with state := .done } := by
  rw [brCheck, if_pos h]
  rfl

theorem brCheck_status_of_spent {s : State} (h : s.br.len ≠ s.br.n) (hm : s.br.max ≤ s.br.empty) :
    (brCheck s).status = { s.status with state := .error, err := .bulkReadTimeout } := by
  rw [brCheck, if_neg h, if_pos hm]
  rfl

theorem brCheck_status_of_running {s : State} (h : s.br.len ≠ s.br.n) (hm : s.br.empty < s.br.max) :
    (brCheck s).status = s.status := by
  rw [brCheck, if_neg h, if_neg (by bv_omega)]

/-! ### The launch (rule R95) -/

theorem exec_readExact_of_accepts {s : State} (hs : s.accepts) :
    exec .readExact s = .next (launchReadExact (launching 0x02 s)) :=
  accept_of_accepts hs

/-- The state in which the launch runs its end check. -/
def readLaunched (s : State) : State :=
  { s with
    status := { s.status with state := .busy, op := 0x02, rxbyte := 0 }
    br := { n := s.arg0, max := s.arg1, len := 0, empty := 0, sub := .query, r := 0 } }

theorem exec_readExact_of_refused {s : State} (hs : s.accepts) (h : s.cfg.accSize < s.arg0.toNat) :
    exec .readExact s = .next (raise .illegalCommand (launching 0x02 s)) := by
  rw [exec_readExact_of_accepts hs, launchReadExact]
  exact congrArg _ (if_pos h)

theorem exec_readExact_of_fits {s : State} (hs : s.accepts) (h : s.arg0.toNat ≤ s.cfg.accSize) :
    exec .readExact s = .next (brCheck (readLaunched s)) := by
  rw [exec_readExact_of_accepts hs, launchReadExact]
  exact congrArg _ (if_neg (Nat.not_lt.2 h))

theorem regsKept_of_reader (s : State) (x : Status) (b : BoundedReader) :
    regsKept (.status :: readerRegs) s { s with status := x, br := b } := by
  intro r hr
  cases r with
  | status | brN | brMax | brLen | brEmpty => simp [readerRegs] at hr
  | _ => rfl

/-- Settles O12: the launch is either a raise or the end check of `readLaunched s`, and the end check of an empty
accumulator is decided by n and m. -/
theorem readExactLaunchLatchesItsOperands : Obligations.ReadExactLaunchLatchesItsOperands := by
  refine fun s hs => ⟨fun h => ?refused, fun h => ?fits⟩
  case refused =>
    exact ⟨_, exec_readExact_of_refused hs h, rfl, regsKept_of_status _ s, ⟨rfl, rfl⟩, fun _ => rfl, ⟨rfl, rfl⟩, rfl,
      ⟨rfl, rfl⟩, rfl, rfl, rfl, rfl, rfl⟩
  case fits =>
    refine ⟨_, exec_readExact_of_fits hs h, ?_⟩
    rw [brCheck_eq_status_update]
    refine ⟨rfl, fun hn => ?done, fun hn hm => ?timeout, fun hn hm => ?busy, regsKept_of_reader s _ _, fun _ => rfl,
      ⟨rfl, rfl⟩, rfl, ⟨rfl, rfl⟩, rfl, rfl, rfl, rfl, rfl⟩
    case done => exact brCheck_status_of_complete (s := readLaunched s) hn.symm
    case timeout =>
      have hspent : s.arg1 ≤ 0 := by bv_omega
      exact brCheck_status_of_spent (s := readLaunched s) (Ne.symm hn) hspent
    case busy =>
      have hleft : 0 < s.arg1 := by bv_omega
      exact brCheck_status_of_running (s := readLaunched s) (Ne.symm hn) hleft

/-! ### The engine's steps (rules R90, R96, R97) -/

theorem engineStep_of_not_busy {s : State} (h : ¬ s.isBusy) : engineStep s = .next s := by
  unfold engineStep
  split
  case h_1 hb => exact absurd hb h
  all_goals rfl

theorem engineStep_of_inReadExact {s : State} (h : s.inReadExact) : engineStep s = brStep s := by
  obtain ⟨hb, ho⟩ := h
  have hb : s.status.state = .busy := hb
  simp only [engineStep, hb, busyStep, if_pos ho]

theorem engineStep_of_query {s : State} (h : s.inReadExact) (hs : s.br.sub = .query) :
    engineStep s = .next (brQuery s) := by
  simp only [engineStep_of_inReadExact h, brStep, hs]

theorem engineStep_of_read {s : State} (h : s.inReadExact) (hs : s.br.sub = .read) :
    engineStep s = .next (brRead s) := by
  simp only [engineStep_of_inReadExact h, brStep, hs]

/-- The latched size is the formula of rule R96, also where BR_LEN exceeds BR_N. -/
theorem brQuery_r_eq_formula (s : State) :
    ((brQuery s).br.r.toNat : Int) = max 1 (min ((s.br.n.toNat : Int) - s.br.len.toNat) (s.rxq.length : Int)) := by
  have hn := s.br.n.isLt
  have hlt : readSize (s.br.n.toNat - s.br.len.toNat) s.rxq.length < 2 ^ 32 := by
    unfold readSize; omega
  simp only [brQuery, rxAvail, BitVec.toNat_ofNat, Nat.mod_eq_of_lt hlt]
  unfold readSize
  omega

/-- Settles O13: the step is `brQuery`, which writes BR_R and BR_SUB, and no register shows either. -/
theorem queryStepFixesTheReadSize : Obligations.QueryStepFixesTheReadSize := fun s h hs =>
  ⟨_, engineStep_of_query h hs, brQuery_r_eq_formula s, rfl, fun r _ => by cases r <;> rfl, fun _ => rfl, ⟨rfl, rfl⟩,
    rfl, ⟨rfl, rfl⟩, rfl, rfl, rfl, rfl, rfl⟩

/-! ### Appending what was taken (rule R97) -/

/-- The state in which a READ step runs its end check. -/
def readAppended (s : State) : State := brAppend (s.rxq.take s.br.r.toNat) (rxTake s.br.r.toNat s)

theorem brRead_eq_check (s : State) : brRead s = brCheck (readAppended s) := rfl

/-- A read that asks for no more than is missing cannot wrap BR_LEN. -/
theorem readAppended_len_toNat {s : State} (hl : s.br.len ≤ s.br.n)
    (hr : s.br.r.toNat ≤ s.br.n.toNat - s.br.len.toNat) :
    (readAppended s).br.len.toNat = s.br.len.toNat + (s.rxq.take s.br.r.toNat).length := by
  have hl : s.br.len.toNat ≤ s.br.n.toNat := hl
  have hn := s.br.n.isLt
  have ht : (s.rxq.take s.br.r.toNat).length ≤ s.br.r.toNat := List.length_take_le ..
  simp only [readAppended, brAppend, rxTake_br, BitVec.toNat_add, BitVec.toNat_ofNat]
  omega

/-- A poll within the budget cannot wrap BR_EMPTY. -/
theorem readAppended_empty_toNat {s : State} (h : s.br.empty < s.br.max) :
    (readAppended s).br.empty.toNat =
      s.br.empty.toNat + if (s.rxq.take s.br.r.toNat).length = 0 then 1 else 0 := by
  simp only [readAppended, brAppend, rxTake_br, List.length_eq_zero_iff]
  split
  · bv_omega
  · rfl

theorem regsKept_readAppended (s : State) (x : Status) :
    regsKept [.status, .brLen, .brEmpty] s { readAppended s with status := x } := by
  intro r hr
  cases r with
  | status | brLen | brEmpty => simp at hr
  | _ => rfl

/-- Settles O14: the step is the end check of `readAppended s`; the invariant's bounds on BR_R and BR_EMPTY keep both
counters from wrapping. -/
theorem readStepAppendsWhatItTook : Obligations.ReadStepAppendsWhatItTook := by
  intro s hinv h hs bs
  obtain ⟨-, hempty, hr⟩ := hinv.readProgress h
  have ⟨_, hrLe⟩ := hr hs
  refine ⟨_, engineStep_of_read h hs, ?_⟩
  rw [brRead_eq_check, brCheck_eq_status_update]
  exact ⟨rfl, rfl,
    fun i hi => (read_writeBytes_inside s.mem _ bs i hi).trans (List.getElem?_eq_getElem hi).symm,
    fun a ha => read_writeBytes_outside s.mem _ bs a ha,
    readAppended_len_toNat hinv.lenBound hrLe, readAppended_empty_toNat hempty, rfl, rfl, rfl, rfl,
    brCheck_status_of_complete (s := readAppended s), brCheck_status_of_spent (s := readAppended s),
    brCheck_status_of_running (s := readAppended s), regsKept_readAppended s _, rfl, ⟨rfl, rfl⟩, rfl, rfl, rfl, rfl, rfl⟩

/-- Bytes written just above bytes already there extend them. -/
theorem readBytes_writeBytes_append {m : Memory} {a n : Nat} {bs : List Byte} (h : m.readBytes a n = some bs)
    (cs : List Byte) : (m.writeBytes (a + n) cs).readBytes a (n + cs.length) = some (bs ++ cs) := by
  obtain ⟨rfl, hread⟩ := (readBytes_eq_some ..).1 h
  refine (readBytes_eq_some ..).2 ⟨List.length_append, fun i hi => ?_⟩
  by_cases hold : i < bs.length
  · rw [read_writeBytes_outside _ _ _ _ (by omega), hread i hold, List.getElem?_append_left hold]
  · obtain ⟨k, rfl⟩ := Nat.exists_eq_add_of_le (Nat.not_lt.1 hold)
    have hk : k < cs.length := by omega
    rw [← Nat.add_assoc, read_writeBytes_inside _ _ _ _ hk, List.getElem?_append_right (by omega)]
    simp [hk]

/-! ### Runs beside a device -/

/-- A property of the state and of the bytes received so far that a push and an engine turn keep holds along a run. -/
theorem deviceRun_induction {P : List Byte → State → Prop}
    (hpush : ∀ q bs s, P q s → P (q ++ bs) (devicePush bs s))
    (hturn : ∀ q s t, P q s → takeTurn .engine s = .next t → P q t)
    {cs : List (List Byte)} {q : List Byte} {s u : State} (hs : P q s) (h : deviceRun cs s = .next u) :
    P (q ++ cs.flatten) u := by
  induction cs generalizing q s with
  | nil =>
    cases h
    simpa using hs
  | cons bs cs ih =>
    rw [deviceRun] at h
    split at h
    case h_1 t ht =>
      have := ih (hturn _ _ _ (hpush q bs s hs) ht) h
      simpa using this
    all_goals cases h

/-! ### A READ_EXACT from its launch on (rules R100, R102, R103) -/

/-- Where a READ_EXACT stands: complete, out of polls, or under way with bytes and polls left and a read size within
what is missing. -/
inductive ReaderStands (s : State) : Prop where
  | done (hst : s.status.state = .done) (hl : s.br.len = s.br.n)
  | timedOut (hst : s.status.state = .error) (he : s.status.err = .bulkReadTimeout) (hm : s.br.empty = s.br.max)
      (hl : s.br.len < s.br.n)
  | running (hb : s.inReadExact) (hm : s.br.empty < s.br.max) (hl : s.br.len < s.br.n)
      (hr : s.br.sub = .read → s.br.r.toNat ≤ s.br.n.toNat - s.br.len.toNat)

/-- A READ_EXACT of `n` bytes in at most `m` empty polls, with `q` all the bytes that RXQ held at its launch or received
since. -/
structure Reading (n m : Word) (q : List Byte) (s : State) : Prop where
  released : s.resetPin = false
  target : s.br.n = n
  budget : s.br.max = m
  stream : ∃ bs, accBytes s s.br.len.toNat = some bs ∧ bs ++ s.rxq = q
  stands : ReaderStands s

/-- The end check puts a running reader where it stands. -/
theorem brCheck_stands {s : State} (hb : s.inReadExact) (hsub : s.br.sub = .query) (hl : s.br.len ≤ s.br.n)
    (hm : s.br.empty ≤ s.br.max) : ReaderStands (brCheck s) := by
  obtain ⟨hlen, h⟩ | ⟨hlen, hspent, h⟩ | ⟨hlen, hleft, h⟩ := brCheck_cases s <;> rw [h]
  · exact .done rfl hlen
  · exact .timedOut rfl rfl (show s.br.empty = s.br.max by bv_omega) (show s.br.len < s.br.n by bv_omega)
  · exact .running hb hleft (by bv_omega) (by simp [hsub])

/-- The end check does not change what a reading has collected. -/
theorem Reading.of_brCheck {n m : Word} {q : List Byte} {s : State} (hp : s.resetPin = false) (hn : s.br.n = n)
    (hm : s.br.max = m) (hq : ∃ bs, accBytes s s.br.len.toNat = some bs ∧ bs ++ s.rxq = q)
    (hst : ReaderStands (brCheck s)) : Reading n m q (brCheck s) := by
  rw [brCheck_eq_status_update] at hst ⊢
  exact ⟨hp, hn, hm, hq, hst⟩

theorem Reading.of_launch {s t : State} (hs : s.accepts) (hp : s.resetPin = false) (hn : s.arg0.toNat ≤ s.cfg.accSize)
    (h : exec .readExact s = .next t) : Reading s.arg0 s.arg1 s.rxq t := by
  rw [exec_readExact_of_fits hs hn] at h
  cases h
  have hlen : 0 ≤ s.arg0 := by bv_omega
  have hempty : 0 ≤ s.arg1 := by bv_omega
  have hst : ReaderStands (brCheck (readLaunched s)) := brCheck_stands ⟨rfl, rfl⟩ rfl hlen hempty
  exact .of_brCheck hp rfl rfl ⟨[], rfl, rfl⟩ hst

theorem Reading.devicePush {n m : Word} {q : List Byte} (bs : List Byte) {s : State} (h : Reading n m q s) :
    Reading n m (q ++ bs) (devicePush bs s) := by
  obtain ⟨hp, hn, hm, ⟨as, hacc, rfl⟩, hst⟩ := h
  refine ⟨hp, hn, hm, ⟨as, hacc, by simp⟩, ?_⟩
  cases hst with
  | done hd hl => exact .done hd hl
  | timedOut he hc hm hl => exact .timedOut he hc hm hl
  | running hb hm hl hr => exact .running hb hm hl hr

theorem Reading.brQuery {n m : Word} {q : List Byte} {s : State} (h : Reading n m q s) (hb : s.inReadExact)
    (hm : s.br.empty < s.br.max) (hl : s.br.len < s.br.n) : Reading n m q (brQuery s) := by
  have hlt : s.br.len.toNat < s.br.n.toNat := hl
  refine ⟨h.released, h.target, h.budget, h.stream, .running hb hm hl fun _ => ?_⟩
  rw [brQuery_r_toNat s hl]
  exact (readSize_bounds _ _ (by omega)).2

/-- The bytes a READ step takes from RXQ are the bytes it adds to ACC. -/
theorem Reading.brRead {n m : Word} {q : List Byte} {s : State} (h : Reading n m q s) (hb : s.inReadExact)
    (hm : s.br.empty < s.br.max) (hl : s.br.len < s.br.n)
    (hr : s.br.r.toNat ≤ s.br.n.toNat - s.br.len.toNat) : Reading n m q (brRead s) := by
  obtain ⟨as, hacc, rfl⟩ := h.stream
  have hlt : s.br.len.toNat < s.br.n.toNat := hl
  have hlen := readAppended_len_toNat (s := s) (by bv_omega) hr
  have hempty := readAppended_empty_toNat hm
  have hlen' : (readAppended s).br.len ≤ s.br.n := by
    have := List.length_take_le s.br.r.toNat s.rxq
    rw [BitVec.le_def]
    omega
  have hempty' : (readAppended s).br.empty ≤ s.br.max := by
    rw [BitVec.lt_def] at hm
    rw [BitVec.le_def, hempty]
    split <;> omega
  refine .of_brCheck (s := readAppended s) h.released h.target h.budget
    ⟨as ++ s.rxq.take s.br.r.toNat, ?_, ?_⟩ (brCheck_stands hb rfl hlen' hempty')
  · rw [hlen]
    exact readBytes_writeBytes_append hacc _
  · show as ++ s.rxq.take _ ++ s.rxq.drop _ = as ++ s.rxq
    rw [List.append_assoc, List.take_append_drop]

theorem Reading.engineTurn {n m : Word} {q : List Byte} {s t : State} (h : Reading n m q s)
    (ht : takeTurn .engine s = .next t) : Reading n m q t := by
  rw [takeTurn, h.released, if_neg (by decide)] at ht
  cases h.stands with
  | done hd _ | timedOut hd _ _ _ =>
    rw [engineStep_of_not_busy (by simp [State.isBusy, hd])] at ht
    cases ht
    exact h
  | running hb hm hl hr =>
    cases hsub : s.br.sub with
    | query =>
      rw [engineStep_of_query hb hsub] at ht
      cases ht
      exact h.brQuery hb hm hl
    | read =>
      rw [engineStep_of_read hb hsub] at ht
      cases ht
      exact h.brRead hb hm hl (hr hsub)

theorem Reading.of_deviceRun {n m : Word} {q : List Byte} {t u : State} {cs : List (List Byte)}
    (ht : Reading n m q t) (h : deviceRun cs t = .next u) : Reading n m (q ++ cs.flatten) u :=
  deviceRun_induction (P := Reading n m) (fun _ bs _ h => h.devicePush bs) (fun _ _ _ h ht => h.engineTurn ht) ht h

/-- A command that reads is DONE exactly when it is complete. -/
theorem ReaderStands.done_iff {s : State} (h : ReaderStands s) : s.status.state = .done ↔ s.br.len = s.br.n := by
  cases h with
  | done hst hl => simp [hst, hl]
  | timedOut hst _ _ hl => exact iff_of_false (by simp [hst]) (by bv_omega)
  | running hb _ hl _ => exact iff_of_false (by simp [show s.status.state = .busy from hb.1]) (by bv_omega)

theorem ReaderStands.timedOut_iff {s : State} (h : ReaderStands s) :
    s.status.state = .error ∧ s.status.err = .bulkReadTimeout ↔ s.br.empty = s.br.max ∧ s.br.len < s.br.n := by
  cases h with
  | done hst hl => exact iff_of_false (by simp [hst]) fun ⟨_, hlt⟩ => by bv_omega
  | timedOut hst he hm hl => exact iff_of_true ⟨hst, he⟩ ⟨hm, hl⟩
  | running hb hm _ _ =>
    exact iff_of_false (by simp [show s.status.state = .busy from hb.1]) fun ⟨heq, _⟩ => by bv_omega

/-- Settles O16: the launch establishes `Reading`, every push and engine turn keeps it, and it gives each clause. -/
theorem readExactCollectsTheStreamInOrder : Obligations.ReadExactCollectsTheStreamInOrder := by
  intro s t u cs hs hp hn ht hu
  have h := (Reading.of_launch hs hp hn ht).of_deviceRun hu
  exact ⟨h.target, h.budget, h.stream, h.stands.done_iff, h.stands.timedOut_iff⟩

end Sys2Proof.Proofs

/-! PROOF. The Handshake Validator of 42_handshake.md: what the launch of an exchange and its poll step do. -/

namespace Sys2Proof.Proofs

open Sys2Proof.Machine

/-! ### The budget check (rule R109) -/

/-- The budget check writes STATUS alone. -/
theorem hvCheck_eq_status_update (s : State) : hvCheck s = { s with status := (hvCheck s).status } := by
  obtain ⟨-, h⟩ | ⟨-, -, h⟩ := hvCheck_cases s
  · rw [h, raise]
  · rw [h]

theorem hvCheck_status_of_spent {s : State} (h : s.hvMaxwait ≤ s.hv.inner ∨ s.hvOutermax ≤ s.hv.outer) :
    (hvCheck s).status = { s.status with state := .error, err := .protocolTimeout } := by
  rw [hvCheck, if_pos h]
  rfl

theorem hvCheck_status_of_running {s : State} (hi : s.hv.inner < s.hvMaxwait) (ho : s.hv.outer < s.hvOutermax) :
    (hvCheck s).status = s.status := by
  rw [hvCheck, if_neg (by bv_omega)]

@[simp] theorem hvCheck_rxq (s : State) : (hvCheck s).rxq = s.rxq := by
  rw [hvCheck_eq_status_update]

/-! ### The launch (rule R108) -/

/-- The state in which the launch of an exchange runs its budget check. -/
def exchangeLaunched (opc a : Byte) (v : Word) (text : List Byte) (s : State) : State :=
  { s with
    status := { s.status with state := .busy, phase := .echo, op := opc, rxbyte := 0 }
    hv := { ack := a, value := v, inner := 0, outer := 0, text := text }
    txh := s.txh ++ [a]
    txCount := s.txCount + 1 }

theorem exec_exchangeDec_of_accepts {s : State} (hs : s.accepts) (a : Byte) :
    exec (.exchangeDec a) s = .next (hvCheck (exchangeLaunched 0x03 a s.arg0 (decText s.arg0) s)) :=
  accept_of_accepts hs

theorem exec_exchangeLit_of_accepts {s : State} (hs : s.accepts) (a : Byte) {c : Byte} (hc : c ≤ 0x7F) :
    exec (.exchangeLit a c) s = .next (hvCheck (exchangeLaunched 0x04 a (c.zeroExtend 32) [c] s)) := by
  have hlegal : ¬ 0x7F < c := by bv_omega
  rw [exec, execExchangeLit, if_neg hlegal]
  exact accept_of_accepts hs

/-- An exchange whose two budgets are not 0 starts with both unspent. -/
theorem exchangeLaunched_status_of_budgets {s : State} (opc a : Byte) (v : Word) (text : List Byte)
    (hi : s.hvMaxwait ≠ 0) (ho : s.hvOutermax ≠ 0) :
    (hvCheck (exchangeLaunched opc a v text s)).status =
      { s.status with state := .busy, phase := .echo, op := opc, rxbyte := 0 } := by
  have hinner : 0 < s.hvMaxwait := by bv_omega
  have houter : 0 < s.hvOutermax := by bv_omega
  exact hvCheck_status_of_running (s := exchangeLaunched opc a v text s) hinner houter

/-- A budget of 0 is spent at the launch. -/
theorem exchangeLaunched_status_of_no_budget {s : State} (opc a : Byte) (v : Word) (text : List Byte)
    (h : s.hvMaxwait = 0 ∨ s.hvOutermax = 0) :
    (hvCheck (exchangeLaunched opc a v text s)).status =
      { s.status with state := .error, err := .protocolTimeout, phase := .echo, op := opc, rxbyte := 0 } := by
  have hspent : s.hvMaxwait ≤ 0 ∨ s.hvOutermax ≤ 0 := h.imp (fun h => by bv_omega) (fun h => by bv_omega)
  exact hvCheck_status_of_spent (s := exchangeLaunched opc a v text s) hspent

theorem regsKept_exchangeLaunched (opc a : Byte) (v : Word) (text : List Byte) (s : State) (x : Status) :
    regsKept (.status :: exchangeRegs) s { exchangeLaunched opc a v text s with status := x } := by
  intro r hr
  cases r with
  | status | hvAck | hvValue | hvInner | hvOuter | txCount => simp [exchangeRegs] at hr
  | _ => rfl

/-- Settles O19: either form launches into the budget check of `exchangeLaunched`, which both budgets pass at 0 empty
polls exactly when neither is 0. -/
theorem exchangeLaunchSendsTheAckByte : Obligations.ExchangeLaunchSendsTheAckByte := by
  intro s a i v text hs hform
  have hexec : exec i s = .next (hvCheck (exchangeLaunched i.opcode a v text s)) := by
    obtain ⟨rfl, rfl, rfl⟩ | ⟨c, hc, rfl, rfl, rfl⟩ := hform
    · exact exec_exchangeDec_of_accepts hs a
    · exact exec_exchangeLit_of_accepts hs a hc
  refine ⟨_, hexec, ?_⟩
  rw [hvCheck_eq_status_update]
  exact ⟨rfl, rfl, rfl, rfl, exchangeLaunched_status_of_budgets _ a v text,
    exchangeLaunched_status_of_no_budget _ a v text, regsKept_exchangeLaunched _ a v text s _, fun _ => rfl,
    ⟨rfl, rfl⟩, ⟨rfl, rfl⟩, rfl, rfl, rfl, rfl, rfl⟩

/-! ### The poll step (rule R109) -/

theorem engineStep_of_inExchange {s : State} (h : s.inExchange) : engineStep s = hvStep s := by
  obtain ⟨hb, ho⟩ := h
  have hb : s.status.state = .busy := hb
  obtain ho | ho := ho <;> simp [engineStep, hb, busyStep, ho]

theorem engineStep_of_emptyPoll {s : State} (h : s.inExchange) (hq : s.rxq = []) :
    engineStep s = .next (hvEmptyPoll s) := by
  rw [engineStep_of_inExchange h, hvStep, rxTaken, hq, List.take_nil]

theorem engineStep_of_received {s : State} {b : Byte} {q : List Byte} (h : s.inExchange) (hq : s.rxq = b :: q) :
    engineStep s = .next (hvReceive b { s with rxq := q }) := by
  rw [engineStep_of_inExchange h, hvStep, rxTaken, rxTake, hq]
  rfl

/-! ### Judging a received byte (rules R110 to R112) -/

theorem hvReceive_of_mismatch {s : State} {b : Byte} (h : b ≠ hvExpected s) : hvReceive b s = raiseMismatch b s := by
  rw [hvReceive, if_pos h]

theorem hvReceive_of_echo {s : State} (h : s.status.phase = .echo) : hvReceive s.hv.ack s = acceptEcho s := by
  simp only [hvReceive, hvExpected, h, ne_eq, not_true_eq_false, if_false]

theorem hvReceive_of_executed {s : State} (h : s.status.phase = .execution) :
    hvReceive execAck s = setEngine .done s := by
  simp only [hvReceive, hvExpected, h, ne_eq, not_true_eq_false, if_false]

/-- The three verdicts: a mismatch, the expected echo, the execution acknowledgment. -/
theorem hvReceive_cases (b : Byte) (s : State) :
    (b ≠ hvExpected s ∧ hvReceive b s = raiseMismatch b s) ∨
    (s.status.phase = .echo ∧ b = s.hv.ack ∧ hvReceive b s = acceptEcho s) ∨
    (s.status.phase = .execution ∧ b = execAck ∧ hvReceive b s = setEngine .done s) := by
  by_cases hb : b = hvExpected s
  case neg => exact .inl ⟨hb, hvReceive_of_mismatch hb⟩
  cases hp : s.status.phase with
  | echo =>
    obtain rfl : b = s.hv.ack := by simpa only [hvExpected, hp] using hb
    exact .inr (.inl ⟨rfl, rfl, hvReceive_of_echo hp⟩)
  | execution =>
    obtain rfl : b = execAck := by simpa only [hvExpected, hp] using hb
    exact .inr (.inr ⟨rfl, rfl, hvReceive_of_executed hp⟩)

/-- No verdict on a byte touches the bytes after it. -/
@[simp] theorem hvReceive_rxq (b : Byte) (s : State) : (hvReceive b s).rxq = s.rxq := by
  obtain ⟨-, h⟩ | ⟨-, -, h⟩ | ⟨-, -, h⟩ := hvReceive_cases b s
  · rw [h, raiseMismatch_rxq]
  · rw [h, acceptEcho, txPut_rxq]
  · rw [h, setEngine_rxq]

/-- No register shows RXQ, and only STATUS shows the STATUS fields. -/
theorem regsKept_of_rxq_status (q : List Byte) (x : Status) (s : State) :
    regsKept [.status] s { s with rxq := q, status := x } :=
  regsKept_of_status x s

theorem regsKept_acceptEcho (q : List Byte) (s : State) :
    regsKept [.status, .hvInner, .txCount] s (acceptEcho { s with rxq := q }) := by
  intro r hr
  cases r with
  | status | hvInner | txCount => simp at hr
  | _ => rfl

/-- Settles O21: the poll takes the ack byte and runs `acceptEcho`. -/
theorem echoAcceptedSendsTheText : Obligations.EchoAcceptedSendsTheText := by
  intro s q h hp hq
  have hstep : engineStep s = .next (acceptEcho { s with rxq := q }) :=
    (engineStep_of_received h hq).trans (congrArg _ (hvReceive_of_echo (s := { s with rxq := q }) hp))
  exact ⟨_, hstep, rfl, rfl, rfl, rfl, rfl, regsKept_acceptEcho q s, fun _ => rfl, ⟨rfl, rfl⟩, ⟨rfl, rfl⟩, rfl, rfl,
    rfl, rfl, rfl⟩

/-- Settles O22: the poll takes the 'O' and sets STATE alone. -/
theorem executionAcknowledgmentEndsTheExchange : Obligations.ExecutionAcknowledgmentEndsTheExchange := by
  intro s q h hp hq
  have hstep : engineStep s = .next (setEngine .done { s with rxq := q }) :=
    (engineStep_of_received h hq).trans (congrArg _ (hvReceive_of_executed (s := { s with rxq := q }) hp))
  exact ⟨_, hstep, rfl, rfl, rfl, rfl, regsKept_of_rxq_status q _ s, fun _ => rfl, ⟨rfl, rfl⟩, ⟨rfl, rfl⟩, rfl, rfl,
    rfl, rfl, rfl⟩

/-- A byte that is wrong for the phase is not the expected one. -/
theorem ne_hvExpected {s : State} {b : Byte} (he : s.status.phase = .echo → b ≠ s.hv.ack)
    (hx : s.status.phase = .execution → b ≠ 0x4F) : b ≠ hvExpected s := by
  cases hp : s.status.phase with
  | echo => simpa only [hvExpected, hp] using he hp
  | execution => simpa only [hvExpected, hp, execAck] using hx hp

/-- Settles O23: the poll takes the byte and raises the mismatch, which writes STATUS alone. -/
theorem mismatchSendsNothingMore : Obligations.MismatchSendsNothingMore := by
  intro s b q h hq he hx
  have hne : b ≠ hvExpected { s with rxq := q } := ne_hvExpected (s := { s with rxq := q }) he hx
  have hstep : engineStep s = .next (raiseMismatch b { s with rxq := q }) :=
    (engineStep_of_received h hq).trans (congrArg _ (hvReceive_of_mismatch hne))
  exact ⟨_, hstep, rfl, rfl, rfl, rfl, regsKept_of_rxq_status q _ s, fun _ => rfl, ⟨rfl, rfl⟩, ⟨rfl, rfl⟩, rfl, rfl,
    rfl, rfl, rfl⟩

/-! ### One byte per poll (rule R114) -/

theorem hvEmptyPoll_rxq (s : State) : (hvEmptyPoll s).rxq = s.rxq := hvCheck_rxq _

/-- Settles O25: a poll of an empty RXQ leaves it empty, and the verdict on a byte keeps the bytes after it. -/
theorem oneBytePerPoll : Obligations.OneBytePerPoll := by
  intro s t h ht
  cases hq : s.rxq with
  | nil =>
    rw [engineStep_of_emptyPoll h hq] at ht
    cases ht
    rw [hvEmptyPoll_rxq, hq, List.drop_nil]
  | cons b q =>
    rw [engineStep_of_received h hq] at ht
    cases ht
    exact hvReceive_rxq b { s with rxq := q }

end Sys2Proof.Proofs

/-! PROOF. The Frame Parser of 43_frame_parser.md: what DECODE's launch and its one step do, and the words of a SAMPLE
entry in memory. -/

namespace Sys2Proof.Proofs

open Sys2Proof.Machine

/-! ### The launch (rule R120) -/

theorem exec_decodeFrames_of_refused {s : State} (hs : s.accepts) (h : s.cfg.accSize < s.arg0.toNat) :
    exec .decodeFrames s = .next (raise .illegalCommand (launching 0x05 s)) :=
  (accept_of_accepts hs).trans (congrArg _ (if_pos h))

theorem exec_decodeFrames_of_fits {s : State} (hs : s.accepts) (h : s.arg0.toNat ≤ s.cfg.accSize) :
    exec .decodeFrames s =
      .next (setEngine .busy { launching 0x05 s with fp.dlen := s.arg0, fp.dc := s.capdac }) :=
  (accept_of_accepts hs).trans (congrArg _ (if_neg (Nat.not_lt.2 h)))

/-- No register shows DLEN or DC. -/
theorem regsKept_of_status_latches (x : Status) (len : Word) (c : BitVec 5) (s : State) :
    regsKept [.status] s { s with status := x, fp.dlen := len, fp.dc := c } := by
  intro r hr
  cases r with
  | status => exact absurd List.mem_cons_self hr
  | _ => rfl

/-- Settles O30: the launch raises above ACC_SIZE and latches otherwise, and each of the two states differs from `s` in
the named fields alone. -/
theorem decodeLaunchLatchesItsOperands : Obligations.DecodeLaunchLatchesItsOperands := by
  refine fun s hs => ⟨fun h => ?refused, fun h => ?fits⟩
  case refused =>
    exact ⟨_, exec_decodeFrames_of_refused hs h, rfl, regsKept_of_status _ s, ⟨rfl, rfl⟩, fun _ => rfl, ⟨rfl, rfl⟩,
      ⟨rfl, rfl⟩, rfl, rfl, rfl, rfl, rfl, rfl⟩
  case fits =>
    exact ⟨_, exec_decodeFrames_of_fits hs h, rfl, rfl, rfl, regsKept_of_status_latches _ _ _ s, fun _ => rfl,
      ⟨rfl, rfl⟩, ⟨rfl, rfl⟩, rfl, rfl, rfl, rfl, rfl, rfl⟩

/-! ### Words in memory (20_memory.md rule R60) -/

/-- Reading over two adjacent ranges is reading each of them. -/
theorem readBytes_append (m : Memory) (a : Nat) (bs cs : List Byte) :
    m.readBytes a (bs ++ cs).length = some (bs ++ cs) ↔
      m.readBytes a bs.length = some bs ∧ m.readBytes (a + bs.length) cs.length = some cs := by
  simp only [readBytes_eq_some, true_and]
  constructor
  · intro h
    refine ⟨fun i hi => ?_, fun i hi => ?_⟩
    · rw [h i (by simp; omega), List.getElem?_append_left hi]
    · rw [Nat.add_assoc, h _ (by simp; omega), List.getElem?_append_right (by omega), Nat.add_sub_cancel_left]
  · rintro ⟨hb, hc⟩ i hi
    by_cases hlt : i < bs.length
    · rw [hb i hlt, List.getElem?_append_left hlt]
    · obtain ⟨k, rfl⟩ := Nat.exists_eq_add_of_le (Nat.not_lt.1 hlt)
      rw [List.length_append] at hi
      rw [← Nat.add_assoc, hc k (by omega), List.getElem?_append_right (by omega), Nat.add_sub_cancel_left]

theorem readWord_of_leBytes {m : Memory} {a : Nat} {v : Word} (h : m.readBytes a 4 = some (leBytes 4 v)) :
    m.readWord a = some v := by
  simp [Memory.readWord, h, leBytes_four]

/-- Where memory holds the little-endian bytes of a list of words, it holds each word at its place. -/
theorem readWord_of_flatMap {m : Memory} {a i : Nat} {ws : List Word} {v : Word}
    (h : m.readBytes a (ws.flatMap (leBytes 4)).length = some (ws.flatMap (leBytes 4))) (hv : ws[i]? = some v) :
    m.readWord (a + 4 * i) = some v := by
  induction ws generalizing a i with
  | nil => simp at hv
  | cons w ws ih =>
    rw [List.flatMap_cons] at h
    obtain ⟨hw, hws⟩ := (readBytes_append ..).1 h
    rw [leBytes_length] at hw hws
    cases i with
    | zero =>
      obtain rfl : w = v := by simpa using hv
      exact readWord_of_leBytes hw
    | succ i =>
      rw [show a + 4 * (i + 1) = a + 4 + 4 * i by omega]
      exact ih hws (by simpa using hv)

/-! ### SAMPLE entries as words (10_state.md rule R48) -/

/-- The eight words of a SAMPLE entry. -/
def sampleWords (x : Sample) : List Word :=
  [x.ts, x.raw, x.relTs.extractLsb' 0 32, x.relTs.extractLsb' 32 32, x.capF64.extractLsb' 0 32,
    x.capF64.extractLsb' 32 32, x.capQ, 0]

/-- A slice of a slice is one slice. -/
theorem extractLsb'_extractLsb' {w start start' len len' : Nat} (x : BitVec w) (h : start + len ≤ len') :
    (x.extractLsb' start' len').extractLsb' start len = x.extractLsb' (start' + start) len := by
  apply BitVec.eq_of_getLsbD_eq
  intro i hi
  simp [hi, show start + i < len' by omega, Nat.add_assoc]
/-- A 64-bit value lies in memory as its low word and then its high word. -/
theorem leBytes_eight (v : BitVec 64) :
    leBytes 8 v = leBytes 4 (v.extractLsb' 0 32) ++ leBytes 4 (v.extractLsb' 32 32) := by
  simp [leBytes, List.range_succ, extractLsb'_extractLsb']

theorem sampleBytes_eq_flatMap (x : Sample) : sampleBytes x = (sampleWords x).flatMap (leBytes 4) := by
  simp [sampleBytes, sampleWords, leBytes_eight]

/-- The bytes of an entry just written. -/
theorem readBytes_writeSamples {m : Memory} {xs : List Sample} {j : Nat} {x : Sample} (hx : xs[j]? = some x) :
    (writeSamples m 0 xs).readBytes (sampleBase + 32 * j) 32 = some (sampleBytes x) := by
  refine (readBytes_eq_some ..).2 ⟨sampleBytes_length x, fun i hi => ?_⟩
  simpa using read_writeSamples_inside m 0 xs j i x hx hi

/-- The words of an entry just written. -/
theorem readWord_writeSamples {m : Memory} {xs : List Sample} {j i : Nat} {x : Sample} {v : Word}
    (hx : xs[j]? = some x) (hv : (sampleWords x)[i]? = some v) :
    (writeSamples m 0 xs).readWord (sampleBase + 32 * j + 4 * i) = some v := by
  refine readWord_of_flatMap ?_ hv
  rw [← sampleBytes_eq_flatMap, sampleBytes_length]
  exact readBytes_writeSamples hx

/-- An entry written from a decoded frame holds the words that the rules give for it. -/
theorem sampleHolds_writeSamples {m : Memory} {fs : List (Word × Word)} {j : Nat} {ts raw : Word} (t0 : Word)
    (c : BitVec 5) (hf : fs[j]? = some (ts, raw)) :
    SampleHolds (writeSamples m 0 (fs.map (sampleOf t0 c))) j ts raw t0 c := by
  have hx : (fs.map (sampleOf t0 c))[j]? = some (sampleOf t0 c (ts, raw)) := by simp [hf]
  have hword {i : Nat} {v : Word} (hv : (sampleWords (sampleOf t0 c (ts, raw)))[i]? = some v) :=
    readWord_writeSamples (m := m) hx hv
  exact ⟨hword (i := 0) rfl, hword (i := 1) rfl, hword (i := 2) rfl, hword (i := 3) rfl, hword (i := 4) rfl,
    hword (i := 5) rfl, hword (i := 6) rfl, hword (i := 7) rfl⟩

/-! ### The step (rules R121, R122) -/

theorem engineStep_of_inDecode {s : State} (h : s.inDecode) : engineStep s = decodeStep s := by
  obtain ⟨hb, ho⟩ := h
  have hb : s.status.state = .busy := hb
  simp [engineStep, hb, busyStep, ho]

theorem engineStep_of_frames {s : State} {fs : List (Word × Word)} (h : s.inDecode)
    (hfs : readFrames s.mem 0 (s.fp.dlen.toNat / 8) = some fs) : engineStep s = .next (finishDecode fs s) := by
  rw [engineStep_of_inDecode h, decodeStep, frameSize, hfs]

/-- ACC holds its frames when all of their bytes were written. -/
theorem exists_readFrames {m : Memory} {k : Nat} (h : ∀ i, i < 8 * k → (m.read (accBase + i)).isSome) :
    ∃ fs, readFrames m 0 k = some fs := by
  rw [← Option.ne_none_iff_exists', ne_eq, readFrames_eq_none]
  rintro ⟨j, hj, hnone⟩
  obtain ⟨i, hi, hread⟩ := (readFrame_eq_none ..).1 hnone
  have hsome := h (8 * j + i) (by omega)
  rw [Nat.zero_add, Nat.add_assoc] at hread
  simp [hread] at hsome

/-- Frame `j` of those read is the two words of ACC at its place. -/
theorem readFrames_words {m : Memory} {k j : Nat} {fs : List (Word × Word)} (hfs : readFrames m 0 k = some fs)
    (hj : j < k) : ∃ ts raw, fs[j]? = some (ts, raw) ∧ m.readWord (accBase + 8 * j) = some ts ∧
      m.readWord (accBase + 8 * j + 4) = some raw := by
  obtain ⟨hlen, hframe⟩ := (readFrames_eq_some ..).1 hfs
  obtain ⟨⟨ts, raw⟩, hf⟩ : ∃ f, fs[j]? = some f := ⟨fs[j], by simp⟩
  refine ⟨ts, raw, hf, ?_⟩
  rw [← readFrame_eq_some, ← hf, ← hframe j hj, Nat.zero_add]

theorem firstTimestamp_of_getElem {fs : List (Word × Word)} {ts raw : Word} (h : fs[0]? = some (ts, raw)) :
    firstTimestamp fs = ts := by
  cases fs with
  | nil => simp at h
  | cons f fs =>
    obtain rfl : f = (ts, raw) := by simpa using h
    rfl

theorem trailing_toNat (len : Word) : (trailing len).toNat = len.toNat % 8 := by
  simp only [trailing, frameSize, BitVec.toNat_ofNat]
  omega

theorem partialOf_eq_decide (len : Word) : partialOf len = decide (len.toNat % 8 ≠ 0) := by
  rw [partialOf, frameSize, bne, beq_eq_decide, decide_not]

/-- The step writes STATE and PARTIAL of STATUS. -/
theorem finishDecode_status (fs : List (Word × Word)) (s : State) :
    (finishDecode fs s).status =
      { s.status with state := .done, partialFrame := decide (s.fp.dlen.toNat % 8 ≠ 0) } := by
  rw [← partialOf_eq_decide]
  rfl

theorem regsKept_finishDecode (fs : List (Word × Word)) (s : State) :
    regsKept (.status :: parserRegs) s (finishDecode fs s) := by
  intro r hr
  cases r with
  | status | fpCount | fpRem | fpTs0 => simp [parserRegs] at hr
  | _ => rfl

/-- Settles O31: the written bytes give the step its frames, so it is `finishDecode` of them; what it writes to memory
are the entries alone, and each holds the words of its frame (`sampleHolds_writeSamples`). -/
theorem decodeStepWritesEverySample : Obligations.DecodeStepWritesEverySample := by
  intro s _ hs k hacc
  obtain ⟨fs, hfs⟩ := exists_readFrames hacc
  obtain ⟨hlen, -⟩ := (readFrames_eq_some ..).1 hfs
  refine ⟨_, engineStep_of_frames hs hfs, ?count, trailing_toNat _, finishDecode_status fs s, ?noFrame, ?entries, ?mem,
    regsKept_finishDecode fs s, ⟨rfl, rfl⟩, ⟨rfl, rfl⟩, rfl, ⟨rfl, rfl⟩, rfl, rfl, rfl, rfl, rfl⟩
  case count =>
    have hk : k < 2 ^ 32 := (Nat.div_le_self ..).trans_lt s.fp.dlen.isLt
    change (BitVec.ofNat 32 fs.length).toNat = k
    rw [hlen, BitVec.toNat_ofNat, Nat.mod_eq_of_lt hk]
  case noFrame =>
    intro hk
    obtain rfl := List.eq_nil_of_length_eq_zero (hlen.trans hk)
    rfl
  case entries =>
    intro j hj
    obtain ⟨t0, raw0, hf0, ht0, -⟩ := readFrames_words hfs (Nat.zero_lt_of_lt hj)
    obtain ⟨ts, raw, hf, hts, hraw⟩ := readFrames_words hfs hj
    obtain rfl : firstTimestamp fs = t0 := firstTimestamp_of_getElem hf0
    exact ⟨ts, raw, ht0, hts, hraw, sampleHolds_writeSamples _ _ hf⟩
  case mem =>
    intro a ha
    exact read_writeSamples_outside _ _ _ _ (by simpa [hlen] using ha)

end Sys2Proof.Proofs

/-! PROOF. The numbers of a Sample in integers (43_frame_parser.md rules R125, R126, R129): the relative timestamp and
the capacitance. -/

namespace Sys2Proof.Proofs

open Sys2Proof.Machine

/-! ### The relative timestamp (rule R129) -/

/-- 64 bits hold the difference of two 32-bit timestamps, so the subtraction does not wrap. -/
theorem relTimestamp_toInt (t0 ts : Word) : (relTimestamp t0 ts).toInt = (ts.toNat : Int) - (t0.toNat : Int) := by
  simp only [relTimestamp, BitVec.zeroExtend, BitVec.toInt_sub, BitVec.toInt_setWidth, Int.sub_bmod_bmod,
    Int.bmod_sub_bmod]
  have h0 := t0.isLt
  have h1 := ts.isLt
  exact Int.bmod_eq_of_le (by omega) (by omega)

/-- Settles O36: `relTimestamp_toInt` gives the value and, since timestamps have 32 bits, its range. -/
theorem relativeTimestampIsTheSignedDifference : Obligations.RelativeTimestampIsTheSignedDifference := by
  intro t0 ts
  have h0 := t0.isLt
  have h1 := ts.isLt
  have hrel := relTimestamp_toInt t0 ts
  exact ⟨hrel, BitVec.sub_self _, by omega, by omega⟩

/-! ### The capacitance as an integer (rules R125, R126) -/

/-- The range of N, from raw as a signed word and a CAPDAC level of at most 31. -/
theorem capN_bounds (raw : Word) (c : BitVec 5) : -2147483648 ≤ capN raw c ∧ capN raw c ≤ 2198274047 := by
  have hlo := raw.le_toInt
  have hhi := raw.toInt_lt
  have hc := c.isLt
  unfold capN
  omega

/-- `rneInt_spec` with the distance as an absolute value. -/
theorem rneInt_abs_sub_spec (num : Int) {den : Nat} (h : 0 < den) :
    2 * |rneInt num den * den - num| ≤ den ∧ (2 * |rneInt num den * den - num| = den → rneInt num den % 2 = 0) := by
  obtain ⟨habove, hbelow, heven⟩ := rneInt_spec num den h
  rcases abs_cases (rneInt num den * den - num) with ⟨habs, -⟩ | ⟨habs, -⟩
  · exact ⟨by omega, fun htie => heven (.inl (by omega))⟩
  · exact ⟨by omega, fun htie => heven (.inr (by omega))⟩

theorem capQ_nearest (n : Int) : 2 * |capQ n * 2 ^ 15 - n * 625| ≤ 2 ^ 15 ∧
    (2 * |capQ n * 2 ^ 15 - n * 625| = 2 ^ 15 → capQ n % 2 = 0) :=
  rneInt_abs_sub_spec (n * 625) (den := 2 ^ 15) (by decide)

theorem capQ_bounds (raw : Word) (c : BitVec 5) :
    -40960000 ≤ capQ (capN raw c) ∧ capQ (capN raw c) ≤ 41928750 := by
  obtain ⟨hlo, hhi⟩ := capN_bounds raw c
  obtain ⟨hhalf, -⟩ := capQ_nearest (capN raw c)
  have hwithin : |capQ (capN raw c) * 2 ^ 15 - capN raw c * 625| ≤ 2 ^ 14 := by omega
  obtain ⟨hbelow, habove⟩ := abs_le.1 hwithin
  omega

/-- Settles O34: rounding is to the nearest and to even on a tie, and the range follows from that of N. -/
theorem capQIsTheNearestTenThousandth : Obligations.CapQIsTheNearestTenThousandth :=
  ⟨capQ_nearest, capQ_bounds⟩

end Sys2Proof.Proofs

/-! PROOF. CAP_F64 (43_frame_parser.md rules R127, R128): binary64 negation, nearest values on a grid, the encoding of a
significand, and the rounding that gives it. -/

namespace Sys2Proof.Proofs

open Sys2Proof.Machine

/-! ### Binary64 values as integers times powers of 2 (general-knowledge item I4) -/

/-- The factor that the sign bit stands for. -/
def f64Sign (c : BitVec 64) : Int := if c.getLsbD 63 then -1 else 1

/-- The significand of a finite encoding as an integer, with the leading bit of a normal one. -/
def f64Mantissa (c : BitVec 64) : Nat :=
  if (c.extractLsb' 52 11).toNat = 0 then (c.extractLsb' 0 52).toNat else 2 ^ 52 + (c.extractLsb' 0 52).toNat

/-- The exponent that goes with it; a subnormal number has that of the smallest normal ones. -/
def f64Exponent (c : BitVec 64) : Nat := max 1 (c.extractLsb' 52 11).toNat

/-- `f64Value` without its case for the subnormal numbers. -/
theorem f64Value_eq (c : BitVec 64) :
    f64Value c = (f64Sign c * f64Mantissa c : Int) * 2 ^ f64Exponent c / 2 ^ 1075 := by
  by_cases he : (c.extractLsb' 52 11).toNat = 0
  · simp only [f64Value, f64Sign, f64Mantissa, f64Exponent, he, if_true]
    rw [pow_succ _ 1074]
    push_cast
    field_simp
    simp
  · simp only [f64Value, f64Sign, f64Mantissa, f64Exponent, he, if_false, max_eq_right (Nat.one_le_iff_ne_zero.2 he)]
    push_cast
    rfl

theorem f64Mantissa_lt (c : BitVec 64) : f64Mantissa c < 2 ^ 53 := by
  have hf := (c.extractLsb' 0 52).isLt
  unfold f64Mantissa
  split <;> omega

theorem abs_signed_mantissa_lt (c : BitVec 64) : |f64Sign c * f64Mantissa c| < 2 ^ 53 := by
  have hlt : (f64Mantissa c : Int) < 2 ^ 53 := by exact_mod_cast f64Mantissa_lt c
  unfold f64Sign
  split <;> simpa using hlt

/-! ### Negation flips the sign bit -/

theorem exponentField_signBit_xor (c : BitVec 64) :
    (f64SignBit ^^^ c).extractLsb' 52 11 = c.extractLsb' 52 11 :=
  BitVec.extractLsb'_xor.trans BitVec.zero_xor

theorem fraction_signBit_xor (c : BitVec 64) : (f64SignBit ^^^ c).extractLsb' 0 52 = c.extractLsb' 0 52 :=
  BitVec.extractLsb'_xor.trans BitVec.zero_xor

theorem f64Sign_signBit_xor (c : BitVec 64) : f64Sign (f64SignBit ^^^ c) = - f64Sign c := by
  have hs : (f64SignBit ^^^ c).getLsbD 63 = !c.getLsbD 63 := (BitVec.getLsbD_xor ..).trans (Bool.true_xor _)
  rw [f64Sign, f64Sign, hs]
  cases c.getLsbD 63 <;> rfl

theorem f64Value_signBit_xor (c : BitVec 64) : f64Value (f64SignBit ^^^ c) = - f64Value c := by
  simp only [f64Value_eq, f64Sign_signBit_xor, f64Mantissa, f64Exponent, exponentField_signBit_xor,
    fraction_signBit_xor, neg_mul, Int.cast_neg, neg_div]

theorem f64Finite_signBit_xor (c : BitVec 64) : f64Finite (f64SignBit ^^^ c) ↔ f64Finite c := by
  rw [f64Finite, exponentField_signBit_xor, f64Finite]

theorem f64Normal_signBit_xor (c : BitVec 64) : f64Normal (f64SignBit ^^^ c) ↔ f64Normal c := by
  rw [f64Normal, exponentField_signBit_xor, f64Finite_signBit_xor, f64Normal]

/-- Rounding to the nearest binary64 commutes with negation: the finite encodings come in pairs that differ in the sign
bit. -/
theorem isF64Nearest_neg {v : BitVec 64} {x : ℚ} (h : IsF64Nearest v x) : IsF64Nearest (f64SignBit ^^^ v) (-x) := by
  obtain ⟨hfin, hnear⟩ := h
  refine ⟨(f64Finite_signBit_xor v).2 hfin, fun c hc => ?_⟩
  obtain ⟨d, rfl⟩ : ∃ d, c = f64SignBit ^^^ d :=
    ⟨f64SignBit ^^^ c, by rw [← BitVec.xor_assoc, BitVec.xor_self, BitVec.zero_xor]⟩
  have hbit : (f64SignBit ^^^ v).getLsbD 0 = v.getLsbD 0 := (BitVec.getLsbD_xor ..).trans (Bool.false_xor _)
  simp only [f64Value_signBit_xor, hbit, neg_sub_neg, abs_sub_comm x, ne_eq, neg_inj]
  exact hnear d ((f64Finite_signBit_xor d).1 hc)

/-- Where the sign bit is clear, setting it flips it. -/
theorem signBit_or_eq_xor {c : BitVec 64} (h : c.getLsbD 63 = false) : f64SignBit ||| c = f64SignBit ^^^ c := by
  apply BitVec.eq_of_getLsbD_eq
  intro i hi
  have hs : f64SignBit = BitVec.twoPow 64 63 := rfl
  rw [BitVec.getLsbD_or, BitVec.getLsbD_xor, hs, BitVec.getLsbD_twoPow]
  by_cases htop : i = 63
  · rw [htop, h]
    rfl
  · simp [Ne.symm htop]

/-! ### Nearest on a grid -/

/-- On the grid of step 2 ^ -s, a value of at most 53 significant bits is a grid point unless it is smaller than 2 ^ 52
steps. -/
theorem scaled_significand_integral_or_small {m : Int} (e b s : Nat) (hm : |m| < 2 ^ 53) :
    (∃ k : Int, (m * 2 ^ e / 2 ^ b * 2 ^ s : ℚ) = k) ∨ |(m * 2 ^ e / 2 ^ b * 2 ^ s : ℚ)| < 2 ^ 52 := by
  rw [div_mul_eq_mul_div, mul_assoc, ← pow_add]
  obtain h | h := Nat.lt_or_ge (e + s) b
  · right
    have hm' : |(m : ℚ)| < 2 ^ 53 := by exact_mod_cast hm
    rw [abs_div, abs_mul, abs_pow, abs_pow, abs_two, div_lt_iff₀ (by positivity)]
    calc |(m : ℚ)| * 2 ^ (e + s) < 2 ^ 53 * 2 ^ (e + s) := by gcongr
      _ = 2 ^ 52 * 2 ^ (e + s + 1) := by ring
      _ ≤ 2 ^ 52 * 2 ^ b := by gcongr <;> norm_num; omega
  · left
    obtain ⟨d, hd⟩ := Nat.exists_eq_add_of_le h
    refine ⟨m * 2 ^ d, ?_⟩
    rw [hd, pow_add]
    push_cast
    field_simp

/-- An integer other than one within 1/2 of `x` is at least 1/2 away. -/
theorem half_le_abs_sub {x : ℚ} {m k : Int} (hm : |m - x| ≤ 1 / 2) (hk : k ≠ m) : 1 / 2 ≤ |(k : ℚ) - x| := by
  have hone : (1 : ℚ) ≤ |(k : ℚ) - m| := by exact_mod_cast Int.one_le_abs (sub_ne_zero.2 hk)
  have htri := abs_sub_le (k : ℚ) x m
  rw [abs_sub_comm x] at htri
  linarith

/-- When `x` is 2 ^ 52 or more, no integer and nothing smaller than 2 ^ 52 is nearer to `x` than the integer nearest
to it. -/
theorem nearest_integer_is_nearest {x y : ℚ} {m : Int} (hx : 2 ^ 52 ≤ x) (hm : |m - x| ≤ 1 / 2)
    (hy : (∃ k : Int, y = k) ∨ |y| < 2 ^ 52) :
    |m - x| ≤ |y - x| ∧ (y ≠ m → |m - x| = |y - x| → |m - x| = 1 / 2) := by
  have hint (k : Int) : |m - x| ≤ |k - x| := by
    by_cases hk : k = m
    · rw [hk]
    · exact hm.trans (half_le_abs_sub hm hk)
  obtain ⟨k, rfl⟩ | hsmall := hy
  · exact ⟨hint k, fun hne htie => le_antisymm hm (htie ▸ half_le_abs_sub hm (fun h => hne (congrArg _ h)))⟩
  · have hlt : |m - x| < |y - x| := by
      have hy := (abs_lt.1 hsmall).2
      calc |m - x| ≤ |(2 ^ 52 : Int) - x| := hint (2 ^ 52)
        _ = x - 2 ^ 52 := by push_cast; rw [abs_sub_comm]; exact abs_of_nonneg (by linarith)
        _ < x - y := by linarith
        _ = |y - x| := by rw [abs_sub_comm]; exact (abs_of_nonneg (by linarith)).symm
    exact ⟨hlt.le, fun _ htie => absurd htie hlt.ne⟩

/-- An encoding of `m / 2 ^ s` is a nearest one to `x` if `m` is the integer nearest to `x * 2 ^ s`, even on a tie,
and `x * 2 ^ s` fills the 53 bits of a significand. -/
theorem isF64Nearest_of_significand {v : BitVec 64} {x : ℚ} {m : Int} {s : Nat} (hfin : f64Finite v)
    (hv : f64Value v = m / 2 ^ s) (hx : 2 ^ 52 ≤ x * 2 ^ s) (hm : |m - x * 2 ^ s| ≤ 1 / 2)
    (heven : |m - x * 2 ^ s| = 1 / 2 → v.getLsbD 0 = false) : IsF64Nearest v x := by
  refine ⟨hfin, fun c _ => ?_⟩
  have hpos : (0 : ℚ) < 2 ^ s := by positivity
  have hscale (z : ℚ) : |z - x| = |z * 2 ^ s - x * 2 ^ s| / 2 ^ s := by
    rw [← sub_mul, abs_mul, abs_of_pos hpos, mul_div_cancel_right₀ _ hpos.ne']
  have hvm : f64Value v * 2 ^ s = m := by rw [hv, div_mul_cancel₀ _ hpos.ne']
  have hc := scaled_significand_integral_or_small (f64Exponent c) 1075 s (abs_signed_mantissa_lt c)
  rw [← f64Value_eq] at hc
  obtain ⟨hle, htie⟩ := nearest_integer_is_nearest hx hm hc
  rw [hscale, hscale, hvm, div_le_div_iff_of_pos_right hpos, div_left_inj' hpos.ne']
  refine ⟨hle, fun hne heq => heven (htie (fun h => hne ?_) heq)⟩
  exact mul_right_cancel₀ hpos.ne' (h.trans hvm.symm)

/-! ### The encoding of a significand -/

/-- `f64Magnitude` as a function of the exponent field and the significand. -/
def f64Packed (e m : Nat) : BitVec 64 := BitVec.ofNat 64 (e * 2 ^ 52 + m - 2 ^ 52)

theorem f64Magnitude_eq_packed (a b : Nat) :
    f64Magnitude a b = f64Packed (1075 - f64Scale a b) (f64Significand a b) := rfl

/-- The carry of rounding up to 2 ^ 53. -/
theorem f64Packed_carry (e : Nat) : f64Packed e (2 ^ 53) = f64Packed (e + 1) (2 ^ 52) :=
  congrArg (BitVec.ofNat 64) (by omega)

theorem f64Packed_toNat {e m : Nat} (he : e < 2047) (hm : 2 ^ 52 ≤ m) (hm' : m < 2 ^ 53) :
    (f64Packed e m).toNat = e * 2 ^ 52 + (m - 2 ^ 52) := by
  simp only [f64Packed, BitVec.toNat_ofNat]
  omega

theorem f64Packed_exponentField {e m : Nat} (he : e < 2047) (hm : 2 ^ 52 ≤ m) (hm' : m < 2 ^ 53) :
    ((f64Packed e m).extractLsb' 52 11).toNat = e := by
  rw [BitVec.extractLsb'_toNat, f64Packed_toNat he hm hm', Nat.shiftRight_eq_div_pow]
  omega

theorem f64Packed_fraction {e m : Nat} (he : e < 2047) (hm : 2 ^ 52 ≤ m) (hm' : m < 2 ^ 53) :
    ((f64Packed e m).extractLsb' 0 52).toNat = m - 2 ^ 52 := by
  rw [BitVec.extractLsb'_toNat, f64Packed_toNat he hm hm', Nat.shiftRight_zero]
  omega

theorem f64Packed_signBit {e m : Nat} (he : e < 2047) (hm : 2 ^ 52 ≤ m) (hm' : m < 2 ^ 53) :
    (f64Packed e m).getLsbD 63 = false := by
  apply Nat.testBit_lt_two_pow
  rw [f64Packed_toNat he hm hm']
  omega

/-- `v` is the normal encoding without sign of the significand `m` at the exponent field `e`, or at the next one where
`m` is 2 ^ 53. -/
structure EncodesSignificand (v : BitVec 64) (e m : Nat) : Prop where
  normal : f64Normal v
  unsigned : v.getLsbD 63 = false
  value : f64Value v = m * 2 ^ e / 2 ^ 1075
  even : m % 2 = 0 → v.getLsbD 0 = false

theorem f64Packed_encodes {e m : Nat} (he : 1 ≤ e) (he' : e < 2047) (hm : 2 ^ 52 ≤ m) (hm' : m < 2 ^ 53) :
    EncodesSignificand (f64Packed e m) e m := by
  have hexp := f64Packed_exponentField he' hm hm'
  have hfrac := f64Packed_fraction he' hm hm'
  have hsign := f64Packed_signBit he' hm hm'
  refine ⟨⟨by rw [f64Finite, hexp]; omega, by rw [hexp]; omega⟩, hsign, ?value, fun heven => ?even⟩
  case value =>
    have hmant : f64Mantissa (f64Packed e m) = m := by
      rw [f64Mantissa, hexp, hfrac, if_neg (by omega)]
      omega
    have hexponent : f64Exponent (f64Packed e m) = e := by
      rw [f64Exponent, hexp, max_eq_right he]
    rw [f64Value_eq, hmant, hexponent, f64Sign, hsign]
    push_cast
    simp
  case even =>
    rw [BitVec.getLsbD, f64Packed_toNat he' hm hm', Nat.testBit_zero, decide_eq_false_iff_not]
    omega

theorem f64Packed_encodes_carry {e : Nat} (he' : e < 2046) :
    EncodesSignificand (f64Packed e (2 ^ 53)) e (2 ^ 53) := by
  obtain ⟨hnormal, hsign, hvalue, heven⟩ :=
    f64Packed_encodes (e := e + 1) (m := 2 ^ 52) (by omega) (by omega) le_rfl (by norm_num)
  rw [f64Packed_carry]
  refine ⟨hnormal, hsign, hvalue.trans (congrArg (· / 2 ^ 1075) ?_), fun _ => heven (by norm_num)⟩
  push_cast
  ring

/-! ### The rounded significand -/

/-- `rneInt_abs_sub_spec` as a distance from the quotient. -/
theorem rneInt_near_div (num : Int) {den : Nat} (h : 0 < den) :
    |(rneInt num den : ℚ) - num / den| ≤ 1 / 2 ∧
      (|(rneInt num den : ℚ) - num / den| = 1 / 2 → rneInt num den % 2 = 0) := by
  have hd : (0 : ℚ) < den := by exact_mod_cast h
  have habs : |(rneInt num den : ℚ) - num / den| = (|rneInt num den * den - num| : Int) / den := by
    push_cast
    rw [← abs_of_pos hd, ← abs_div, abs_of_pos hd, sub_div, mul_div_cancel_right₀ _ hd.ne']
  rw [habs, div_le_div_iff₀ hd two_pos, div_eq_div_iff hd.ne' two_ne_zero, one_mul, mul_comm _ (2 : ℚ)]
  exact_mod_cast rneInt_abs_sub_spec num h

/-- At its scale `a / b` has 53 bits before the point. -/
theorem f64Scale_spec {a b : Nat} (ha : a ≠ 0) (hb : b ≠ 0) (hlog : a.log2 ≤ 52 + b.log2) :
    b * 2 ^ 52 ≤ a * 2 ^ f64Scale a b ∧ a * 2 ^ f64Scale a b < b * 2 ^ 53 := by
  obtain ⟨s, hs⟩ := Nat.exists_eq_add_of_le hlog
  have hpow : 2 ^ a.log2 * 2 ^ s = 2 ^ 52 * 2 ^ b.log2 := by rw [← pow_add, ← pow_add, hs]
  have halo : 2 ^ a.log2 * 2 ^ s ≤ a * 2 ^ s := Nat.mul_le_mul_right _ (Nat.log2_self_le ha)
  have hahi : a * 2 ^ s < 2 ^ (a.log2 + 1) * 2 ^ s := Nat.mul_lt_mul_of_pos_right Nat.lt_log2_self (by positivity)
  have hblo := Nat.log2_self_le hb
  have hbhi : b < 2 ^ (b.log2 + 1) := Nat.lt_log2_self
  have hscale : f64Scale a b = if a * 2 ^ s < b * 2 ^ 52 then s + 1 else s := by
    rw [f64Scale, hs, Nat.add_sub_cancel_left]
  rw [pow_succ, mul_right_comm] at hahi
  rw [pow_succ] at hbhi
  rw [hscale]
  split
  · rw [pow_succ 2 s, ← mul_assoc]
    omega
  · omega

theorem f64Scale_le (a b : Nat) : f64Scale a b ≤ 53 + b.log2 := by
  unfold f64Scale
  dsimp only
  split <;> omega

/-- The significand is the integer nearest to the scaled quotient, even on a tie. -/
theorem f64Significand_near (a : Nat) {b : Nat} (hb : 0 < b) :
    |(f64Significand a b : ℚ) - (a / b : ℚ) * 2 ^ f64Scale a b| ≤ 1 / 2 ∧
      (|(f64Significand a b : ℚ) - (a / b : ℚ) * 2 ^ f64Scale a b| = 1 / 2 → f64Significand a b % 2 = 0) := by
  have hnonneg : 0 ≤ rneInt (a * 2 ^ f64Scale a b) b := rneInt_nonneg _ _ (by positivity)
  have hsig : (f64Significand a b : Int) = rneInt (a * 2 ^ f64Scale a b) b := Int.toNat_of_nonneg hnonneg
  have hnear := rneInt_near_div (a * 2 ^ f64Scale a b) hb
  rw [← hsig] at hnear
  push_cast at hnear
  rw [div_mul_eq_mul_div]
  exact ⟨hnear.1, fun htie => by exact_mod_cast hnear.2 htie⟩

/-- The scaled quotient lies where significands do, and so does the integer nearest to it. -/
theorem f64Significand_bounds {a b : Nat} (hb : 0 < b) (hlo : (2 ^ 52 : ℚ) ≤ (a / b : ℚ) * 2 ^ f64Scale a b)
    (hhi : (a / b : ℚ) * 2 ^ f64Scale a b < 2 ^ 53) : 2 ^ 52 ≤ f64Significand a b ∧ f64Significand a b ≤ 2 ^ 53 := by
  obtain ⟨hbelow, habove⟩ := abs_le.1 (f64Significand_near a hb).1
  have hsigLo : (2 ^ 52 : ℚ) < f64Significand a b + 1 := by linarith
  have hsigHi : (f64Significand a b : ℚ) < 2 ^ 53 + 1 := by linarith
  norm_cast at hsigLo hsigHi
  omega

/-- The formula of `f64Magnitude` encodes the rounded significand, carried or not. -/
theorem f64Magnitude_encodes {a b : Nat} (hs : f64Scale a b ≤ 1074) (hlo : 2 ^ 52 ≤ f64Significand a b)
    (hhi : f64Significand a b ≤ 2 ^ 53) :
    EncodesSignificand (f64Magnitude a b) (1075 - f64Scale a b) (f64Significand a b) := by
  rw [f64Magnitude_eq_packed]
  obtain hcarry | hlt := hhi.eq_or_lt
  · rw [hcarry]
    exact f64Packed_encodes_carry (by omega)
  · exact f64Packed_encodes (by omega) (by omega) hlo hlt

/-- `f64Magnitude a b` is `f64_rne (a / b)`, a normal number, where `a / b` is not too large for a scale and not below
the normal range. -/
theorem f64Magnitude_nearest {a b : Nat} (ha : a ≠ 0) (hb : b ≠ 0) (hab : a.log2 ≤ 52 + b.log2)
    (hlog : b.log2 ≤ 1021) :
    IsF64Nearest (f64Magnitude a b) (a / b) ∧ f64Normal (f64Magnitude a b) ∧
      (f64Magnitude a b).getLsbD 63 = false := by
  have hb0 : 0 < b := Nat.pos_of_ne_zero hb
  have hs : f64Scale a b ≤ 1074 := (f64Scale_le a b).trans (by omega)
  obtain ⟨hlo, hhi⟩ : (2 ^ 52 : ℚ) ≤ (a / b : ℚ) * 2 ^ f64Scale a b ∧
      (a / b : ℚ) * 2 ^ f64Scale a b < 2 ^ 53 := by
    rw [div_mul_eq_mul_div, le_div_iff₀' (by positivity), div_lt_iff₀' (by positivity)]
    exact_mod_cast f64Scale_spec ha hb hab
  obtain ⟨hsigLo, hsigHi⟩ := f64Significand_bounds hb0 hlo hhi
  obtain ⟨hnormal, hsign, hvalue, heven⟩ := f64Magnitude_encodes hs hsigLo hsigHi
  obtain ⟨hhalf, htie⟩ := f64Significand_near a hb0
  refine ⟨isF64Nearest_of_significand (m := f64Significand a b) hnormal.1 ?_ hlo (by simpa using hhalf)
    (fun h => heven (htie (by simpa using h))), hnormal, hsign⟩
  have hpow : (2 : ℚ) ^ 1075 = 2 ^ (1075 - f64Scale a b) * 2 ^ f64Scale a b := by
    rw [← pow_add, Nat.sub_add_cancel (by omega)]
  rw [hvalue, hpow]
  field_simp
  simp

/-! ### CAP_F64 (rules R127, R128) -/

theorem capF64_of_zero (n : Int) : capF64 n 0 = if n < 0 then f64SignBit else 0 := if_pos rfl

theorem capF64_of_pos {n q : Int} (hq : 0 < q) : capF64 n q = f64Magnitude q.natAbs 10000 := by
  rw [capF64, if_neg (by omega), if_neg (by omega)]

theorem capF64_of_neg {n q : Int} (hq : q < 0) : capF64 n q = f64SignBit ||| f64Magnitude q.natAbs 10000 := by
  rw [capF64, if_neg (by omega), if_pos hq]

/-- The magnitude of CAP_F64, for a CAP_Q in its range. -/
theorem capMagnitude_nearest {q : Int} (hq : q ≠ 0) (hlt : q.natAbs < 2 ^ 26) :
    IsF64Nearest (f64Magnitude q.natAbs 10000) (q.natAbs / 10 ^ 4) ∧ f64Normal (f64Magnitude q.natAbs 10000) ∧
      (f64Magnitude q.natAbs 10000).getLsbD 63 = false := by
  have ha : q.natAbs ≠ 0 := Int.natAbs_ne_zero.2 hq
  have hlog : q.natAbs.log2 < 26 := (Nat.log2_lt ha).2 hlt
  have hden : Nat.log2 10000 = 13 := by decide
  have hnear := f64Magnitude_nearest (b := 10000) ha (by decide) (by omega) (by omega)
  rwa [show ((10000 : Nat) : ℚ) = 10 ^ 4 by norm_num] at hnear

/-- Settles O35: the magnitude is the nearest binary64 to |CAP_Q| / 10^4, and for a negative CAP_Q the sign bit negates
both. -/
theorem capF64IsTheNearestBinary64 : Obligations.CapF64IsTheNearestBinary64 := by
  intro raw c n q
  obtain ⟨hlo, hhi⟩ : -40960000 ≤ q ∧ q ≤ 41928750 := capQ_bounds raw c
  refine ⟨fun hq => ?_, fun hq => hq ▸ capF64_of_zero n⟩
  obtain ⟨hnear, hnormal, hunsigned⟩ := capMagnitude_nearest hq (by omega)
  obtain hneg | hpos := lt_or_gt_of_ne hq
  · have hx : (q : ℚ) / 10 ^ 4 = -(q.natAbs / 10 ^ 4) := by
      rw [Nat.cast_natAbs, abs_of_neg hneg, Int.cast_neg, neg_div, neg_neg]
    rw [capF64_of_neg hneg, signBit_or_eq_xor hunsigned, hx]
    exact ⟨isF64Nearest_neg hnear, (f64Normal_signBit_xor _).2 hnormal⟩
  · have hx : (q : ℚ) / 10 ^ 4 = q.natAbs / 10 ^ 4 := by rw [Nat.cast_natAbs, abs_of_pos hpos]
    rw [capF64_of_pos hpos, hx]
    exact ⟨hnear, hnormal⟩

end Sys2Proof.Proofs

/-! PROOF. The decoder of 30_encoding.md: the words it accepts, and the commands of 40_control.md that a word written
to CMD runs. -/

namespace Sys2Proof.Proofs

open Sys2Proof.Machine

/-! ### The decoder's image (rules R76, R85) -/

/-- A well-formed command's word decodes to it: the laws of the six commands, put together. -/
theorem decode_encode {i : Instr} (h : i.wf = true) : decode (encode i) = .ok i := by
  cases i with
  | softReset => exact (Laws.EncodesItsFields.softReset h).2.2
  | readExact => exact (Laws.EncodesItsFields.readExact h).2.2
  | exchangeDec a => exact (Laws.EncodesItsFields.exchangeDec a h).2.2
  | exchangeLit a c => exact (Laws.EncodesItsFields.exchangeLit a c h).2.2
  | decodeFrames => exact (Laws.EncodesItsFields.decodeFrames h).2.2
  | flushRx => exact (Laws.EncodesItsFields.flushRx h).2.2

/-- A word is known by its four fields. -/
theorem eq_commandWord {w : Word} {rsv lit ack opc : Byte} (hr : rsvField w = rsv) (hl : litField w = lit)
    (ha : ackField w = ack) (ho : opcField w = opc) : commandWord rsv lit ack opc = w := by
  rw [← commandWord_fields w, hr, hl, ha, ho]

/-- What `decode` accepts is the word of a well-formed command: row by row of the opcode table, the fields that the row
fixes make the word the encoding. -/
theorem encode_of_decode {w : Word} {i : Instr} (h : decode w = .ok i) : i.wf = true ∧ encode i = w := by
  have hplain {j : Instr} (ho : encode j = commandWord 0 0 0 (opcField w)) (hj : j.wf = true) (hr : rsvField w = 0)
      (h : decodePlain (ackField w) (litField w) j = .ok i) : i.wf = true ∧ encode i = w := by
    obtain ⟨ha, hl, rfl⟩ := (decodePlain_ok ..).1 h
    exact ⟨hj, ho.trans (eq_commandWord hr hl ha rfl)⟩
  unfold decode at h
  dsimp only at h
  by_cases hr : rsvField w = 0
  case neg =>
    rw [if_pos hr] at h
    cases h
  rw [if_neg (not_not.2 hr)] at h
  split at h
  case isTrue ho => exact hplain (by rw [ho]; rfl) rfl hr h
  split at h
  case isTrue ho => exact hplain (by rw [ho]; rfl) rfl hr h
  split at h
  case isTrue ho =>
    split at h <;> cases h
    rename_i hl
    exact ⟨rfl, eq_commandWord hr (not_not.1 hl) rfl ho⟩
  split at h
  case isTrue ho =>
    split at h <;> cases h
    rename_i hl
    exact ⟨by simpa [Instr.wf] using hl, eq_commandWord hr rfl rfl ho⟩
  split at h
  case isTrue ho => exact hplain (by rw [ho]; rfl) rfl hr h
  split at h
  case isTrue ho => exact hplain (by rw [ho]; rfl) rfl hr h
  cases h

/-- Settles O1: the two directions are `encode_of_decode` and `decode_encode`. -/
theorem decodeAcceptsExactlyTheEncodings : Obligations.DecodeAcceptsExactlyTheEncodings :=
  fun _ _ => ⟨encode_of_decode, fun ⟨hwf, hw⟩ => hw ▸ decode_encode hwf⟩

/-- Settles O4: each of the six words is the encoding of its command. -/
theorem wordsOfTheSpecDecode : Obligations.WordsOfTheSpecDecode :=
  ⟨decode_encode (i := .softReset) rfl, decode_encode (i := .readExact) rfl, decode_encode (i := .exchangeDec 0x01) rfl,
    decode_encode (i := .exchangeLit 0x02 0x53) rfl, decode_encode (i := .decodeFrames) rfl,
    decode_encode (i := .flushRx) rfl⟩

/-! ### A write to CMD, by STATE (40_control.md rules R87 to R89) -/

/-- The launches that `accept` guards, each under its opcode. -/
inductive Launch : Byte → (State → State) → Prop where
  | illegal (opc : Byte) : Launch opc (raise .illegalCommand)
  | readExact : Launch 0x02 launchReadExact
  | exchange (opc a : Byte) (f : ValueForm) : Launch opc (launchExchange a f)
  | decode : Launch 0x05 launchDecode
  | flush : Launch 0x06 (fun s => setEngine .done (rxFlush s))

/-- Every command but SOFT_RESET goes through `accept`. -/
theorem exec_eq_accept {i : Instr} (h : i ≠ .softReset) :
    ∃ opc body, Launch opc body ∧ ∀ s, exec i s = accept opc body s := by
  cases i with
  | softReset => exact absurd rfl h
  | readExact => exact ⟨_, _, .readExact, fun _ => rfl⟩
  | exchangeDec a => exact ⟨_, _, .exchange 0x03 a .dec, fun _ => rfl⟩
  | exchangeLit a c =>
    refine ⟨0x04, if 0x7F < c then raise .illegalCommand else launchExchange a (.lit c), ?_, fun _ => rfl⟩
    split
    · exact .illegal 0x04
    · exact .exchange 0x04 a (.lit c)
  | decodeFrames => exact ⟨_, _, .decode, fun _ => rfl⟩
  | flushRx => exact ⟨_, _, .flush, fun _ => rfl⟩

/-- Every word but SOFT_RESET's goes through `accept`. -/
theorem cmdWrite_eq_accept {w : Word} (h : w ≠ 0x00000001) :
    ∃ opc body, Launch opc body ∧ ∀ s, cmdWrite w s = accept opc body s := by
  cases hw : decode w with
  | ok i =>
    have hi : i ≠ .softReset := by
      rintro rfl
      exact h (encode_of_decode hw).2.symm
    obtain ⟨opc, body, hl, hex⟩ := exec_eq_accept hi
    exact ⟨opc, body, hl, fun s => by rw [cmdWrite, hw]; exact hex s⟩
  | error e => exact ⟨_, _, .illegal (opcField w), fun s => by rw [cmdWrite, hw]; rfl⟩

theorem cmdWrite_softReset (s : State) : cmdWrite 0x00000001 s = exec .softReset s := by
  rw [cmdWrite, show decode 0x00000001 = .ok .softReset from decode_encode (i := .softReset) rfl]

theorem exec_softReset_of_not_busy {s : State} (h : ¬ s.isBusy) : exec .softReset s = .next (resetRegisters s) := by
  simp only [exec, execSoftReset]
  split
  case h_4 hb => exact absurd hb h
  all_goals rfl

theorem exec_softReset_of_busy {s : State} (h : s.isBusy) : exec .softReset s = .next (overrun s) := by
  simp only [exec, execSoftReset, show s.status.state = .busy from h]

theorem cmdWrite_of_busy (w : Word) {s : State} (h : s.isBusy) : cmdWrite w s = .next (overrun s) := by
  by_cases hw : w = 0x00000001
  · rw [hw, cmdWrite_softReset, exec_softReset_of_busy h]
  · obtain ⟨opc, body, -, hacc⟩ := cmdWrite_eq_accept hw
    rw [hacc, accept_of_dropped (.inl h)]

theorem cmdWrite_of_error {w : Word} (hw : w ≠ 0x00000001) {s : State} (h : s.status.state = .error) :
    cmdWrite w s = .next (overrun s) := by
  obtain ⟨opc, body, -, hacc⟩ := cmdWrite_eq_accept hw
  rw [hacc, accept_of_dropped (.inr h)]

theorem cmdWrite_of_decode {w : Word} {i : Instr} (h : decode w = .ok i) (s : State) : cmdWrite w s = exec i s := by
  rw [cmdWrite, h]

/-- Settles O5: all words but SOFT_RESET's share `accept`, and a drop is an update of OVR and its record. -/
theorem cmdWriteIsHandledByState : Obligations.CmdWriteIsHandledByState := by
  intro w s
  refine ⟨cmdWrite_of_busy w, fun he => ?error, fun ha => ?accepts, rfl, rfl, regsKept_of_status _ s, fun _ => rfl,
    ⟨rfl, rfl⟩, ⟨rfl, rfl⟩, rfl, ⟨rfl, rfl⟩, rfl, rfl, rfl, rfl⟩
  case error =>
    split
    case isTrue hw => rw [hw, cmdWrite_softReset]
    case isFalse hw => exact cmdWrite_of_error hw he
  case accepts =>
    cases hw : decode w with
    | ok i => exact cmdWrite_of_decode hw s
    | error e => exact cmdWrite_of_illegal ha ⟨e, hw⟩

/-! ### SOFT_RESET and FLUSH_RX (rules R92, R93) -/

/-- Every register reads its reset value after a reset, whatever the other fields hold. -/
theorem readReg_resetRegisters (r : Reg) (s : State) : readReg r (resetRegisters s) = resetValue r := by
  cases r with
  | status => exact (rfl : Status.reset.word = 0)
  | _ => rfl

/-- Settles O6: outside BUSY the command is `resetRegisters`. -/
theorem softResetRestoresTheResetValues : Obligations.SoftResetRestoresTheResetValues := by
  refine ⟨rfl, fun s => ⟨fun h => ?_, exec_softReset_of_busy⟩⟩
  exact ⟨_, exec_softReset_of_not_busy h, rfl, fun r => readReg_resetRegisters r s, rfl, rfl, rfl, fun _ => rfl,
    ⟨rfl, rfl⟩, rfl, rfl, rfl, rfl, rfl⟩

theorem exec_flushRx_of_accepts {s : State} (h : s.accepts) :
    exec .flushRx s = .next (setEngine .done (rxFlush (launching 0x06 s))) :=
  accept_of_accepts (body := fun s => setEngine .done (rxFlush s)) h

/-- The only legal word with a command's opcode byte is that of the command, where it has no operands. -/
theorem decode_error_of_flushRx_opcode {w : Word} (ho : opcField w = 0x06) (hw : w ≠ 0x00000006) :
    ∃ e, decode w = .error e := by
  cases h : decode w with
  | error e => exact ⟨e, rfl⟩
  | ok i =>
    obtain ⟨-, rfl⟩ := encode_of_decode h
    cases i with
    | flushRx => exact absurd rfl hw
    | _ => simp [encode] at ho

/-- Settles O7: the launch empties RXQ and writes STATUS, and any other word of opcode 0x06 is illegal. -/
theorem flushRxEmptiesTheFifo : Obligations.FlushRxEmptiesTheFifo := by
  refine ⟨rfl, fun s ha => ⟨⟨_, exec_flushRx_of_accepts ha, rfl, rfl, rfl, regsKept_of_rxq_status [] _ s, fun _ => rfl,
    ⟨rfl, rfl⟩, rfl, ⟨rfl, rfl⟩, rfl, rfl, rfl, rfl, rfl⟩, fun w ho hw => ?_⟩⟩
  rw [cmdWrite_of_illegal ha (decode_error_of_flushRx_opcode ho hw), ho]

end Sys2Proof.Proofs

/-! PROOF. Which fields each operation of the model may change, once for each, as an equation: everything that is not
named is the old state's. -/

namespace Sys2Proof.Proofs

open Sys2Proof.Machine

theorem launchReadExact_frame (s : State) : launchReadExact s =
    { s with status := (launchReadExact s).status, br := (launchReadExact s).br } := by
  by_cases h : s.cfg.accSize < s.arg0.toNat
  · rw [launchReadExact, if_pos h]
    rfl
  · rw [launchReadExact, if_neg h, brCheck_eq_status_update]
    rfl

theorem launchExchange_frame (a : Byte) (f : ValueForm) (s : State) : launchExchange a f s =
    { s with
      status := (launchExchange a f s).status, hv := (launchExchange a f s).hv
      txh := s.txh ++ [a], txCount := s.txCount + 1 } := by
  rw [launchExchange, hvCheck_eq_status_update]
  rfl

theorem launchDecode_frame (s : State) : launchDecode s =
    { s with status := (launchDecode s).status, fp := (launchDecode s).fp } := by
  by_cases h : s.cfg.accSize < s.arg0.toNat
  · rw [launchDecode, if_pos h]
    rfl
  · rw [launchDecode, if_neg h]
    rfl

theorem writeReg_frame (r : Reg) (w : Word) (s : State) : writeReg r w s =
    { s with
      arg0 := (writeReg r w s).arg0, arg1 := (writeReg r w s).arg1, capdac := (writeReg r w s).capdac
      hvMaxwait := (writeReg r w s).hvMaxwait, hvOutermax := (writeReg r w s).hvOutermax } := by
  cases r <;> rfl

theorem storeAcc_frame (u : Target) (w : Word) (s : State) :
    storeAcc u w s = { s with mem := (storeAcc u w s).mem } := by
  cases u <;> rfl

theorem brRead_frame (s : State) : brRead s =
    { s with
      status := (brRead s).status, br := (readAppended s).br, mem := (readAppended s).mem
      rxq := s.rxq.drop s.br.r.toNat } := by
  rw [brRead_eq_check, brCheck_eq_status_update]
  rfl

theorem hvEmptyPoll_frame (s : State) : hvEmptyPoll s =
    { s with
      status := (hvEmptyPoll s).status, hv.inner := s.hv.inner + 1, hv.outer := s.hv.outer + 1 } := by
  rw [hvEmptyPoll, hvCheck_eq_status_update]

/-- The text is sent or nothing is. -/
theorem hvReceive_frame (b : Byte) (s : State) : ∃ bs, hvReceive b s =
    { s with
      status := (hvReceive b s).status, hv.inner := (hvReceive b s).hv.inner
      txh := s.txh ++ bs, txCount := s.txCount + BitVec.ofNat 32 bs.length } := by
  have hnone : s = { s with txh := s.txh ++ [], txCount := s.txCount + BitVec.ofNat 32 0 } := by simp
  obtain ⟨-, h⟩ | ⟨-, -, h⟩ | ⟨-, -, h⟩ := hvReceive_cases b s <;> rw [h]
  · exact ⟨[], congrArg (raiseMismatch b) hnone⟩
  · exact ⟨s.hv.text, rfl⟩
  · exact ⟨[], congrArg (setEngine .done) hnone⟩

end Sys2Proof.Proofs

/-! PROOF. What every step keeps, move by move (`step_preserves`): the parameters and the model faults, TXH, an error,
and the invariant of the registers and the control position. -/

namespace Sys2Proof.Proofs

open Sys2Proof.Machine

/-! ### The invariant of the registers (10_state.md, 41_bounded_reader.md, 42_handshake.md) -/

theorem ne_error_of_isBusy {s : State} (h : s.isBusy) : s.status.state ≠ .error := by
  rw [show s.status.state = .busy from h]
  decide

/-- The part of the invariant that does not look at STATE, with no error raised. Every launch and every engine step
works on such registers, and ends with them in DONE, in ERROR or under way. -/
structure Sound (s : State) : Prop where
  config : s.cfg.wf = true
  noError : s.status.err = .none
  rxbyte : s.status.rxbyte = 0
  overrunRecorded : s.status.ovr = true → s.modelFaults.hostOverrun = true
  lenBound : s.br.len ≤ s.br.n
  emptyBound : s.br.empty ≤ s.br.max
  targetBound : s.br.n.toNat ≤ s.cfg.accSize

/-- A legal state outside ERROR is sound. -/
theorem Sound.of_controlInv {s : State} (h : s.ControlInv) (he : s.status.state ≠ .error) : Sound s :=
  ⟨h.config, h.errCode.2 he, not_not.1 fun hr => he (h.rxbyte hr).1, h.overrunRecorded, h.lenBound, h.emptyBound,
    h.targetBound⟩

theorem Sound.launching {s : State} (h : s.ControlInv) (ha : s.accepts) (opc : Byte) : Sound (launching opc s) := by
  have he : s.status.state ≠ .error := by
    obtain ha | ha := ha <;> simp [ha]
  exact { Sound.of_controlInv h he with rxbyte := rfl }

/-- Outside BUSY and ERROR sound registers are legal. -/
theorem Sound.resting {s : State} (h : Sound s) (ha : s.accepts) : s.ControlInv := by
  have he : s.status.state ≠ .error := by
    obtain ha | ha := ha <;> simp [ha]
  have hb : ¬ s.isBusy := by
    obtain ha | ha := ha <;> simp [State.isBusy, ha]
  exact
    { h with
      errCode := iff_of_true h.noError he
      rxbyte := fun hr => absurd h.rxbyte hr
      busyOp := fun hb' => absurd hb' hb
      readProgress := fun hx => absurd hx.1 hb
      exchangeProgress := fun hx => absurd hx.1 hb
      exchangeText := fun hx => absurd hx.1 hb
      decodeBound := fun hx => absurd hx.1 hb }

theorem Sound.done {s : State} (h : Sound s) : (setEngine .done s).ControlInv :=
  Sound.resting { h with } (.inr rfl)

theorem Sound.raise {s : State} (h : Sound s) {c : ErrCode} (hc : c ≠ .none) : (raise c s).ControlInv :=
  { h with
    errCode := iff_of_false hc (not_not.2 rfl)
    rxbyte := fun hr => absurd h.rxbyte hr
    busyOp := fun hb => nomatch hb
    readProgress := fun hx => nomatch hx.1
    exchangeProgress := fun hx => nomatch hx.1
    exchangeText := fun hx => nomatch hx.1
    decodeBound := fun hx => nomatch hx.1 }

/-- A mismatch records the byte, which the invariant allows to that error alone. -/
theorem Sound.raiseMismatch {s : State} (h : Sound s) (b : Byte) : (raiseMismatch b s).ControlInv :=
  { h.raise (c := .protocolMismatch) (by decide) with rxbyte := fun _ => ⟨rfl, rfl⟩ }

/-- While BUSY sound registers are legal if the running command's own clauses hold. -/
theorem Sound.running {s : State} (h : Sound s) (hb : s.isBusy)
    (hop : s.status.op = 0x02 ∨ s.status.op = 0x03 ∨ s.status.op = 0x04 ∨ s.status.op = 0x05)
    (hread : s.status.op = 0x02 → s.br.len < s.br.n ∧ s.br.empty < s.br.max ∧
      (s.br.sub = .read → 1 ≤ s.br.r.toNat ∧ s.br.r.toNat ≤ s.br.n.toNat - s.br.len.toNat))
    (hpoll : s.status.op = 0x03 ∨ s.status.op = 0x04 →
      (s.hv.inner < s.hvMaxwait ∧ s.hv.outer < s.hvOutermax ∧ s.hv.inner ≤ s.hv.outer) ∧
        1 ≤ s.hv.text.length ∧ s.hv.text.length ≤ 10)
    (hdecode : s.status.op = 0x05 → s.fp.dlen.toNat ≤ s.cfg.accSize) : s.ControlInv :=
  { h with
    errCode := iff_of_true h.noError (ne_error_of_isBusy hb)
    rxbyte := fun hr => absurd h.rxbyte hr
    busyOp := fun _ => hop
    readProgress := fun hx => hread hx.2
    exchangeProgress := fun hx => (hpoll hx.2).1
    exchangeText := fun hx => (hpoll hx.2).2
    decodeBound := fun hx => hdecode hx.2 }

theorem Sound.reading {s : State} (h : Sound s) (hb : s.inReadExact)
    (hp : s.br.len < s.br.n ∧ s.br.empty < s.br.max ∧
      (s.br.sub = .read → 1 ≤ s.br.r.toNat ∧ s.br.r.toNat ≤ s.br.n.toNat - s.br.len.toNat)) : s.ControlInv :=
  h.running hb.1 (.inl hb.2) (fun _ => hp) (by simp [hb.2]) (by simp [hb.2])

theorem Sound.exchanging {s : State} (h : Sound s) (hb : s.inExchange)
    (hp : s.hv.inner < s.hvMaxwait ∧ s.hv.outer < s.hvOutermax ∧ s.hv.inner ≤ s.hv.outer)
    (ht : 1 ≤ s.hv.text.length ∧ s.hv.text.length ≤ 10) : s.ControlInv := by
  refine h.running hb.1 (.inr (hb.2.imp id .inl)) ?_ (fun _ => ⟨hp, ht⟩) ?_ <;>
    obtain ⟨-, ho | ho⟩ := hb <;> simp [ho]

theorem Sound.decoding {s : State} (h : Sound s) (hb : s.inDecode) (hd : s.fp.dlen.toNat ≤ s.cfg.accSize) :
    s.ControlInv :=
  h.running hb.1 (.inr (.inr (.inr hb.2))) (by simp [hb.2]) (by simp [hb.2]) (fun _ => hd)

/-- The Bounded Reader's end check leaves a legal state. -/
theorem Sound.brCheck {s : State} (h : Sound s) (hb : s.inReadExact) (hsub : s.br.sub = .query) :
    (brCheck s).ControlInv := by
  have hl := h.lenBound
  obtain ⟨-, hc⟩ | ⟨-, -, hc⟩ | ⟨hlen, hleft, hc⟩ := brCheck_cases s <;> rw [hc]
  · exact h.done
  · exact h.raise (by decide)
  · exact h.reading hb ⟨by bv_omega, hleft, by simp [hsub]⟩

/-- The Handshake Validator's budget check leaves a legal state. -/
theorem Sound.hvCheck {s : State} (h : Sound s) (hb : s.inExchange) (hio : s.hv.inner ≤ s.hv.outer)
    (ht : 1 ≤ s.hv.text.length ∧ s.hv.text.length ≤ 10) : (hvCheck s).ControlInv := by
  obtain ⟨-, hc⟩ | ⟨hi, ho, hc⟩ := hvCheck_cases s <;> rw [hc]
  · exact h.raise (by decide)
  · exact h.exchanging hb ⟨hi, ho, hio⟩ ht

/-! ### Launches keep it -/

theorem controlInv_launchReadExact {s : State} (h : Sound s) (ho : s.status.op = 0x02) :
    (launchReadExact s).ControlInv := by
  unfold launchReadExact
  split
  · exact h.raise (by decide)
  · rename_i hfit
    have hs : Sound (setEngine .busy
        { s with br := { n := s.arg0, max := s.arg1, len := 0, empty := 0, sub := .query, r := 0 } }) :=
      { h with
        lenBound := Nat.zero_le _
        emptyBound := Nat.zero_le _
        targetBound := Nat.not_lt.1 hfit }
    exact hs.brCheck ⟨rfl, ho⟩ rfl

theorem formText_length (f : ValueForm) (s : State) : 1 ≤ (formText f s).length ∧ (formText f s).length ≤ 10 := by
  cases f with
  | dec => exact decText_length s.arg0
  | lit c => exact ⟨le_rfl, Nat.le_of_lt_succ (by simp [formText])⟩

theorem controlInv_launchExchange {s : State} (h : Sound s) (ho : s.status.op = 0x03 ∨ s.status.op = 0x04) (a : Byte)
    (f : ValueForm) : (launchExchange a f s).ControlInv := by
  have hs : Sound (setEngine .busy (txPut [a] (latchExchange a f s))) := { h with }
  exact hs.hvCheck ⟨rfl, ho⟩ (BitVec.le_refl _) (formText_length f s)

theorem controlInv_launchDecode {s : State} (h : Sound s) (ho : s.status.op = 0x05) : (launchDecode s).ControlInv := by
  unfold launchDecode
  split
  · exact h.raise (by decide)
  · rename_i hfit
    have hs : Sound (setEngine .busy { s with fp.dlen := s.arg0, fp.dc := s.capdac }) := { h with }
    exact hs.decoding ⟨rfl, ho⟩ (Nat.not_lt.1 hfit)

/-! ### Engine steps keep it -/

theorem controlInv_brQuery {s : State} (h : s.ControlInv) (hb : s.inReadExact) : (brQuery s).ControlInv := by
  obtain ⟨hl, he, -⟩ := h.readProgress hb
  have hlt : s.br.len.toNat < s.br.n.toNat := hl
  have hs : Sound (brQuery s) := { Sound.of_controlInv h (ne_error_of_isBusy hb.1) with }
  refine hs.reading hb ⟨hl, he, fun _ => ?_⟩
  rw [brQuery_r_toNat s hl]
  exact readSize_bounds _ _ (by omega)

/-- The bytes a READ step takes fit in what is missing, and an empty one fits in the budget. -/
theorem readAppended_bounds {s : State} (hl : s.br.len < s.br.n) (he : s.br.empty < s.br.max)
    (hr : s.br.r.toNat ≤ s.br.n.toNat - s.br.len.toNat) :
    (readAppended s).br.len ≤ s.br.n ∧ (readAppended s).br.empty ≤ s.br.max := by
  have hlt : s.br.len.toNat < s.br.n.toNat := hl
  have hempty := readAppended_empty_toNat he
  have hlen := readAppended_len_toNat (BitVec.le_of_lt hl) hr
  have htake := List.length_take_le s.br.r.toNat s.rxq
  rw [BitVec.lt_def] at he
  rw [BitVec.le_def, BitVec.le_def]
  constructor
  · omega
  · split at hempty <;> omega

theorem controlInv_brRead {s : State} (h : s.ControlInv) (hb : s.inReadExact) (hsub : s.br.sub = .read) :
    (brRead s).ControlInv := by
  obtain ⟨hl, he, hr⟩ := h.readProgress hb
  obtain ⟨hlen, hempty⟩ := readAppended_bounds hl he (hr hsub).2
  have hs : Sound (readAppended s) :=
    { Sound.of_controlInv h (ne_error_of_isBusy hb.1) with lenBound := hlen, emptyBound := hempty }
  exact hs.brCheck hb rfl

theorem controlInv_hvEmptyPoll {s : State} (h : s.ControlInv) (hb : s.inExchange) : (hvEmptyPoll s).ControlInv := by
  obtain ⟨hi, ho, hio⟩ := h.exchangeProgress hb
  have hs : Sound { s with hv.inner := s.hv.inner + 1, hv.outer := s.hv.outer + 1 } :=
    { Sound.of_controlInv h (ne_error_of_isBusy hb.1) with }
  have hio' : s.hv.inner + 1 ≤ s.hv.outer + 1 := by bv_omega
  exact hs.hvCheck hb hio' (h.exchangeText hb)

theorem controlInv_hvReceive {s : State} (h : s.ControlInv) (hb : s.inExchange) (b : Byte) (q : List Byte) :
    (hvReceive b { s with rxq := q }).ControlInv := by
  obtain ⟨hi, ho, -⟩ := h.exchangeProgress hb
  have hs : Sound { s with rxq := q } := { Sound.of_controlInv h (ne_error_of_isBusy hb.1) with }
  obtain ⟨-, hr⟩ | ⟨-, -, hr⟩ | ⟨-, -, hr⟩ := hvReceive_cases b { s with rxq := q } <;> rw [hr]
  · exact hs.raiseMismatch b
  · have hs' : Sound (acceptEcho { s with rxq := q }) := { hs with }
    have hi' : 0 < s.hvMaxwait := by bv_omega
    exact hs'.exchanging hb ⟨hi', ho, Nat.zero_le _⟩ (h.exchangeText hb)
  · exact hs.done

/-! ### Every move keeps it -/


theorem sound_resetRegisters {s : State} (hc : s.cfg.wf = true) : Sound (resetRegisters s) :=
  ⟨hc, rfl, rfl, (fun h => nomatch h), BitVec.le_refl _, BitVec.le_refl _, Nat.zero_le _⟩

/-- What every move keeps; the conditions under which it happens give the rest. -/
theorem controlInv_of_move {s t : State} (hm : Move s t) (h : s.ControlInv) : t.ControlInv := by
  cases hm with
  | stay => exact h
  | busError | draw | push => exact { h with }
  | drop => exact { h with overrunRecorded := fun _ => rfl }
  | softReset => exact (sound_resetRegisters h.config).resting (.inl rfl)
  | flush ha => exact Sound.done { Sound.launching h ha 0x06 with }
  | illegal opc ha => exact (Sound.launching h ha opc).raise (by decide)
  | readExact ha => exact controlInv_launchReadExact (.launching h ha _) rfl
  | exchange opc a f ha ho => exact controlInv_launchExchange (.launching h ha _) ho a f
  | decode ha => exact controlInv_launchDecode (.launching h ha _) rfl
  | store r w hb =>
    cases r with
    | hvMaxwait | hvOutermax => exact { h with exchangeProgress := fun hx => absurd hx.1 hb }
    | _ => exact { h with }
  | storeAcc off z u w =>
    rw [storeAcc_frame]
    exact { h with }
  | pin b =>
    obtain ⟨-, hd⟩ | ⟨-, -, hd⟩ | ⟨-, -, hd⟩ := driveReset_cases b s <;> rw [hd]
    · exact { h with }
    · exact Sound.resting { sound_resetRegisters h.config with } (.inl rfl)
    · exact h
  | query hb => exact controlInv_brQuery h hb
  | read hb hsub => exact controlInv_brRead h hb hsub
  | emptyPoll hb => exact controlInv_hvEmptyPoll h hb
  | receive b q hb => exact controlInv_hvReceive h hb b _
  | decodeStep fs hb => exact Sound.done { Sound.of_controlInv h (ne_error_of_isBusy hb.1) with }

/-- Settles O56: no move breaks the invariant, which does not look at the agents' fields. -/
theorem stepKeepsTheControlInvariant : Obligations.StepKeepsTheControlInvariant := by
  intro s t h hst
  exact step_preserves (P := State.ControlInv) (fun _ _ h => { h with }) (fun _ _ => controlInv_of_move) hst h

end Sys2Proof.Proofs

/-! PROOF. The invariant of memory, and with it the whole invariant: ACC is written inside its window, SAMPLE entries
whole (10_state.md rules R48, R49; 43_frame_parser.md rule R131). -/

namespace Sys2Proof.Proofs

open Sys2Proof.Machine

/-! ### Writes to ACC and to SAMPLE -/

/-- A legal configuration puts ACC below SAMPLE, both of whole frames. -/
theorem config_bounds {c : Config} (h : c.wf = true) :
    c.accSize % 8 = 0 ∧ c.accSize ≤ 0x00FF0000 ∧ 8 * c.maxSamples = c.accSize := by
  simp only [Config.wf, Bool.and_eq_true, beq_iff_eq, decide_eq_true_eq] at h
  refine ⟨h.1.1, h.2, ?_⟩
  rw [Config.maxSamples]
  omega

/-- ACC ends at or below the start of SAMPLE. -/
theorem acc_below_sample {c : Config} (h : c.wf = true) : accBase + c.accSize ≤ sampleBase := by
  have := (config_bounds h).2.1
  simp only [accBase, sampleBase]
  omega

theorem memoryInv_empty {s : State} (h : s.mem = []) : s.MemoryInv := by
  constructor <;> simp [h, Memory.read, cellGet]

/-- Bytes written inside ACC keep the invariant: SAMPLE lies above. -/
theorem memoryInv_writeBytes_acc {s t : State} (h : s.MemoryInv) (hc : s.cfg.wf = true) (hcfg : t.cfg = s.cfg) {i : Nat}
    {bs : List Byte} (hi : i + bs.length ≤ s.cfg.accSize) (hm : t.mem = s.mem.writeBytes (accBase + i) bs) :
    t.MemoryInv := by
  have hbelow := acc_below_sample hc
  have hsample (a : Nat) : t.mem.read (sampleBase + a) = s.mem.read (sampleBase + a) := by
    rw [hm]
    exact read_writeBytes_outside _ _ _ _ (by omega)
  refine ⟨hm ▸ writeBytes_wf _ _ _ h.canonical, fun a ha => ?_, fun j k hk => ?_, fun j k b hk hk' hb => ?_⟩
  · rw [hcfg]
    by_cases hin : accBase + i ≤ a ∧ a < accBase + i + bs.length
    · exact .inl (by omega)
    · rw [hm, read_writeBytes_outside _ _ _ _ hin] at ha
      exact h.inside a ha
  · rw [Nat.add_assoc, hsample, hsample, ← Nat.add_assoc]
    exact h.wholeEntries j k hk
  · rw [Nat.add_assoc, hsample, ← Nat.add_assoc] at hb
    exact h.reservedZero j k b hk hk' hb

/-- The last four bytes of an entry are its reserved word. -/
theorem sampleBytes_reserved (x : Sample) {k : Nat} (hk : 28 ≤ k) (hk' : k < 32) : (sampleBytes x)[k]? = some 0 := by
  rw [sampleBytes, List.getElem?_append_right (by simpa using hk)]
  simp only [List.length_append, leBytes_length, Nat.reduceAdd]
  rw [leBytes_getElem? _ _ _ (by omega)]
  simp

/-- Whole entries written from the start of SAMPLE keep the invariant. -/
theorem memoryInv_writeSamples {s t : State} (h : s.MemoryInv) (hcfg : t.cfg = s.cfg) {xs : List Sample}
    (hxs : xs.length ≤ s.cfg.maxSamples) (hm : t.mem = writeSamples s.mem 0 xs) : t.MemoryInv := by
  have hnew {j k : Nat} (hj : j < xs.length) (hk : k < 32) :
      t.mem.read (sampleBase + 32 * j + k) = (sampleBytes xs[j])[k]? := by
    have := read_writeSamples_inside s.mem 0 xs j k xs[j] (by simp) hk
    rwa [Nat.zero_add, ← hm] at this
  have hold {a : Nat} (ha : ¬(sampleBase ≤ a ∧ a < sampleBase + 32 * xs.length)) : t.mem.read a = s.mem.read a := by
    rw [hm]
    exact read_writeSamples_outside _ _ _ _ (by simpa using ha)
  refine ⟨hm ▸ writeSamples_wf _ _ _ h.canonical, fun a ha => ?_, fun j k hk => ?_, fun j k b hk hk' hb => ?_⟩
  · rw [hcfg]
    by_cases hin : sampleBase ≤ a ∧ a < sampleBase + 32 * xs.length
    · exact .inr ⟨hin.1, by simp only [sampleSize]; omega⟩
    · rw [hold hin] at ha
      exact h.inside a ha
  · simp only [sampleSize] at hk ⊢
    by_cases hj : j < xs.length
    · rw [hnew hj hk, show sampleBase + 32 * j = sampleBase + 32 * j + 0 from rfl, hnew hj (by omega)]
      simp [hk]
    · rw [hold (by omega), hold (by omega)]
      exact h.wholeEntries j k hk
  · simp only [sampleSize] at hk' hb
    by_cases hj : j < xs.length
    · rw [hnew hj hk', sampleBytes_reserved _ hk hk'] at hb
      exact (Option.some.inj hb).symm
    · rw [hold (by omega)] at hb
      exact h.reservedZero j k b hk hk' hb

/-! ### Which moves write memory -/

/-- The map of the window (20_memory.md rules R55, R58, R61): what an accepted access reaches, and where. -/
theorem busTarget_cases {c : Config} {off : Nat} {z : Size} {u : Target} (h : busTarget c off z = some u) :
    (z = .b1 ∧ (accBase ≤ off ∧ off < accBase + c.accSize) ∧ u = .accByte (off - accBase)) ∨
    (z = .b4 ∧ off % 4 = 0 ∧ off < 0x1000 ∧ ∃ r, regAt off = some r ∧ u = .reg r) ∨
    (z = .b4 ∧ off % 4 = 0 ∧ (accBase ≤ off ∧ off < accBase + c.accSize) ∧ u = .accWord (off - accBase)) ∨
    (z = .b4 ∧ off % 4 = 0 ∧ (sampleBase ≤ off ∧ off < sampleBase + sampleSize * c.maxSamples) ∧
      u = .sampleWord (off - sampleBase)) := by
  cases z <;> dsimp only [busTarget] at h
  case b2 => cases h
  case b1 =>
    split at h <;> cases h
    exact .inl ⟨rfl, by assumption, rfl⟩
  case b4 =>
    split at h
    case isTrue => cases h
    rename_i hmod
    have hmod := not_not.1 hmod
    split at h
    case isTrue hpage =>
      obtain ⟨r, hr, rfl⟩ := Option.map_eq_some_iff.1 h
      exact .inr (.inl ⟨rfl, hmod, hpage, r, hr, rfl⟩)
    split at h
    case isTrue hacc =>
      cases h
      exact .inr (.inr (.inl ⟨rfl, hmod, hacc, rfl⟩))
    split at h <;> cases h
    exact .inr (.inr (.inr ⟨rfl, hmod, by assumption, rfl⟩))

/-- What a host write may store: nothing, or bytes inside ACC; an aligned word lies inside because ACC_SIZE is a
multiple of 8. -/
theorem storeAcc_mem {s : State} (hc : s.cfg.wf = true) {off : Nat} {z : Size} {u : Target} (w : Word)
    (hu : busTarget s.cfg off z = some u) : (storeAcc u w s).mem = s.mem ∨
      ∃ i bs, i + bs.length ≤ s.cfg.accSize ∧ (storeAcc u w s).mem = s.mem.writeBytes (accBase + i) bs := by
  have hsize := (config_bounds hc).1
  have hbase : accBase % 8 = 0 := rfl
  obtain ⟨-, hin, rfl⟩ | ⟨-, -, -, r, -, rfl⟩ | ⟨-, hmod, hin, rfl⟩ | ⟨-, -, -, rfl⟩ := busTarget_cases hu
  · exact .inr ⟨off - accBase, [w.extractLsb' 0 8], by rw [List.length_singleton]; omega, rfl⟩
  · exact .inl rfl
  · exact .inr ⟨off - accBase, leBytes 4 w, by rw [leBytes_length]; omega, rfl⟩
  · exact .inl rfl

/-- Every move keeps the whole invariant of a state that meets it. -/
theorem memoryInv_of_move {s t : State} (hm : Move s t) (hc : s.ControlInv) (h : s.MemoryInv) : t.MemoryInv := by
  cases hm with
  | stay => exact h
  | busError | draw | drop | softReset | flush | illegal | push | query => exact { h with }
  | readExact =>
    rw [launchReadExact_frame]
    exact { h with }
  | exchange =>
    rw [launchExchange_frame]
    exact { h with }
  | decode =>
    rw [launchDecode_frame]
    exact { h with }
  | store =>
    rw [writeReg_frame]
    exact { h with }
  | storeAcc off z u w _ hu =>
    have hcfg : (storeAcc u w s).cfg = s.cfg := by rw [storeAcc_frame]
    obtain hmem | ⟨i, bs, hi, hmem⟩ := storeAcc_mem hc.config w hu
    · rw [storeAcc_frame, hmem]
      exact h
    · exact memoryInv_writeBytes_acc h hc.config hcfg hi hmem
  | pin b =>
    obtain ⟨-, hd⟩ | ⟨-, -, hd⟩ | ⟨-, -, hd⟩ := driveReset_cases b s <;> rw [hd]
    · exact { h with }
    · exact memoryInv_empty rfl
    · exact h
  | read hb hsub =>
    obtain ⟨hl, -, hr⟩ := hc.readProgress hb
    have htake := List.length_take_le s.br.r.toNat s.rxq
    have hl : s.br.len.toNat < s.br.n.toNat := hl
    have hfit := (hr hsub).2
    have htarget := hc.targetBound
    rw [brRead_frame]
    exact memoryInv_writeBytes_acc h hc.config rfl (i := s.br.len.toNat) (bs := s.rxq.take s.br.r.toNat) (by omega) rfl
  | emptyPoll =>
    rw [hvEmptyPoll_frame]
    exact { h with }
  | receive b =>
    obtain ⟨bs, hr⟩ := hvReceive_frame b (rxTake 1 s)
    rw [hr]
    exact { h with }
  | decodeStep fs hb hf =>
    obtain ⟨hlen, -⟩ := (readFrames_eq_some ..).1 hf
    have hbound := hc.decodeBound hb
    have hmax := (config_bounds hc.config).2.2
    refine memoryInv_writeSamples h rfl (xs := fs.map (sampleOf _ s.fp.dc)) ?_ rfl
    rw [List.length_map, hlen, frameSize]
    omega

/-- Settles O57: every move keeps both halves of the invariant, neither of which looks at the agents' fields. -/
theorem stepKeepsTheInvariant : Obligations.StepKeepsTheInvariant := by
  intro s t h hst
  exact step_preserves (P := State.Inv) (fun _ _ ⟨hc, hm⟩ => ⟨{ hc with }, { hm with }⟩)
    (fun _ _ hm h => ⟨controlInv_of_move hm h.1, memoryInv_of_move hm h.1 h.2⟩) hst h

/-- Settles O55: right after RESET the registers are those of `resetRegisters`, and memory is empty. -/
theorem resetMeetsTheInvariant : Obligations.ResetMeetsTheInvariant := by
  intro c q hc
  have hs : Sound (State.resetWith c q) := { sound_resetRegisters (s := State.resetWith c q) hc with }
  exact ⟨hs.resting (.inl rfl), memoryInv_empty rfl⟩

/-- Settles O54: the state right after RESET is what `resetRegisters` makes of itself. -/
theorem resetLeavesTheStatedValues : Obligations.ResetLeavesTheStatedValues := fun c q =>
  ⟨fun r => readReg_resetRegisters r (State.resetWith c q), rfl, rfl, rfl, fun _ => rfl, rfl⟩

end Sys2Proof.Proofs

/-! PROOF. What every step keeps beside the invariant: the parameters and the model faults, TXH with its count, an
error, the count of empty polls. -/

namespace Sys2Proof.Proofs

open Sys2Proof.Machine

/-! ### Parameters, model faults and bytes sent (10_state.md rules R19, R40, R51; 60_exceptions.md rule R138) -/

/-- TX_COUNT grows by what TXH grows by, or is reset. -/
def CountsSent (s t : State) : Prop :=
  ∃ bs, t.txh = s.txh ++ bs ∧ (t.txCount = s.txCount + BitVec.ofNat 32 bs.length ∨ t.txCount = 0 ∧ bs = [])

theorem CountsSent.of_eq {s t : State} (hh : t.txh = s.txh) (hc : t.txCount = s.txCount) : CountsSent s t :=
  ⟨[], by simp [hh], .inl (by simp [hc])⟩

theorem CountsSent.of_reset {s t : State} (hh : t.txh = s.txh) (hc : t.txCount = 0) : CountsSent s t :=
  ⟨[], by simp [hh], .inr ⟨hc, rfl⟩⟩

/-- What one event carries over to the next state: the parameters, the recorded model faults, the bytes sent with their
count. -/
structure CarriesOver (s t : State) : Prop where
  cfg : t.cfg = s.cfg
  hostBusError : s.modelFaults.hostBusError → t.modelFaults.hostBusError
  hostOverrun : s.modelFaults.hostOverrun → t.modelFaults.hostOverrun
  readWhileBusy : s.modelFaults.readWhileBusy → t.modelFaults.readWhileBusy
  sent : CountsSent s t

theorem CarriesOver.of_sent {s t : State} (hs : CountsSent s t) (hc : t.cfg = s.cfg)
    (hm : t.modelFaults = s.modelFaults) : CarriesOver s t :=
  ⟨hc, hm ▸ id, hm ▸ id, hm ▸ id, hs⟩

theorem CarriesOver.of_eq {s t : State} (hh : t.txh = s.txh) (hn : t.txCount = s.txCount) (hc : t.cfg = s.cfg)
    (hm : t.modelFaults = s.modelFaults) : CarriesOver s t :=
  .of_sent (.of_eq hh hn) hc hm

theorem carriesOver_of_move {s t : State} (hm : Move s t) : CarriesOver s t := by
  cases hm with
  | stay | flush | illegal | push | query | decodeStep => exact .of_eq rfl rfl rfl rfl
  | busError => exact ⟨rfl, fun _ => rfl, id, id, .of_eq rfl rfl⟩
  | draw => exact ⟨rfl, id, id, fun _ => rfl, .of_eq rfl rfl⟩
  | drop => exact ⟨rfl, id, fun _ => rfl, id, .of_eq rfl rfl⟩
  | softReset => exact .of_sent (.of_reset rfl rfl) rfl rfl
  | readExact =>
    rw [launchReadExact_frame]
    exact .of_eq rfl rfl rfl rfl
  | exchange opc a f =>
    rw [launchExchange_frame]
    exact .of_sent ⟨[a], rfl, .inl rfl⟩ rfl rfl
  | decode =>
    rw [launchDecode_frame]
    exact .of_eq rfl rfl rfl rfl
  | store =>
    rw [writeReg_frame]
    exact .of_eq rfl rfl rfl rfl
  | storeAcc =>
    rw [storeAcc_frame]
    exact .of_eq rfl rfl rfl rfl
  | pin b =>
    obtain ⟨-, hd⟩ | ⟨-, -, hd⟩ | ⟨-, -, hd⟩ := driveReset_cases b s <;> rw [hd]
    · exact .of_eq rfl rfl rfl rfl
    · exact .of_sent (.of_reset rfl rfl) rfl rfl
    · exact .of_eq rfl rfl rfl rfl
  | read =>
    rw [brRead_frame]
    exact .of_eq rfl rfl rfl rfl
  | emptyPoll =>
    rw [hvEmptyPoll_frame]
    exact .of_eq rfl rfl rfl rfl
  | receive b =>
    obtain ⟨bs, hr⟩ := hvReceive_frame b (rxTake 1 s)
    rw [hr]
    exact .of_sent ⟨bs, rfl, .inl rfl⟩ rfl rfl

/-- Settles O58: a step is a move up to the agents' fields. -/
theorem parametersAndModelFaultsPersist : Obligations.ParametersAndModelFaultsPersist := by
  intro s t hst
  obtain ⟨t, e, hm, rfl⟩ := step_reaches hst
  obtain ⟨hcfg, hbus, hover, hread, -⟩ := carriesOver_of_move hm
  exact ⟨hcfg, hbus, hover, hread⟩

/-- Settles O52: a step is a move up to the agents' fields. -/
theorem txCountCountsTheBytesSent : Obligations.TxCountCountsTheBytesSent := by
  intro s t hst
  obtain ⟨t, e, hm, rfl⟩ := step_reaches hst
  exact (carriesOver_of_move hm).sent

/-! ### ERROR is left by a reset only (60_exceptions.md rules R142, R143) -/

/-- In ERROR no command is running and none is accepted. -/
theorem not_busy_of_error {s : State} (h : s.status.state = .error) : ¬ s.isBusy := by
  simp [State.isBusy, h]

theorem not_accepts_of_error {s : State} (h : s.status.state = .error) : ¬ s.accepts := by
  simp [State.accepts, h]

theorem move_of_error {s t : State} (hm : Move s t) (he : s.status.state = .error) :
    t.status = { s.status with ovr := t.status.ovr } ∨
      (t.status = Status.reset ∧ ∀ r, readReg r t = resetValue r) := by
  have hb := not_busy_of_error he
  have ha := not_accepts_of_error he
  cases hm with
  | stay | busError | drop | push => exact .inl rfl
  | draw h => exact absurd h hb
  | softReset => exact .inr ⟨rfl, fun r => readReg_resetRegisters r s⟩
  | flush h | illegal _ h | readExact h | exchange _ _ _ h | decode h => exact absurd h ha
  | store =>
    rw [writeReg_frame]
    exact .inl rfl
  | storeAcc =>
    rw [storeAcc_frame]
    exact .inl rfl
  | pin b =>
    obtain ⟨-, hd⟩ | ⟨-, -, hd⟩ | ⟨-, -, hd⟩ := driveReset_cases b s <;> rw [hd]
    · exact .inl rfl
    · exact .inr ⟨rfl, fun r => readReg_resetRegisters r { s with mem := [], resetPin := false }⟩
    · exact .inl rfl
  | query h | read h | emptyPoll h | receive _ _ h | decodeStep _ h => exact absurd h.1 hb

/-- Settles O49: in ERROR the moves left keep STATUS but for OVR, or reset. -/
theorem errorIsLeftOnlyByReset : Obligations.ErrorIsLeftOnlyByReset := by
  intro s t he hst
  obtain ⟨t, e, hm, rfl⟩ := step_reaches hst
  exact (move_of_error hm he :)

/-! ### The count of empty polls (41_bounded_reader.md rule R101) -/

theorem empty_le_of_move {s t : State} (hm : Move s t) (hinv : s.ControlInv) (hr : s.inReadExact)
    (hp : s.resetPin = false) : s.br.empty ≤ t.br.empty := by
  have ha : ¬ s.accepts := by simp [State.accepts, show s.status.state = .busy from hr.1]
  have hx : ¬ s.inExchange := by simp [State.inExchange, hr.2]
  have hd : ¬ s.inDecode := by simp [State.inDecode, hr.2]
  cases hm with
  | stay | busError | draw | drop | push | query => exact BitVec.le_refl _
  | softReset h | store _ _ h | storeAcc _ _ _ _ h => exact absurd hr.1 h
  | flush h | illegal _ h | readExact h | exchange _ _ _ h | decode h => exact absurd h ha
  | emptyPoll h | receive _ _ h => exact absurd h hx
  | decodeStep _ h => exact absurd h hd
  | pin b =>
    obtain ⟨-, hdr⟩ | ⟨-, hp', -⟩ | ⟨-, -, hdr⟩ := driveReset_cases b s
    · rw [hdr]
      exact BitVec.le_refl _
    · exact absurd hp' (by simp [hp])
    · rw [hdr]
      exact BitVec.le_refl _
  | read =>
    have := readAppended_empty_toNat (hinv.readProgress hr).2.1
    rw [brRead_frame, BitVec.le_def]
    exact this ▸ Nat.le_add_right ..

/-- Settles O18: of the moves possible then, only an empty READ step touches BR_EMPTY, and it cannot wrap. -/
theorem emptyPollCounterNeverFalls : Obligations.EmptyPollCounterNeverFalls := by
  intro s t hinv hr hp hst
  obtain ⟨t, e, hm, rfl⟩ := step_reaches hst
  exact (empty_le_of_move hm hinv hr hp :)

end Sys2Proof.Proofs

/-! PROOF. STATUS as a word, the map of the window, and the host's accesses to it (10_state.md, 20_memory.md,
70_reset_and_hazards.md rules R159, R160). -/

namespace Sys2Proof.Proofs

open Sys2Proof.Machine

/-! ### The fields of STATUS (10_state.md rule R23) -/

theorem status_state_bits (t : Status) : t.word.extractLsb' 0 2 = t.state.code := by
  simp (disch := decide) only [Status.word, BitVec.extractLsb'_append_eq_of_add_le, BitVec.extractLsb'_eq_self]

/-- Settles O39: each field lies above the widths of the fields after it. -/
theorem statusWordHasTheLayoutOfTheSpec : Obligations.StatusWordHasTheLayoutOfTheSpec := by
  intro t
  refine ⟨status_state_bits t, ?_, ?err, ?partialFrame, ?ovr, ?phase, ?_, ?_, ?_⟩
  case partialFrame | ovr =>
    simp only [Status.word, BitVec.getLsbD_append]
    simp
  case' err => change _ = t.err.code
  case' phase => change _ = t.phase.code
  all_goals
    simp (disch := decide) only [Status.word, BitVec.extractLsb'_append_eq_of_add_le,
      BitVec.extractLsb'_append_eq_of_le, BitVec.extractLsb'_eq_self, Nat.reduceSub]

/-! ### The map of the window (20_memory.md rules R55, R58, R61) -/

theorem busTarget_reg (c : Config) {off : Nat} {r : Reg} (h : regAt off = some r) :
    busTarget c off .b4 = some (.reg r) := by
  unfold regAt at h
  split at h <;> cases h <;> rfl

theorem busTarget_accByte {c : Config} {i : Nat} (hi : i < c.accSize) :
    busTarget c (accBase + i) .b1 = some (.accByte i) := by
  rw [busTarget, if_pos (by omega), Nat.add_sub_cancel_left]

theorem busTarget_accWord {c : Config} {i : Nat} (hi : i < c.accSize) (hmod : i % 4 = 0) :
    busTarget c (accBase + i) .b4 = some (.accWord i) := by
  have hbase : accBase = 0x10000 := rfl
  rw [busTarget, if_neg (by omega), if_neg (by omega), if_pos (by omega), Nat.add_sub_cancel_left]

theorem busTarget_sampleWord {c : Config} (hc : c.wf = true) {i : Nat} (hi : i < 32 * c.maxSamples)
    (hmod : i % 4 = 0) : busTarget c (sampleBase + i) .b4 = some (.sampleWord i) := by
  have hbase : sampleBase = 0x1000000 := rfl
  have hbelow := acc_below_sample hc
  have hsize : sampleSize = 32 := rfl
  rw [busTarget, if_neg (by omega), if_neg (by omega), if_neg (by omega), if_pos (by rw [hsize]; omega),
    Nat.add_sub_cancel_left]

/-- The page holds a register at every word up to 0x048. -/
theorem exists_regAt {off : Nat} (hmod : off % 4 = 0) (h : off ≤ 0x048) : ∃ r, regAt off = some r := by
  obtain ⟨k, rfl⟩ := Nat.dvd_of_mod_eq_zero hmod
  have hk : k < 19 := by omega
  interval_cases k <;> exact ⟨_, rfl⟩

theorem le_of_regAt {off : Nat} {r : Reg} (h : regAt off = some r) : off ≤ 0x048 := by
  unfold regAt at h
  split at h <;> cases h <;> decide

theorem busTarget_b1_eq_none {c : Config} {off : Nat} :
    busTarget c off .b1 = none ↔ ¬(accBase ≤ off ∧ off < accBase + c.accSize) := by
  by_cases h : accBase ≤ off ∧ off < accBase + c.accSize
  · exact iff_of_false (by simp [busTarget, h]) (not_not.2 h)
  · exact iff_of_true (if_neg h) h

/-- A 4-byte access is accepted exactly where a register, an ACC word or a SAMPLE word begins. -/
theorem busTarget_b4_eq_none {c : Config} (hc : c.wf = true) {off : Nat} : busTarget c off .b4 = none ↔
    (off % 4 ≠ 0 ∨ ¬(off ≤ 0x048 ∨ accBase ≤ off ∧ off < accBase + c.accSize ∨
      sampleBase ≤ off ∧ off < sampleBase + 32 * c.maxSamples)) := by
  rw [← not_iff_not, not_or, not_not, not_not, ← ne_eq, Option.ne_none_iff_exists']
  constructor
  · rintro ⟨u, hu⟩
    obtain ⟨hz, -⟩ | ⟨-, hmod, -, r, hr, -⟩ | ⟨-, hmod, hin, -⟩ | ⟨-, hmod, hin, -⟩ := busTarget_cases hu
    · cases hz
    · exact ⟨hmod, .inl (le_of_regAt hr)⟩
    · exact ⟨hmod, .inr (.inl hin)⟩
    · exact ⟨hmod, .inr (.inr hin)⟩
  · rintro ⟨hmod, hreg | ⟨hlo, hhi⟩ | ⟨hlo, hhi⟩⟩
    · obtain ⟨r, hr⟩ := exists_regAt hmod hreg
      exact ⟨_, busTarget_reg c hr⟩
    · obtain ⟨i, rfl⟩ := Nat.exists_eq_add_of_le hlo
      have hbase : accBase % 4 = 0 := rfl
      exact ⟨_, busTarget_accWord (by omega) (by omega)⟩
    · obtain ⟨i, rfl⟩ := Nat.exists_eq_add_of_le hlo
      have hbase : sampleBase % 4 = 0 := rfl
      exact ⟨_, busTarget_sampleWord hc (by omega) (by omega)⟩

/-! ### An access to an accepted target -/

theorem busAccess_of_target {s : State} {a : Access} {off : Nat} {u : Target} (hp : s.resetPin = false)
    (hw : windowOffset s.cfg a.addr = some off) (hu : busTarget s.cfg off a.size = some u) :
    busAccess a s = targetAccess a u s := by
  simp only [busAccess, hp, hw, hu, Bool.false_eq_true, if_false]

theorem busAccess_read_addr {s : State} {off : BitVec 28} {z : Size} {u : Target} (hp : s.resetPin = false)
    (hu : busTarget s.cfg off.toNat z = some u) : busAccess (.read (s.cfg.addr off) z) s = hostRead u s :=
  busAccess_of_target (a := .read (s.cfg.addr off) z) hp (windowOffset_addr ..) hu

theorem busAccess_write_addr {s : State} {off : BitVec 28} {z : Size} {u : Target} (w : Word)
    (hp : s.resetPin = false) (hu : busTarget s.cfg off.toNat z = some u) :
    busAccess (.write (s.cfg.addr off) z w) s = hostWrite u w (answer (some .done) s) :=
  busAccess_of_target (a := .write (s.cfg.addr off) z w) hp (windowOffset_addr ..) hu

theorem busAccess_of_no_target {s : State} {a : Access} {off : Nat} (hp : s.resetPin = false)
    (hw : windowOffset s.cfg a.addr = some off) (hu : busTarget s.cfg off a.size = none) :
    busAccess a s = .next (busError s) := by
  simp only [busAccess, hp, hw, hu, Bool.false_eq_true, if_false]

/-! ### Reads (20_memory.md rule R64, 70_reset_and_hazards.md rule R160) -/

theorem hostRead_of_value {u : Target} {s : State} {v : Word} (hb : ¬ s.isBusy ∨ u = .reg .status)
    (hv : targetValue u s = some v) : hostRead u s = .next (answer (some (.data v)) s) := by
  have hex : ¬(s.status.state = .busy ∧ u ≠ .reg .status) := fun ⟨hbusy, hu⟩ => hb.elim (· hbusy) hu
  simp only [hostRead, if_neg hex, hv]

theorem hostRead_of_unwritten {u : Target} {s : State} (hb : ¬ s.isBusy) (hv : targetValue u s = none) :
    hostRead u s = .fault .unwrittenRead := by
  have hex : ¬(s.status.state = .busy ∧ u ≠ .reg .status) := fun ⟨hbusy, _⟩ => hb hbusy
  simp only [hostRead, if_neg hex, hv]

theorem hostRead_of_busy {u : Target} {s : State} (hb : s.isBusy) (hu : u ≠ .reg .status) :
    ∃ v, hostRead u s =
      .next { s with env.reply := some (.data v), draws := s.draws + 1, modelFaults.readWhileBusy := true } := by
  rw [hostRead, if_pos ⟨hb, hu⟩]
  exact ⟨_, rfl⟩

/-- What a read that is answered does: it is answered with a value, and while BUSY it may have been a draw. -/
theorem hostRead_next {u : Target} {s t : State} (h : hostRead u s = .next t) : ∃ v,
    t = answer (some (.data v)) s ∨
    t = answer (some (.data v)) { s with draws := s.draws + 1, modelFaults.readWhileBusy := true } := by
  unfold hostRead at h
  split at h
  · cases h
    exact ⟨_, .inr rfl⟩
  · split at h <;> cases h
    exact ⟨_, .inl rfl⟩

theorem busAccess_read_status {s : State} (hp : s.resetPin = false) :
    busAccess (.read (s.cfg.addr 0x004) .b4) s = .next (answer (some (.data s.status.word)) s) := by
  rw [busAccess_read_addr hp (busTarget_reg s.cfg (r := .status) rfl), hostRead_of_value (.inr rfl) rfl]
  rfl

/-- Settles O45: STATUS is exempt from the draw, and nothing else is while BUSY. -/
theorem statusReadsAreExact : Obligations.StatusReadsAreExact := by
  refine fun s hp => ⟨busAccess_read_status hp, fun off z u hb hu hne => ?_⟩
  rw [busAccess_read_addr hp hu]
  exact hostRead_of_busy hb hne

end Sys2Proof.Proofs

/-! PROOF. Host writes and what they leave alone, bus errors, the registers and the ACC and SAMPLE windows as the host
sees them. -/

namespace Sys2Proof.Proofs

open Sys2Proof.Machine

/-! ### Writes (20_memory.md rule R64, 70_reset_and_hazards.md rule R159) -/

theorem unlessBusy_of_not_busy {f : State → State} {s : State} (h : ¬ s.isBusy) : unlessBusy f s = f s := if_neg h

theorem unlessBusy_of_busy {f : State → State} {s : State} (h : s.isBusy) : unlessBusy f s = overrun s := if_pos h

theorem hostWrite_reg {r : Reg} (h : r ≠ .cmd) (w : Word) (s : State) :
    hostWrite (.reg r) w s = .next (if readWrite r then unlessBusy (writeReg r w) s else s) := by
  cases r with
  | cmd => exact absurd rfl h
  | _ => rfl

theorem hostWrite_readWrite {r : Reg} (h : readWrite r = true) (w : Word) {s : State} (hb : ¬ s.isBusy) :
    hostWrite (.reg r) w s = .next (writeReg r w s) := by
  have hr : r ≠ .cmd := by
    rintro rfl
    cases h
  rw [hostWrite_reg hr, if_pos h, unlessBusy_of_not_busy hb]

/-- Everything a write to CMD can do. -/
theorem cmdWrite_next {w : Word} {s t : State} (h : cmdWrite w s = .next t) :
    t = overrun s ∨ t = resetRegisters s ∨
      ∃ opc body, Launch opc body ∧ s.accepts ∧ t = body (launching opc s) := by
  by_cases hw : w = 0x00000001
  · rw [hw, cmdWrite_softReset] at h
    by_cases hb : s.isBusy
    · rw [exec_softReset_of_busy hb] at h
      cases h
      exact .inl rfl
    · rw [exec_softReset_of_not_busy hb] at h
      cases h
      exact .inr (.inl rfl)
  · obtain ⟨opc, body, hl, hacc⟩ := cmdWrite_eq_accept hw
    rw [hacc] at h
    obtain ⟨ha, rfl⟩ | ⟨-, rfl⟩ := accept_next h
    · exact .inr (.inr ⟨opc, body, hl, ha, rfl⟩)
    · exact .inl rfl

/-- Everything a host write can do to an accepted target. -/
theorem hostWrite_next {u : Target} {w : Word} {s t : State} (h : hostWrite u w s = .next t) :
    t = s ∨ t = overrun s ∨ t = resetRegisters s ∨ (∃ r, t = writeReg r w s) ∨ t = storeAcc u w s ∨
      ∃ opc body, Launch opc body ∧ s.accepts ∧ t = body (launching opc s) := by
  have hunless {f : State → State} : unlessBusy f s = overrun s ∨ unlessBusy f s = f s := by
    by_cases hb : s.isBusy
    · exact .inl (unlessBusy_of_busy hb)
    · exact .inr (unlessBusy_of_not_busy hb)
  cases u with
  | reg r =>
    by_cases hr : r = .cmd
    · subst hr
      obtain ht | ht | ht := cmdWrite_next h
      · exact .inr (.inl ht)
      · exact .inr (.inr (.inl ht))
      · exact .inr (.inr (.inr (.inr (.inr ht))))
    · rw [hostWrite_reg hr] at h
      cases h
      split
      · obtain hu | hu := hunless (f := writeReg r w) <;> rw [hu]
        · exact .inr (.inl rfl)
        · exact .inr (.inr (.inr (.inl ⟨r, rfl⟩)))
      · exact .inl rfl
  | accByte i | accWord i =>
    cases h
    obtain hu | hu := hunless (f := storeAcc _ w) <;> rw [hu]
    · exact .inr (.inl rfl)
    · exact .inr (.inr (.inr (.inr (.inl rfl))))
  | sampleWord i =>
    cases h
    exact .inl rfl

/-- A launch touches nothing around the FHE. -/
theorem Launch.surroundings {opc : Byte} {body : State → State} (h : Launch opc body) (s : State) :
    surroundingsKept s (body s) := by
  cases h with
  | illegal | flush => exact ⟨rfl, rfl, rfl, rfl, rfl⟩
  | readExact =>
    rw [launchReadExact_frame]
    exact ⟨rfl, rfl, rfl, rfl, rfl⟩
  | exchange =>
    rw [launchExchange_frame]
    exact ⟨rfl, rfl, rfl, rfl, rfl⟩
  | decode =>
    rw [launchDecode_frame]
    exact ⟨rfl, rfl, rfl, rfl, rfl⟩

/-- A host write is not answered with anything but what `targetAccess` answered, and no write is a bus error. -/
theorem hostWrite_env {u : Target} {w : Word} {s t : State} (h : hostWrite u w s = .next t) :
    t.env = s.env ∧ t.modelFaults.hostBusError = s.modelFaults.hostBusError := by
  obtain rfl | rfl | rfl | ⟨r, rfl⟩ | rfl | ⟨opc, body, hl, -, rfl⟩ := hostWrite_next h
  · exact ⟨rfl, rfl⟩
  · exact ⟨rfl, rfl⟩
  · exact ⟨rfl, rfl⟩
  · rw [writeReg_frame]
    exact ⟨rfl, rfl⟩
  · rw [storeAcc_frame]
    exact ⟨rfl, rfl⟩
  · obtain ⟨-, -, henv, hmf, -⟩ := hl.surroundings (launching opc s)
    exact ⟨henv, congrArg ModelFaults.hostBusError hmf⟩

/-- Settles O42: the map gives the condition, `busError` the effect, and neither a read nor a write of an accepted
target is answered or recorded as a bus error. -/
theorem busErrorsChangeNothing : Obligations.BusErrorsChangeNothing := by
  intro s a off hc hp hw
  refine ⟨?_, busAccess_of_no_target hp hw, fun u t hu h => ?_⟩
  · cases a.size with
    | b1 => simpa [accBase] using busTarget_b1_eq_none (c := s.cfg) (off := off)
    | b2 => simp [busTarget]
    | b4 => simpa [accBase, sampleBase] using busTarget_b4_eq_none hc (off := off)
  · rw [busAccess_of_target hp hw hu] at h
    cases a with
    | read addr z =>
      obtain ⟨v, rfl | rfl⟩ := hostRead_next h <;> exact ⟨by simp, rfl⟩
    | write addr z w =>
      obtain ⟨henv, hmf⟩ := hostWrite_env h
      exact ⟨by simp [henv], hmf⟩

/-- Settles O43: by target, the write is a dropped one, or none at all. -/
theorem writesWhileBusyAreDropped : Obligations.WritesWhileBusyAreDropped := by
  intro s off z w u hp hu
  rw [busAccess_write_addr w hp hu]
  refine ⟨fun hb => ?busy, ?ignored⟩
  case busy =>
    have hb : (answer (some .done) s).isBusy := hb
    cases u with
    | reg r =>
      cases r with
      | cmd => exact cmdWrite_of_busy w hb
      | arg0 | arg1 | capdac | hvMaxwait | hvOutermax => exact congrArg _ (unlessBusy_of_busy hb)
      | _ => rfl
    | accByte i | accWord i => exact congrArg _ (unlessBusy_of_busy hb)
    | sampleWord i => rfl
  case ignored =>
    rintro (⟨r, rfl, hr⟩ | ⟨i, rfl⟩)
    · cases r with
      | cmd | arg0 | arg1 | capdac | hvMaxwait | hvOutermax => simp at hr
      | _ => rfl
    · rfl

/-- Settles O44: a read that is answered changes what `hostRead_next` says, a bus error is recorded, and the rest of the
accesses get no answer. -/
theorem hostReadsHaveNoSideEffect : Obligations.HostReadsHaveNoSideEffect := by
  intro s t addr z h
  unfold busAccess at h
  split at h
  · cases h
    rfl
  · split at h
    · cases h
      rfl
    · split at h
      · cases h
        rfl
      · obtain ⟨v, rfl | rfl⟩ := hostRead_next h <;> rfl

/-! ### Registers (10_state.md rules R22, R31 to R33) -/

theorem capdacClamp_toNat (w : Word) : ((capdacClamp w).toNat : Int) = max 0 (min 31 w.toInt) := by
  rw [capdacClamp, BitVec.toNat_ofInt]
  simp only [capdacMax]
  omega

/-- Settles O40: CAPDAC is a read-write register whose store clamps. -/
theorem capdacWriteClamps : Obligations.CapdacWriteClamps := by
  intro s w hp hb
  refine ⟨writeReg .capdac w (answer (some .done) s), ?_, capdacClamp_toNat w, rfl, rfl⟩
  rw [busAccess_write_addr w hp (busTarget_reg s.cfg (r := .capdac) rfl)]
  exact hostWrite_readWrite rfl w hb

theorem hostRead_reg {r : Reg} {s : State} (hb : ¬ s.isBusy) :
    hostRead (.reg r) s = .next (answer (some (.data (readReg r s))) s) :=
  hostRead_of_value (.inl hb) rfl

theorem busAccess_read_reg {s : State} {off : BitVec 28} {r : Reg} (hp : s.resetPin = false) (hb : ¬ s.isBusy)
    (hoff : regAt off.toNat = some r) :
    busAccess (.read (s.cfg.addr off) .b4) s = .next (answer (some (.data (readReg r s))) s) := by
  rw [busAccess_read_addr hp (busTarget_reg _ hoff), hostRead_reg hb]

/-- A write stores to its register alone. -/
theorem regsKept_writeReg (r : Reg) (w : Word) (s : State) : regsKept [r] s (writeReg r w s) := by
  intro r' hr'
  have hne : r' ≠ r := by simpa using hr'
  cases r with
  | arg0 | arg1 | capdac | hvMaxwait | hvOutermax => cases r' <;> simp [readReg, writeReg] at hne ⊢
  | _ => rfl

/-- Settles O41: each of the four is a read-write register that stores the word as it is. -/
theorem operandRegistersReadBack : Obligations.OperandRegistersReadBack := by
  intro s w r off hp hb hmem
  obtain ⟨hoff, hrw, hread⟩ : regAt off.toNat = some r ∧ readWrite r = true ∧
      readReg r (writeReg r w (answer (some .done) s)) = w := by
    simp only [List.mem_cons, Prod.mk.injEq, List.not_mem_nil, or_false] at hmem
    obtain ⟨rfl, rfl⟩ | ⟨rfl, rfl⟩ | ⟨rfl, rfl⟩ | ⟨rfl, rfl⟩ := hmem <;> exact ⟨rfl, rfl, rfl⟩
  have hwrite : busAccess (.write (s.cfg.addr off) .b4 w) s = .next (writeReg r w (answer (some .done) s)) := by
    rw [busAccess_write_addr w hp (busTarget_reg s.cfg hoff)]
    exact hostWrite_readWrite hrw w hb
  have hkept : regsKept [r] s (writeReg r w (answer (some .done) s)) := regsKept_writeReg r w (answer (some .done) s)
  have hp' : (writeReg r w (answer (some .done) s)).resetPin = false := by rwa [writeReg_frame]
  have hb' : ¬ (writeReg r w (answer (some .done) s)).isBusy := by rwa [writeReg_frame]
  have hreply := busAccess_read_reg hp' hb' hoff
  rw [hread] at hreply
  refine ⟨_, _, hwrite, hread, hreply, rfl, hkept, ?_⟩
  rw [writeReg_frame]
  exact ⟨fun _ => rfl, ⟨rfl, rfl⟩, ⟨rfl, rfl⟩, rfl, ⟨rfl, rfl⟩, rfl, rfl⟩

/-- Settles O46: the map names the register at each of the 19 offsets, and `readReg` its field. -/
theorem registersReadAtTheirOffsets : Obligations.RegistersReadAtTheirOffsets := by
  intro s k r v hp hb hk
  have hcapdac : (0 : BitVec 27) ++ s.capdac = s.capdac.zeroExtend 32 := (BitVec.setWidth_eq_append (by decide)).symm
  have hack : (0 : BitVec 24) ++ s.hv.ack = s.hv.ack.zeroExtend 32 := (BitVec.setWidth_eq_append (by decide)).symm
  have hrem : (0 : BitVec 29) ++ s.fp.rem = s.fp.rem.zeroExtend 32 := (BitVec.setWidth_eq_append (by decide)).symm
  rw [hcapdac, hack, hrem] at hk
  have hlt : k < 19 := (List.getElem?_eq_some_iff.1 hk).1
  obtain ⟨hoff, rfl⟩ : regAt (BitVec.ofNat 28 (4 * k)).toNat = some r ∧ readReg r s = v := by
    interval_cases k <;> cases hk <;> exact ⟨rfl, rfl⟩
  exact ⟨rfl, busAccess_read_reg hp hb hoff⟩

/-! ### The ACC and SAMPLE windows (20_memory.md rules R56, R57, R60) -/

/-- The 28 bits of a window offset hold every offset of ACC. -/
theorem acc_offset_toNat {c : Config} (hc : c.wf = true) {i : Nat} (hi : i < c.accSize) :
    (BitVec.ofNat 28 (0x10000 + i)).toNat = accBase + i := by
  have hle := (config_bounds hc).2.1
  rw [BitVec.toNat_ofNat, Nat.mod_eq_of_lt (by omega)]
  rfl

theorem sample_offset_toNat {c : Config} (hc : c.wf = true) {i : Nat} (hi : i < 32 * c.maxSamples) :
    (BitVec.ofNat 28 (0x1000000 + i)).toNat = sampleBase + i := by
  obtain ⟨-, hle, hmax⟩ := config_bounds hc
  rw [BitVec.toNat_ofNat, Nat.mod_eq_of_lt (by omega)]
  rfl

/-- After an answered write that left memory `m`. -/
def storedAcc (m : Memory) (s : State) : State := { answer (some .done) s with mem := m }

section windows
variable {s : State} (hc : s.cfg.wf = true) (hp : s.resetPin = false)
include hc hp

theorem busAccess_read_accByte {i : Nat} (hi : i < s.cfg.accSize) :
    busAccess (.read (s.cfg.addr (BitVec.ofNat 28 (0x10000 + i))) .b1) s = hostRead (.accByte i) s :=
  busAccess_read_addr hp (by rw [acc_offset_toNat hc hi, busTarget_accByte hi])

theorem busAccess_read_accWord {i : Nat} (hi : i < s.cfg.accSize) (hmod : i % 4 = 0) :
    busAccess (.read (s.cfg.addr (BitVec.ofNat 28 (0x10000 + i))) .b4) s = hostRead (.accWord i) s :=
  busAccess_read_addr hp (by rw [acc_offset_toNat hc hi, busTarget_accWord hi hmod])

theorem busAccess_read_sampleWord {i : Nat} (hi : i < 32 * s.cfg.maxSamples) (hmod : i % 4 = 0) :
    busAccess (.read (s.cfg.addr (BitVec.ofNat 28 (0x1000000 + i))) .b4) s = hostRead (.sampleWord i) s :=
  busAccess_read_addr hp (by rw [sample_offset_toNat hc hi, busTarget_sampleWord hc hi hmod])

/-- The host's read of an ACC byte that was written. -/
theorem busAccess_read_written {i : Nat} (hi : i < s.cfg.accSize) (hb : ¬ s.isBusy) {b : Byte}
    (hread : s.mem.read (accBase + i) = some b) :
    busAccess (.read (s.cfg.addr (BitVec.ofNat 28 (0x10000 + i))) .b1) s =
      .next (answer (some (.data (b.zeroExtend 32))) s) := by
  rw [busAccess_read_accByte hc hp hi]
  exact hostRead_of_value (.inl hb) (by simp [targetValue, hread])

theorem busAccess_write_accByte {i : Nat} (w : Word) (hi : i < s.cfg.accSize) (hb : ¬ s.isBusy) :
    busAccess (.write (s.cfg.addr (BitVec.ofNat 28 (0x10000 + i))) .b1 w) s =
      .next (storedAcc (s.mem.write (accBase + i) (w.extractLsb' 0 8)) s) := by
  rw [busAccess_write_addr w hp (by rw [acc_offset_toNat hc hi, busTarget_accByte hi])]
  exact congrArg _ (unlessBusy_of_not_busy (s := answer (some .done) s) hb)

theorem busAccess_write_accWord {i : Nat} (w : Word) (hi : i < s.cfg.accSize) (hmod : i % 4 = 0) (hb : ¬ s.isBusy) :
    busAccess (.write (s.cfg.addr (BitVec.ofNat 28 (0x10000 + i))) .b4 w) s =
      .next (storedAcc (s.mem.writeWord (accBase + i) w) s) := by
  rw [busAccess_write_addr w hp (by rw [acc_offset_toNat hc hi, busTarget_accWord hi hmod])]
  exact congrArg _ (unlessBusy_of_not_busy (s := answer (some .done) s) hb)

end windows

/-- No register shows memory or the bus's answer. -/
theorem regsKept_storedAcc (m : Memory) (s : State) : regsKept [] s (storedAcc m s) := fun r _ => by cases r <;> rfl

/-- Settles O47: the write stores the word's four bytes; the word read back is `readWord_writeWord`, and each byte read
back is one of them. -/
theorem accWordsAreLittleEndian : Obligations.AccWordsAreLittleEndian := by
  intro s w i hc hp hb hi hmod
  have hsize := (config_bounds hc).1
  refine ⟨_, busAccess_write_accWord hc hp w hi hmod hb, ?word, fun k hk => ?byte, fun a ha => ?mem,
    regsKept_storedAcc _ s, ⟨rfl, rfl⟩⟩
  case word =>
    exact (busAccess_read_accWord (s := storedAcc (s.mem.writeWord (accBase + i) w) s) hc hp hi hmod).trans
      (hostRead_of_value (.inl hb) (readWord_writeWord ..))
  case byte =>
    rw [Nat.add_assoc]
    refine busAccess_read_written (s := storedAcc (s.mem.writeWord (accBase + i) w) s) hc hp (i := i + k) ?_ hb ?_
    · change i + k < s.cfg.accSize
      omega
    have hbyte := read_writeBytes_inside s.mem (accBase + i) (leBytes 4 w) k (by simpa using hk)
    rw [← Nat.add_assoc]
    exact hbyte.trans (by rw [← List.getElem?_eq_getElem, leBytes_getElem? _ _ _ hk])
  case mem => exact read_writeBytes_outside _ _ _ _ (by simpa using ha)

/-- Settles O48: a byte that is not listed is no value, and the write lists it. -/
theorem accBytesReadBackOnceWritten : Obligations.AccBytesReadBackOnceWritten := by
  intro s w i hc hp hb hi
  refine ⟨fun hnone => ?unwritten, _, busAccess_write_accByte hc hp w hi hb, read_write_same .., ?byte,
    fun a ha => ?mem, regsKept_storedAcc _ s, ⟨rfl, rfl⟩⟩
  case unwritten =>
    rw [busAccess_read_accByte hc hp hi]
    exact hostRead_of_unwritten hb (by simp [targetValue, hnone])
  case byte =>
    exact busAccess_read_written (s := storedAcc (s.mem.write (accBase + i) (w.extractLsb' 0 8)) s) hc hp hi hb
      (read_write_same ..)
  case mem => exact read_write_other _ _ (by omega)

/-- A word whose first byte was never written has no value. -/
theorem readWord_of_unwritten {m : Memory} {a : Nat} (h : m.read a = none) : m.readWord a = none := by
  simp [Memory.readWord, Memory.readBytes, h]

/-- Settles O60: the read answers the word in memory if there is one, and an unwritten entry holds none. -/
theorem sampleWindowReadsItsEntries : Obligations.SampleWindowReadsItsEntries := by
  intro s j w hc hp hb hj hw
  rw [Nat.add_assoc 0x1000000, busAccess_read_sampleWord hc hp (by omega) (by omega)]
  refine ⟨fun v hv => hostRead_of_value (.inl hb) ?_, fun hnone => hostRead_of_unwritten hb ?_⟩
  · rwa [Nat.add_assoc] at hv
  · have h := readWord_of_unwritten (hnone (4 * w) (by omega))
    rwa [Nat.add_assoc] at h

end Sys2Proof.Proofs

/-! PROOF. DECODE end to end: when its step faults, what it depends on, and a frame that decodes to itself
(43_frame_parser.md rules R125, R132 to R134). -/

namespace Sys2Proof.Proofs

open Sys2Proof.Machine

/-! ### The fault (rule R133) -/

theorem engineStep_of_no_frames {s : State} (h : s.inDecode) (hf : readFrames s.mem 0 (s.fp.dlen.toNat / 8) = none) :
    engineStep s = .fault .unwrittenRead := by
  rw [engineStep_of_inDecode h, decodeStep, frameSize, hf]

/-- The frames are missing exactly when one of their bytes is. -/
theorem readFrames_none_iff {m : Memory} {k : Nat} :
    readFrames m 0 k = none ↔ ∃ i, i < 8 * k ∧ m.read (accBase + i) = none := by
  constructor
  · intro h
    by_contra hall
    obtain ⟨fs, hfs⟩ := exists_readFrames (m := m) (k := k) fun i hi =>
      Option.isSome_iff_ne_none.2 fun hn => hall ⟨i, hi, hn⟩
    rw [h] at hfs
    cases hfs
  · rintro ⟨i, hi, hn⟩
    refine (readFrames_eq_none ..).2 ⟨i / 8, by omega, (readFrame_eq_none ..).2 ⟨i % 8, by omega, ?_⟩⟩
    rw [Nat.zero_add, Nat.add_assoc, Nat.div_add_mod]
    exact hn

/-- Settles O32: the step's two outcomes are told apart by the frames it reads. -/
theorem decodeFaultsExactlyOnUnwrittenBytes : Obligations.DecodeFaultsExactlyOnUnwrittenBytes := by
  intro s hd
  rw [← readFrames_none_iff]
  cases hf : readFrames s.mem 0 (s.fp.dlen.toNat / 8) with
  | none => exact iff_of_true (engineStep_of_no_frames hd hf) rfl
  | some fs => simp [engineStep_of_frames hd hf]

/-! ### The exact capacitance (rule R125) -/

/-- Settles O33: the formula is a scaling of N = raw + 1638400 * C. -/
theorem capacitanceIsTheExactFormula : Obligations.CapacitanceIsTheExactFormula := by
  refine fun raw c => ⟨?_, capN_bounds raw c⟩
  rw [capN]
  push_cast
  ring

/-! ### One frame (rule R134) -/

theorem readFrame_of_bytes {m : Memory} {ts raw : Word}
    (h : m.readBytes accBase 8 = some (leBytes 4 ts ++ leBytes 4 raw)) : readFrames m 0 1 = some [(ts, raw)] := by
  have h' := (readBytes_append m accBase (leBytes 4 ts) (leBytes 4 raw)).1 (by simpa using h)
  rw [leBytes_length, leBytes_length] at h'
  have hframe := (readFrame_eq_some m 0 ts raw).2 ⟨readWord_of_leBytes h'.1, readWord_of_leBytes h'.2⟩
  rw [readFrames, hframe]
  rfl

theorem finishDecode_mem (fs : List (Word × Word)) (s : State) :
    (finishDecode fs s).mem = writeSamples s.mem 0 (fs.map (sampleOf (firstTimestamp fs) s.fp.dc)) := rfl

/-- Settles O37: the launch latches 8, the step reads the one frame and writes its entry. -/
theorem encodedFrameDecodesToItself : Obligations.EncodedFrameDecodesToItself := by
  intro s ts raw hinv ha harg hbytes
  have hsize : 8 ≤ s.cfg.accSize := by
    have h := hinv.config
    simp only [Config.wf, Bool.and_eq_true, decide_eq_true_eq] at h
    exact h.1.2
  have hfits : s.arg0.toNat ≤ s.cfg.accSize := by rwa [harg]
  have hframes : readFrames s.mem 0 (s.arg0.toNat / 8) = some [(ts, raw)] := by
    rw [harg]
    exact readFrame_of_bytes hbytes
  refine ⟨_, _, exec_decodeFrames_of_fits ha hfits, engineStep_of_frames ⟨rfl, rfl⟩ hframes, rfl, rfl, ?rem, rfl,
    ?entry⟩
  case rem =>
    change trailing s.arg0 = 0
    rw [harg]
    rfl
  case entry =>
    rw [finishDecode_mem]
    exact sampleHolds_writeSamples (fs := [(ts, raw)]) ts s.capdac rfl

/-! ### What a DECODE depends on (rule R132) -/

theorem readFrames_congr {m m' : Memory} {k : Nat} (h : ∀ i, i < 8 * k → m.read (accBase + i) = m'.read (accBase + i)) :
    readFrames m 0 k = readFrames m' 0 k := by
  have hframe {j : Nat} (hj : j < k) : readFrame m j = readFrame m' j := by
    have hbytes : m.readBytes (accBase + 8 * j) 8 = m'.readBytes (accBase + 8 * j) 8 :=
      readBytes_congr m m' _ 8 fun i hi => by simpa only [Nat.add_assoc] using h (8 * j + i) (by omega)
    simp only [readFrame, frameSize, hbytes]
  cases hf : readFrames m' 0 k with
  | none =>
    obtain ⟨i, hi, hn⟩ := (readFrames_eq_none ..).1 hf
    rw [Nat.zero_add] at hn
    exact (readFrames_eq_none ..).2 ⟨i, hi, by rw [Nat.zero_add, hframe hi, hn]⟩
  | some fs =>
    obtain ⟨hl, hr⟩ := (readFrames_eq_some ..).1 hf
    refine (readFrames_eq_some ..).2 ⟨hl, fun i hi => ?_⟩
    rw [← hr i hi, Nat.zero_add, hframe hi]

/-- The bytes of the entries written do not depend on the memory below them. -/
theorem read_writeSamples_congr (m m' : Memory) (xs : List Sample) {a : Nat} (hlo : sampleBase ≤ a)
    (hhi : a < sampleBase + 32 * xs.length) : (writeSamples m 0 xs).read a = (writeSamples m' 0 xs).read a := by
  have hj : (a - sampleBase) / 32 < xs.length := by omega
  have ha : a = sampleBase + 32 * (0 + (a - sampleBase) / 32) + (a - sampleBase) % 32 := by omega
  have hk : (a - sampleBase) % 32 < 32 := Nat.mod_lt _ (by decide)
  rw [ha, read_writeSamples_inside m 0 xs _ _ _ (List.getElem?_eq_getElem hj) hk,
    read_writeSamples_inside m' 0 xs _ _ _ (List.getElem?_eq_getElem hj) hk]

/-- Settles O38: the same frames and latches give the same registers and the same entries. -/
theorem decodeDependsOnItsInputsAlone : Obligations.DecodeDependsOnItsInputsAlone := by
  intro s₁ s₂ t₁ _ _ hd₁ hd₂ hlen hdc hacc hstep
  have hframes := readFrames_congr hacc
  cases hf : readFrames s₁.mem 0 (s₁.fp.dlen.toNat / 8) with
  | none =>
    rw [engineStep_of_no_frames hd₁ hf] at hstep
    cases hstep
  | some fs =>
    rw [engineStep_of_frames hd₁ hf] at hstep
    cases hstep
    have hcount := ((readFrames_eq_some ..).1 hf).1
    refine ⟨finishDecode fs s₂, engineStep_of_frames hd₂ (by rw [← hlen, ← hframes, hf]), ?_, ?_, rfl,
      fun a hlo hhi => ?_⟩
    · simp only [finishDecode, setEngine_fp, hlen, hdc]
    · simp only [finishDecode, setEngine_partialFrame, hlen]
    · simp only [finishDecode, setEngine_mem, hdc]
      exact read_writeSamples_congr _ _ _ hlo (by simpa [hcount] using hhi)

end Sys2Proof.Proofs

/-! PROOF. Turns and steps: what each agent's turn does, and how a schedule runs (20_memory.md rule R68,
40_control.md rule R90, 70_reset_and_hazards.md rules R151, R159). -/

namespace Sys2Proof.Proofs

open Sys2Proof.Machine

/-! ### A step is a turn -/

theorem step_of_sched {s : State} {u : Turn} {ts : List Turn} (h : s.env.sched = u :: ts) :
    step s = takeTurn u { s with env.sched := ts } := by
  simp only [step, nextEvent, h]

theorem step_of_no_sched {s : State} (h : s.env.sched = []) : step s = takeTurn (defaultTurn s) s := by
  simp only [step, nextEvent, h]

theorem defaultTurn_of_busy {s : State} (h : s.isBusy) : defaultTurn s = .engine := by
  simp only [defaultTurn, show s.status.state = .busy from h]

theorem defaultTurn_of_not_busy {s : State} (h : ¬ s.isBusy) : defaultTurn s = .host := by
  unfold defaultTurn
  split
  case h_1 hb => exact absurd hb h
  all_goals rfl

theorem engineStep_of_busy {s : State} (h : s.isBusy) : engineStep s = busyStep s := by
  simp only [engineStep, show s.status.state = .busy from h]

theorem takeTurn_engine {s : State} (h : s.resetPin = false) : takeTurn .engine s = engineStep s := by
  simp only [takeTurn, h, Bool.false_eq_true, if_false]

theorem takeTurn_engine_of_not_busy {s : State} (h : ¬ s.isBusy) : takeTurn .engine s = .next s := by
  rw [takeTurn, engineStep_of_not_busy h, ite_self]

/-- Settles O9: the schedule's first turn or the default one, and what the engine's turn is. -/
theorem stepTakesTheNextTurn : Obligations.StepTakesTheNextTurn := by
  refine fun s => ⟨fun u ts => step_of_sched, fun hn hb => ?_, fun hn hb => ?_, fun hb hp => ?_,
    takeTurn_engine_of_not_busy⟩
  · rw [step_of_no_sched hn, defaultTurn_of_busy hb]
  · rw [step_of_no_sched hn, defaultTurn_of_not_busy hb]
  · rw [takeTurn_engine hp, engineStep_of_busy hb]

/-! ### The host's CMD write (30_encoding.md rule R84) -/

theorem busAccess_write_cmd {s : State} (w : Word) (hp : s.resetPin = false) :
    busAccess (.write (s.cfg.addr 0x000) .b4 w) s = cmdWrite w (answer (some .done) s) :=
  busAccess_write_addr w hp (busTarget_reg s.cfg (r := .cmd) rfl)

theorem step_of_host_cmdWrite {s : State} {w : Word} {ts : List Turn} {p : List HostOp} (hp : s.resetPin = false)
    (hs : s.env.sched = .host :: ts) (hprog : s.env.prog = .write (s.cfg.addr 0x000) .b4 (.imm w) :: p) :
    step s = cmdWrite w { s with env := { s.env with sched := ts, prog := p, reply := some .done } } := by
  rw [step_of_sched hs, takeTurn, hostTurn]
  simp only [hprog]
  exact busAccess_write_cmd (s := hostGoto p { s with env.sched := ts }) w hp

theorem canLaunch_readyToLaunch (s : State) : canLaunch (readyToLaunch s) = true := by
  unfold readyToLaunch
  split
  case isTrue h => exact h
  case isFalse => split <;> simp [canLaunch, *]

theorem readyToLaunch_of_canLaunch {s : State} (h : canLaunch s = true) : readyToLaunch s = s := if_pos h

theorem resetPin_of_canLaunch {s : State} (h : canLaunch s = true) : s.resetPin = false := by
  simp only [canLaunch, Bool.and_eq_true, Bool.not_eq_true'] at h
  exact h.1

/-- `s` with the host's turn first in the schedule, and with it a write of `w` to CMD. -/
def placedCmdWrite (w : Word) (s : State) : State :=
  { s with env := { s.env with
    sched := .host :: s.env.sched, prog := .write (s.cfg.addr 0x000) .b4 (.imm w) :: s.env.prog } }

theorem withFetchWord_of_canLaunch {s : State} (h : canLaunch s = true) (w : Word) :
    s.withFetchWord 32 w.toNat = placedCmdWrite w s := by
  have hword : BitVec.ofNat 32 (w.toNat % 2 ^ 32) = w := by
    rw [Nat.mod_eq_of_lt w.isLt, BitVec.ofNat_toNat, BitVec.setWidth_eq]
  rw [State.withFetchWord, readyToLaunch_of_canLaunch h, hword]
  rfl

/-- Settles O8: the host's turn makes its CMD write, and `withFetchWord` puts both first. -/
theorem stepRunsTheDecodedCommand : Obligations.StepRunsTheDecodedCommand := by
  intro s w i hw
  refine ⟨fun ts p hp hs hprog => ?_, fun hl => ?_, canLaunch_readyToLaunch s, ?_⟩
  · rw [step_of_host_cmdWrite hp hs hprog, cmdWrite_of_decode hw]
  · rw [withFetchWord_of_canLaunch hl]
    exact (step_of_host_cmdWrite (s := placedCmdWrite w s) (resetPin_of_canLaunch hl) rfl rfl).trans
      (cmdWrite_of_decode hw _)
  · rw [State.withFetchWord, State.withFetchWord, readyToLaunch_of_canLaunch (canLaunch_readyToLaunch s)]

/-! ### The engine does not look at the agents' fields -/

section agents
variable (e : Env) (s : State)

theorem brRead_withEnv : brRead (withEnv e s) = withEnv e (brRead s) := by
  unfold brRead brCheck
  simp only [apply_ite (withEnv e)]
  rfl

theorem hvEmptyPoll_withEnv : hvEmptyPoll (withEnv e s) = withEnv e (hvEmptyPoll s) := by
  unfold hvEmptyPoll hvCheck
  simp only [apply_ite (withEnv e)]
  rfl

theorem hvReceive_withEnv (b : Byte) : hvReceive b (withEnv e s) = withEnv e (hvReceive b s) := by
  obtain ⟨hb, h⟩ | ⟨hp, rfl, h⟩ | ⟨hp, rfl, h⟩ := hvReceive_cases b s <;> rw [h]
  · exact hvReceive_of_mismatch (s := withEnv e s) hb
  · exact hvReceive_of_echo (s := withEnv e s) hp
  · exact hvReceive_of_executed (s := withEnv e s) hp

theorem decodeStep_withEnv : decodeStep (withEnv e s) = onNext (withEnv e) (decodeStep s) := by
  have hmem : (withEnv e s).mem = s.mem := rfl
  have hlen : (withEnv e s).fp = s.fp := rfl
  rw [decodeStep, decodeStep, hmem, hlen]
  cases readFrames s.mem 0 (s.fp.dlen.toNat / frameSize) <;> rfl

end agents

/-- What a running command is. -/
theorem running_cases {s : State} (hb : s.isBusy) :
    s.inReadExact ∨ s.inExchange ∨ s.inDecode ∨ ∀ e, engineStep (withEnv e s) = .fault .engineNoCommand := by
  by_cases h2 : s.status.op = 0x02
  · exact .inl ⟨hb, h2⟩
  by_cases h3 : s.status.op = 0x03
  · exact .inr (.inl ⟨hb, .inl h3⟩)
  by_cases h4 : s.status.op = 0x04
  · exact .inr (.inl ⟨hb, .inr h4⟩)
  by_cases h5 : s.status.op = 0x05
  · exact .inr (.inr (.inl ⟨hb, h5⟩))
  refine .inr (.inr (.inr fun e => ?_))
  rw [engineStep_of_busy (s := withEnv e s) hb]
  exact (if_neg h2).trans ((if_neg h3).trans ((if_neg h4).trans (if_neg h5)))

/-- An engine step neither looks at the agents' fields nor changes them. -/
theorem engineStep_withEnv (e : Env) (s : State) : engineStep (withEnv e s) = onNext (withEnv e) (engineStep s) := by
  by_cases hb : s.isBusy
  case neg => rw [engineStep_of_not_busy hb, engineStep_of_not_busy (s := withEnv e s) hb, onNext]
  obtain hr | hx | hd | hno := running_cases hb
  · cases hsub : s.br.sub with
    | query =>
      rw [engineStep_of_query hr hsub, engineStep_of_query (s := withEnv e s) hr hsub]
      rfl
    | read =>
      rw [engineStep_of_read hr hsub, engineStep_of_read (s := withEnv e s) hr hsub, brRead_withEnv]
      rfl
  · cases hq : s.rxq with
    | nil =>
      rw [engineStep_of_emptyPoll hx hq, engineStep_of_emptyPoll (s := withEnv e s) hx hq, hvEmptyPoll_withEnv]
      rfl
    | cons b q =>
      rw [engineStep_of_received hx hq, engineStep_of_received (s := withEnv e s) hx hq]
      exact congrArg _ (hvReceive_withEnv e { s with rxq := q } b)
  · rw [engineStep_of_inDecode hd, engineStep_of_inDecode (s := withEnv e s) hd, decodeStep_withEnv]
  · have hs : engineStep s = .fault .engineNoCommand := hno s.env
    rw [hno, hs, onNext]

theorem takeTurn_engine_withEnv (e : Env) (s : State) :
    takeTurn .engine (withEnv e s) = onNext (withEnv e) (takeTurn .engine s) := by
  cases hp : s.resetPin
  · rw [takeTurn_engine hp, takeTurn_engine (s := withEnv e s) hp, engineStep_withEnv]
  · rw [takeTurn, takeTurn, if_pos hp, if_pos (show (withEnv e s).resetPin = true from hp), onNext]

/-- The engine's turn leaves the agents' fields alone. -/
theorem env_of_engine_turn {s t : State} (h : takeTurn .engine s = .next t) : t.env = s.env := by
  have hself := takeTurn_engine_withEnv s.env s
  rw [withEnv_self, h] at hself
  have ht : t = withEnv s.env t := Host.Outcome.next.inj hself
  rw [ht, withEnv_env]

/-- `s` with schedule `ts`. -/
def withSched (ts : List Turn) (s : State) : State := { s with env.sched := ts }

theorem run_of_next {M : Host.Core} {s t : M.State} (h : M.step s = .next t) (k : Nat) :
    M.run (k + 1) s = M.run k t := by
  rw [Host.Core.run, h]

theorem run_of_fault {M : Host.Core} {s : M.State} {r : M.Fault} (h : M.step s = .fault r) (k : Nat) :
    M.run (k + 1) s = .fault r := by
  rw [Host.Core.run, h]

/-- An engine turn that comes first in the schedule, and what it leaves. -/
theorem step_engine_turn (rest ts : List Turn) (s : State) : step (withSched (.engine :: rest) s) =
    onNext (withSched rest) (takeTurn .engine (withSched ts s)) := by
  have hstep : step (withSched (.engine :: rest) s) =
      takeTurn .engine (withEnv (withSched rest s).env (withSched ts s)) := step_of_sched rfl
  rw [hstep, takeTurn_engine_withEnv]
  cases ht : takeTurn .engine (withSched ts s) with
  | next t =>
    have henv := env_of_engine_turn ht
    simp only [onNext, withSched, henv]
    rfl
  | fault r | refused r => rfl

/-- Settles O10: a chunk is a push and an engine turn, and neither looks at the rest of the schedule. -/
theorem scheduleRunsTheDevice : Obligations.ScheduleRunsTheDevice := by
  intro cs ts s
  change Sys2Proof.core.run _ (withSched (deviceSchedule cs ++ ts) s) = deviceRun cs (withSched ts s)
  induction cs generalizing s with
  | nil => rfl
  | cons bs cs ih =>
    have hpush : Sys2Proof.core.step (withSched (deviceSchedule (bs :: cs) ++ ts) s) =
        .next (withSched (.engine :: (deviceSchedule cs ++ ts)) (devicePush bs s)) := rfl
    have hturn : Sys2Proof.core.step (withSched (.engine :: (deviceSchedule cs ++ ts)) (devicePush bs s)) = _ :=
      step_engine_turn (deviceSchedule cs ++ ts) ts (devicePush bs s)
    have hcomm : devicePush bs (withSched ts s) = withSched ts (devicePush bs s) := rfl
    rw [List.length_cons, Nat.mul_succ, run_of_next hpush, deviceRun, hcomm]
    cases ht : takeTurn .engine (withSched ts (devicePush bs s)) with
    | next t =>
      rw [ht, onNext] at hturn
      have hsched : withSched ts t = t := by
        have henv : t.env.sched = ts := congrArg Env.sched (env_of_engine_turn ht)
        rw [withSched, ← henv]
      rw [run_of_next hturn, ih, hsched]
    | fault r =>
      rw [ht, onNext] at hturn
      exact run_of_fault hturn _
    | refused r =>
      rw [ht, onNext] at hturn
      exact absurd hturn
        (step_not_refused (withSched (.engine :: (deviceSchedule cs ++ ts)) (devicePush bs s)) r)

/-- Settles O11: the invariant leaves four opcodes, and only DECODE's step can fault. -/
theorem busyEngineAlwaysSteps : Obligations.BusyEngineAlwaysSteps := by
  intro s hinv hb
  rw [← engineStep_of_busy hb]
  have hx (hx : s.inExchange) : ∃ t, engineStep s = .next t := by
    cases hq : s.rxq with
    | nil => exact ⟨_, engineStep_of_emptyPoll hx hq⟩
    | cons b q => exact ⟨_, engineStep_of_received hx hq⟩
  obtain ho | ho | ho | ho := hinv.1.busyOp hb
  · cases hsub : s.br.sub with
    | query => exact .inl ⟨_, engineStep_of_query ⟨hb, ho⟩ hsub⟩
    | read => exact .inl ⟨_, engineStep_of_read ⟨hb, ho⟩ hsub⟩
  · exact .inl (hx ⟨hb, .inl ho⟩)
  · exact .inl (hx ⟨hb, .inr ho⟩)
  · have hd : s.inDecode := ⟨hb, ho⟩
    cases hf : readFrames s.mem 0 (s.fp.dlen.toNat / 8) with
    | some fs => exact .inl ⟨_, engineStep_of_frames hd hf⟩
    | none => exact .inr ⟨hd, engineStep_of_no_frames hd hf⟩

/-! ### wait and check (30_encoding.md rule R86) -/

theorem stateCode_eq_one_iff (e : EngineState) : e.code = 1 ↔ e = .busy := by
  cases e <;> decide

theorem stateCode_eq_two_iff (e : EngineState) : e.code = 2 ↔ e = .done := by
  cases e <;> decide

/-- After the STATUS read of a `wait`. -/
theorem afterWait_of_status (p : List HostOp) (s : State) :
    afterWait p (answer (some (.data s.status.word)) s) =
      { s with env := { s.env with
        reply := some (.data s.status.word), vars := cellSet s.env.vars statusVar s.status.word,
        prog := if s.status.state = .busy then .wait :: p else p } } := by
  simp only [afterWait, answer_env, status_state_bits, stateCode_eq_one_iff]
  rfl

theorem afterCheck_of_status (p : List HostOp) (s : State) :
    afterCheck p (answer (some (.data s.status.word)) s) =
      { s with env := { s.env with
        reply := some (.data s.status.word), vars := cellSet s.env.vars statusVar s.status.word,
        prog := if s.status.state = .done then p else [] } } := by
  simp only [afterCheck, answer_env, status_state_bits, stateCode_eq_two_iff]
  rfl

theorem hostTurn_of_wait {s : State} {p : List HostOp} (hp : s.resetPin = false) (h : s.env.prog = .wait :: p) :
    hostTurn s = .next (afterWait p (answer (some (.data s.status.word)) s)) := by
  simp only [hostTurn, h, hostOperation, busAccess_read_status hp, onNext]

theorem hostTurn_of_check {s : State} {p : List HostOp} (hp : s.resetPin = false) (h : s.env.prog = .check :: p) :
    hostTurn s = .next (afterCheck p (answer (some (.data s.status.word)) s)) := by
  simp only [hostTurn, h, hostOperation, busAccess_read_status hp, onNext]

/-- Settles O59: the STATUS read is answered, and its two low bits are the code of STATE. -/
theorem waitAndCheckFollowStatus : Obligations.WaitAndCheckFollowStatus := by
  intro s p hp
  refine ⟨fun h => ?_, fun h => ?_, fun t h ht => ?_⟩
  · rw [hostTurn_of_wait hp h, afterWait_of_status]
  · rw [hostTurn_of_check hp h, afterCheck_of_status]
  · obtain h | h := h
    · rw [hostTurn_of_wait hp h, afterWait_of_status] at ht
      cases ht
      exact (cellGet_cellSet ..).trans (if_pos rfl)
    · rw [hostTurn_of_check hp h, afterCheck_of_status] at ht
      cases ht
      exact (cellGet_cellSet ..).trans (if_pos rfl)

/-! ### RESET (70_reset_and_hazards.md rule R151) -/

/-- Settles O53: no access is answered and no engine step taken; the release is `resetRegisters` with memory empty. -/
theorem resetPinRestoresTheResetValues : Obligations.ResetPinRestoresTheResetValues := by
  intro s hp
  refine ⟨fun a => ?_, ?_, { resetRegisters s with mem := [], resetPin := false }, ?_, rfl, rfl,
    fun r => readReg_resetRegisters r { s with mem := [], resetPin := false }, rfl, rfl, rfl, fun _ => rfl, ⟨rfl, rfl⟩,
    rfl⟩
  · rw [busAccess, if_pos hp]
    rfl
  · rw [takeTurn, if_pos hp]
  · obtain ⟨hb, -⟩ | ⟨-, -, hd⟩ | ⟨-, hp', -⟩ := driveReset_cases false s
    · cases hb
    · exact congrArg _ hd
    · exact absurd (hp.symm.trans hp') (by decide)

end Sys2Proof.Proofs

/-! PROOF. What the host's turn can do to the machine, while BUSY and to the streams (10_state.md rules R50, R51;
70_reset_and_hazards.md rule R159). -/

namespace Sys2Proof.Proofs

open Sys2Proof.Machine

/-! ### The host's turn is at most one access (20_memory.md rule R63) -/

/-- A host turn is one access up to the agents' fields, or nothing. -/
theorem hostTurn_next {s t : State} (h : hostTurn s = .next t) :
    t = s ∨ ∃ a e u e', busAccess a (withEnv e s) = .next u ∧ t = withEnv e' u := by
  unfold hostTurn at h
  split at h
  · cases h
    exact .inl rfl
  rename_i op rest _
  right
  cases op with
  | write a z v =>
    simp only [hostOperation] at h
    split at h
    · exact ⟨_, { s.env with prog := rest }, t, t.env, h, rfl⟩
    · cases h
  | read r a z =>
    obtain ⟨u, hu, rfl⟩ := onNext_next h
    obtain ⟨e, he⟩ := hostLoad_env r u
    exact ⟨_, { s.env with prog := rest }, u, e, hu, he⟩
  | wait =>
    obtain ⟨u, hu, rfl⟩ := onNext_next h
    obtain ⟨e, he⟩ := afterWait_env rest u
    exact ⟨_, s.env, u, e, hu, he⟩
  | check =>
    obtain ⟨u, hu, rfl⟩ := onNext_next h
    obtain ⟨e, he⟩ := afterCheck_env rest u
    exact ⟨_, s.env, u, e, hu, he⟩

/-- An access is unanswered, a bus error, a read or a write. -/
theorem busAccess_next {a : Access} {s t : State} (h : busAccess a s = .next t) :
    t = answer none s ∨ t = busError s ∨ (∃ u, hostRead u s = .next t) ∨
      ∃ u w, hostWrite u w (answer (some .done) s) = .next t := by
  unfold busAccess at h
  split at h
  · cases h
    exact .inl rfl
  split at h
  · cases h
    exact .inl rfl
  split at h
  · cases h
    exact .inr (.inl rfl)
  cases a with
  | read => exact .inr (.inr (.inl ⟨_, h⟩))
  | write => exact .inr (.inr (.inr ⟨_, _, h⟩))

/-! ### While BUSY (70_reset_and_hazards.md rule R159) -/

/-- `t` is `s` but for OVR and the model's own fields. -/
def UndisturbedTo (s t : State) : Prop :=
  t = { s with status.ovr := t.status.ovr, env := t.env, draws := t.draws, modelFaults := t.modelFaults }

theorem hostWrite_of_busy {u : Target} {w : Word} {s t : State} (hb : s.isBusy) (h : hostWrite u w s = .next t) :
    t = s ∨ t = overrun s := by
  have hdrop {f : State → State} : unlessBusy f s = overrun s := unlessBusy_of_busy hb
  cases u with
  | reg r =>
    by_cases hr : r = .cmd
    · subst hr
      exact .inr (Host.Outcome.next.inj ((cmdWrite_of_busy w hb).symm.trans h)).symm
    · rw [hostWrite_reg hr, hdrop] at h
      cases h
      split
      · exact .inr rfl
      · exact .inl rfl
  | accByte i | accWord i =>
    cases h
    exact .inr hdrop
  | sampleWord i =>
    cases h
    exact .inl rfl

theorem undisturbed_of_busAccess {a : Access} {s t : State} (hb : s.isBusy) (h : busAccess a s = .next t) :
    UndisturbedTo s t := by
  obtain rfl | rfl | ⟨u, hr⟩ | ⟨u, w, hw⟩ := busAccess_next h
  · rfl
  · rfl
  · obtain ⟨v, rfl | rfl⟩ := hostRead_next hr <;> rfl
  · obtain rfl | rfl := hostWrite_of_busy (s := answer (some .done) s) hb hw <;> rfl

/-- Settles O50: the turn is an access at most, and while BUSY an access is a read or a drop. -/
theorem hostCannotDisturbARunningCommand : Obligations.HostCannotDisturbARunningCommand := by
  intro s t hb _ h
  obtain rfl | ⟨a, e, u, e', hu, rfl⟩ := hostTurn_next h
  · rfl
  · have hs : UndisturbedTo (withEnv e s) u := undisturbed_of_busAccess hb hu
    exact congrArg (withEnv e') hs

/-! ### The streams (10_state.md rules R50, R51) -/

/-- RXQ is kept, or emptied by an accepted FLUSH_RX. -/
def KeepsOrFlushes (s t : State) : Prop :=
  t.rxq = s.rxq ∨ (t.rxq = [] ∧ s.accepts ∧ t.status.op = 0x06 ∧ t.status.state = .done)

theorem Launch.keepsOrFlushes {opc : Byte} {body : State → State} (h : Launch opc body) {s : State} (ha : s.accepts) :
    KeepsOrFlushes s (body (launching opc s)) := by
  cases h with
  | illegal => exact .inl rfl
  | readExact =>
    rw [launchReadExact_frame]
    exact .inl rfl
  | exchange =>
    rw [launchExchange_frame]
    exact .inl rfl
  | decode =>
    rw [launchDecode_frame]
    exact .inl rfl
  | flush => exact .inr ⟨rfl, ha, rfl, rfl⟩

theorem keepsOrFlushes_of_hostWrite {u : Target} {w : Word} {s t : State} (h : hostWrite u w s = .next t) :
    KeepsOrFlushes s t := by
  obtain rfl | rfl | rfl | ⟨r, rfl⟩ | rfl | ⟨opc, body, hl, ha, rfl⟩ := hostWrite_next h
  · exact .inl rfl
  · exact .inl rfl
  · exact .inl rfl
  · rw [writeReg_frame]
    exact .inl rfl
  · rw [storeAcc_frame]
    exact .inl rfl
  · exact hl.keepsOrFlushes ha

theorem keepsOrFlushes_of_host {s t : State} (h : hostTurn s = .next t) : KeepsOrFlushes s t := by
  obtain rfl | ⟨a, e, u, e', hu, rfl⟩ := hostTurn_next h
  · exact .inl rfl
  obtain rfl | rfl | ⟨v, hr⟩ | ⟨v, w, hw⟩ := busAccess_next hu
  · exact .inl rfl
  · exact .inl rfl
  · obtain ⟨x, rfl | rfl⟩ := hostRead_next hr <;> exact .inl rfl
  · exact (keepsOrFlushes_of_hostWrite hw :)

theorem suffix_of_engineStep {s t : State} (h : engineStep s = .next t) : t.rxq <:+ s.rxq := by
  by_cases hb : s.isBusy
  case neg =>
    rw [engineStep_of_not_busy hb] at h
    cases h
    exact List.suffix_rfl
  obtain hr | hx | hd | hno := running_cases hb
  · cases hsub : s.br.sub with
    | query =>
      rw [engineStep_of_query hr hsub] at h
      cases h
      exact List.suffix_rfl
    | read =>
      rw [engineStep_of_read hr hsub, brRead_frame] at h
      cases h
      exact List.drop_suffix _ _
  · rw [oneBytePerPoll s t hx h]
    exact List.drop_suffix _ _
  · cases hf : readFrames s.mem 0 (s.fp.dlen.toNat / 8) with
    | some fs =>
      rw [engineStep_of_frames hd hf] at h
      cases h
      exact List.suffix_rfl
    | none =>
      rw [engineStep_of_no_frames hd hf] at h
      cases h
  · exact absurd ((hno s.env).symm.trans h) (by simp)

/-- No turn takes a byte back from TXH. -/
theorem txh_extended_by_turn {u : Turn} {s t : State} (h : takeTurn u s = .next t) : s.txh <+: t.txh := by
  obtain ⟨t, e, hm, rfl⟩ := takeTurn_reaches h
  obtain ⟨bs, hbs, -⟩ := (carriesOver_of_move hm).sent
  exact ⟨bs, hbs.symm⟩

/-- Settles O51: TXH by the moves, RXQ turn by turn. -/
theorem onlyTheEngineTakesFromTheFifo : Obligations.OnlyTheEngineTakesFromTheFifo := by
  refine fun s t u h => ⟨txh_extended_by_turn h, ?push, ?engine, ?host, ?reset⟩
  case push =>
    rintro bs rfl
    cases h
    rfl
  case engine =>
    rintro rfl
    cases hp : s.resetPin
    · rw [takeTurn_engine hp] at h
      exact suffix_of_engineStep h
    · rw [takeTurn, if_pos hp] at h
      cases h
      exact List.suffix_rfl
  case host =>
    rintro rfl
    exact keepsOrFlushes_of_host h
  case reset =>
    rintro b rfl
    cases h
    obtain ⟨-, hd⟩ | ⟨-, -, hd⟩ | ⟨-, -, hd⟩ := driveReset_cases b s <;> rw [hd]
    rfl

end Sys2Proof.Proofs

/-! PROOF. How long a READ_EXACT can run beside a device (41_bounded_reader.md rules R99, R104). -/

namespace Sys2Proof.Proofs

open Sys2Proof.Machine

/-! ### Counting engine turns -/

/-- A property of the state and of the number of engine turns taken that every chunk of the given kind keeps: the run
answers a next state, in which the property holds. -/
theorem deviceRun_counted {P : Nat → State → Prop} {chunk : List Byte → Prop}
    (hturn : ∀ k bs s, chunk bs → P k s → ∃ t, takeTurn .engine (devicePush bs s) = .next t ∧ P (k + 1) t)
    {cs : List (List Byte)} {k : Nat} {s : State} (hcs : ∀ bs ∈ cs, chunk bs) (hs : P k s) :
    ∃ u, deviceRun cs s = .next u ∧ P (k + cs.length) u := by
  induction cs generalizing k s with
  | nil => exact ⟨s, rfl, hs⟩
  | cons bs cs ih =>
    obtain ⟨t, ht, hPt⟩ := hturn k bs s (hcs bs List.mem_cons_self) hs
    obtain ⟨u, hu, hPu⟩ := ih (fun cs hc => hcs cs (List.mem_cons_of_mem _ hc)) hPt
    refine ⟨u, ?_, ?_⟩
    · simp only [deviceRun, ht, hu]
    · rwa [List.length_cons, Nat.add_comm cs.length, ← Nat.add_assoc]

theorem devicePush_nil (s : State) : devicePush [] s = s := by
  simp [devicePush]

theorem ended_of_not_busy {s : State} (h : s.ended) : ¬ s.isBusy := by
  obtain h | h := h <;> simp [State.isBusy, h]

/-! ### The bound (rule R99) -/

/-- The engine steps a running READ_EXACT still has: two per byte missing and per poll left, less one where its QUERY
is done. -/
def readerSteps (s : State) : Nat :=
  2 * ((s.br.n.toNat - s.br.len.toNat) + (s.br.max.toNat - s.br.empty.toNat)) - if s.br.sub = .read then 1 else 0

/-- A step of a running reader brings the end nearer. -/
theorem readerSteps_falls {s : State} (hb : s.inReadExact) (hm : s.br.empty < s.br.max) (hl : s.br.len < s.br.n)
    (hr : s.br.sub = .read → s.br.r.toNat ≤ s.br.n.toNat - s.br.len.toNat) :
    ∃ t, engineStep s = .next t ∧ readerSteps t + 1 ≤ readerSteps s := by
  have hm' : s.br.empty.toNat < s.br.max.toNat := hm
  have hl' : s.br.len.toNat < s.br.n.toNat := hl
  cases hsub : s.br.sub with
  | query =>
    refine ⟨_, engineStep_of_query hb hsub, ?_⟩
    simp only [readerSteps, brQuery, hsub, reduceCtorEq, if_true, if_false]
    omega
  | read =>
    refine ⟨_, engineStep_of_read hb hsub, ?_⟩
    have hlen := readAppended_len_toNat (BitVec.le_of_lt hl) (hr hsub)
    have hempty := readAppended_empty_toNat hm
    have htake := List.length_take_le s.br.r.toNat s.rxq
    have hbr : (brRead s).br = (readAppended s).br := by rw [brRead_frame]
    have hn : (readAppended s).br.n = s.br.n := rfl
    have hmax : (readAppended s).br.max = s.br.max := rfl
    have hq : (readAppended s).br.sub = .query := rfl
    simp only [readerSteps, hbr, hn, hmax, hq, hsub, hlen, reduceCtorEq, if_true, if_false]
    split at hempty <;> omega

/-- A READ_EXACT that has ended, or has taken `k` steps of at most `bound`. -/
def WithinReaderBound (n m : Word) (bound k : Nat) (s : State) : Prop :=
  ∃ q, Reading n m q s ∧ (s.ended ∨ k + readerSteps s ≤ bound)

theorem WithinReaderBound.turn {n m : Word} {bound k : Nat} (bs : List Byte) {s : State}
    (h : WithinReaderBound n m bound k s) :
    ∃ t, takeTurn .engine (devicePush bs s) = .next t ∧ WithinReaderBound n m bound (k + 1) t := by
  obtain ⟨q, hq, hk⟩ := h
  have hq := hq.devicePush bs
  cases hq.stands with
  | done hst =>
    exact ⟨_, takeTurn_engine_of_not_busy (ended_of_not_busy (.inl hst)), _, hq, .inl (.inl hst)⟩
  | timedOut hst =>
    exact ⟨_, takeTurn_engine_of_not_busy (ended_of_not_busy (.inr hst)), _, hq, .inl (.inr hst)⟩
  | running hb hm hl hr =>
    have hsteps : readerSteps (devicePush bs s) = readerSteps s := rfl
    have hk : k + readerSteps s ≤ bound := hk.resolve_left fun he => ended_of_not_busy he hb.1
    obtain ⟨t, ht, hfall⟩ := readerSteps_falls hb hm hl hr
    rw [← takeTurn_engine hq.released] at ht
    exact ⟨t, ht, _, hq.engineTurn ht, .inr (by omega)⟩

/-- Settles O15: the steps left fall with every step, from at most 2 * (n + m), and a running reader has some left. -/
theorem readExactEndsWithinItsBound : Obligations.ReadExactEndsWithinItsBound := by
  intro s t cs hs hp hn ht hlen
  have hread := Reading.of_launch hs hp hn ht
  have hfirst : readerSteps t ≤ 2 * (s.arg0.toNat + s.arg1.toNat) := by
    rw [readerSteps, hread.target, hread.budget]
    omega
  have hstart : WithinReaderBound s.arg0 s.arg1 (2 * (s.arg0.toNat + s.arg1.toNat)) 0 t :=
    ⟨_, hread, .inr (by omega)⟩
  obtain ⟨u, hu, q, hq, hend⟩ := deviceRun_counted (chunk := fun _ => True) (cs := cs)
    (fun k bs s _ h => h.turn bs) (fun _ _ => trivial) hstart
  refine ⟨u, hu, ?_⟩
  cases hq.stands with
  | done hst => exact .inl hst
  | timedOut hst => exact .inr hst
  | running hb hm hl hr =>
    refine hend.resolve_right fun hle => ?_
    have hm' : u.br.empty.toNat < u.br.max.toNat := hm
    have hl' : u.br.len.toNat < u.br.n.toNat := hl
    simp only [readerSteps] at hle
    split at hle <;> omega

/-! ### A silent device (rule R104) -/

/-- With nothing to receive, nothing is collected. -/
theorem Reading.silent {n m : Word} {s : State} (h : Reading n m [] s) : s.rxq = [] ∧ s.br.len = 0 := by
  obtain ⟨bs, hacc, hq⟩ := h.stream
  obtain ⟨rfl, hrxq⟩ := List.append_eq_nil_iff.1 hq
  have hlen := ((readBytes_eq_some ..).1 hacc).1
  exact ⟨hrxq, BitVec.eq_of_toNat_eq hlen.symm⟩

/-- A READ_EXACT beside a silent device after `k` engine steps: two per empty poll while it runs, and no end before the
budget is spent. -/
structure SilentReading (n m : Word) (k : Nat) (s : State) : Prop where
  reading : Reading n m [] s
  steps : s.isBusy → k = 2 * s.br.empty.toNat + if s.br.sub = .read then 1 else 0
  spent : ¬ s.isBusy → 2 * m.toNat ≤ k

theorem SilentReading.turn {n m : Word} (hn : n ≠ 0) {k : Nat} {s : State} (h : SilentReading n m k s) :
    ∃ t, takeTurn .engine s = .next t ∧ SilentReading n m (k + 1) t := by
  by_cases hbusy : s.isBusy
  case neg =>
    have := h.spent hbusy
    exact ⟨s, takeTurn_engine_of_not_busy hbusy, h.reading, fun hb => absurd hb hbusy, fun _ => by omega⟩
  have hk := h.steps hbusy
  obtain ⟨hrxq, hlen⟩ := h.reading.silent
  cases h.reading.stands with
  | done hst => exact absurd hbusy (ended_of_not_busy (.inl hst))
  | timedOut hst => exact absurd hbusy (ended_of_not_busy (.inr hst))
  | running hb hm hl hr =>
    have hturn {t : State} (ht : engineStep s = .next t) : takeTurn .engine s = .next t := by
      rw [takeTurn_engine h.reading.released, ht]
    cases hsub : s.br.sub with
    | query =>
      have ht := hturn (engineStep_of_query hb hsub)
      refine ⟨_, ht, h.reading.engineTurn ht, fun _ => ?_, fun hno => absurd hbusy hno⟩
      rw [hk, hsub]
      rfl
    | read =>
      have ht := hturn (engineStep_of_read hb hsub)
      have hreading := h.reading.engineTurn ht
      have hempty := readAppended_empty_toNat hm
      have hbr : (brRead s).br = (readAppended s).br := by rw [brRead_frame]
      rw [← hbr, hrxq, List.take_nil, if_pos List.length_nil] at hempty
      have hq : (brRead s).br.sub = .query := by rw [hbr]; rfl
      rw [hsub, if_pos rfl] at hk
      refine ⟨_, ht, hreading, fun _ => ?_, fun hno => ?_⟩
      · rw [hempty, hq, hk]
        rfl
      · cases hreading.stands with
        | done _ hl' => exact absurd (hreading.target ▸ hl' ▸ hreading.silent.2) hn
        | timedOut _ _ hm' =>
          rw [← hreading.budget, ← hm', hempty]
          omega
        | running hb' => exact absurd hb'.1 hno

/-- Settles O17: beside a silent device the engine takes two steps per empty poll until m of them are spent. -/
theorem silentDeviceTimesOutAfterExactlyTheBudget : Obligations.SilentDeviceTimesOutAfterExactlyTheBudget := by
  intro s t k hs hp hn0 hn hq ht
  have hread : Reading s.arg0 s.arg1 [] t := hq ▸ Reading.of_launch hs hp hn ht
  have hstart : SilentReading s.arg0 s.arg1 0 t := by
    rw [exec_readExact_of_fits hs hn] at ht
    cases ht
    refine ⟨hread, fun _ => ?_, fun hno => ?_⟩
    · rw [brCheck_eq_status_update]
      rfl
    · obtain ⟨hl, -⟩ | ⟨-, hspent, -⟩ | ⟨-, -, hc⟩ := brCheck_cases (readLaunched s)
      · exact absurd hl.symm hn0
      · have hm : s.arg1.toNat ≤ 0 := hspent
        omega
      · exact absurd (show (brCheck (readLaunched s)).isBusy by rw [hc]; rfl) hno
  obtain ⟨u, hu, hend⟩ := deviceRun_counted (chunk := (· = [])) (cs := List.replicate k [])
    (fun k bs s hbs h => by rw [hbs, devicePush_nil]; exact h.turn hn0) (fun _ hmem => List.eq_of_mem_replicate hmem)
    hstart
  rw [List.length_replicate, Nat.zero_add] at hend
  refine ⟨u, hu, fun hk => ?_, fun hk => ?_⟩
  · by_contra hb
    have := hend.spent hb
    omega
  · cases hend.reading.stands with
    | done _ hl => exact absurd (hend.reading.target ▸ hl ▸ hend.reading.silent.2) hn0
    | timedOut hst he hm => exact ⟨hst, he, hm.trans hend.reading.budget, hend.reading.silent.2⟩
    | running hb hm =>
      have hm' : u.br.empty.toNat < u.br.max.toNat := hm
      have hsteps := hend.steps hb.1
      rw [hend.reading.budget] at hm'
      split at hsteps <;> omega

end Sys2Proof.Proofs

/-! PROOF. An exchange from its launch on, beside an arbitrary device (42_handshake.md rules R109 to R116, R163). -/

namespace Sys2Proof.Proofs

open Sys2Proof.Machine

/-! ### An empty poll (rules R109, R113) -/

/-- The state in which an empty poll runs its budget check. -/
def polledEmpty (s : State) : State := { s with hv.inner := s.hv.inner + 1, hv.outer := s.hv.outer + 1 }

theorem hvEmptyPoll_eq_check (s : State) : hvEmptyPoll s = hvCheck (polledEmpty s) := rfl

/-- Below the budgets the counters cannot wrap. -/
theorem polledEmpty_counts {s : State} (hi : s.hv.inner < s.hvMaxwait) (ho : s.hv.outer < s.hvOutermax) :
    (polledEmpty s).hv.inner.toNat = s.hv.inner.toNat + 1 ∧ (polledEmpty s).hv.outer.toNat = s.hv.outer.toNat + 1 := by
  simp only [polledEmpty]
  constructor <;> bv_omega

theorem regsKept_polledEmpty (x : Status) (s : State) :
    regsKept [.status, .hvInner, .hvOuter] s { polledEmpty s with status := x } := by
  intro r hr
  cases r with
  | status | hvInner | hvOuter => simp at hr
  | _ => rfl

/-- Settles O24: the poll is the budget check of both counters plus 1, which writes STATUS alone. -/
theorem emptyPollCountsAgainstBothBudgets : Obligations.EmptyPollCountsAgainstBothBudgets := by
  intro s hinv hx hq
  obtain ⟨hi, ho, -⟩ := hinv.exchangeProgress hx
  obtain ⟨hinner, houter⟩ := polledEmpty_counts hi ho
  refine ⟨_, engineStep_of_emptyPoll hx hq, ?_⟩
  rw [hvEmptyPoll_eq_check, hvCheck_eq_status_update]
  refine ⟨hinner, houter, rfl, fun hi' ho' => ?below, fun hspent => ?spent, regsKept_polledEmpty _ s, fun _ => rfl,
    ⟨rfl, rfl⟩, ⟨rfl, rfl⟩, ⟨rfl, rfl⟩, rfl, rfl, rfl, rfl, rfl⟩
  case below =>
    refine hvCheck_status_of_running (s := polledEmpty s) ?_ ?_
    · rwa [BitVec.lt_def, hinner]
    · rwa [BitVec.lt_def, houter]
  case spent =>
    refine hvCheck_status_of_spent (s := polledEmpty s) ?_
    rwa [BitVec.le_def, BitVec.le_def, hinner, houter]

/-! ### Where an exchange stands -/

/-- What an exchange of ack byte `a` and `text` has received and sent in its phase, where `q` is all that RXQ held at
the launch or received since and `tx` is TXH at the launch. -/
structure OnTheWire (a : Byte) (text tx q : List Byte) (s : State) : Prop where
  echo : s.status.phase = .echo → s.hv.outer = s.hv.inner ∧ s.rxq = q ∧ s.txh = tx ++ [a]
  execution : s.status.phase = .execution → a :: s.rxq = q ∧ s.txh = tx ++ [a] ++ text

/-- Under way with polls left, done, or failed; with HV_OUTER at most HV_MAXWAIT - 1 above HV_INNER, because the echo
phase takes at most HV_MAXWAIT - 1 empty polls. -/
inductive ExchangeStands (a : Byte) (text tx q : List Byte) (s : State) : Prop where
  | running (hx : s.inExchange) (hi : s.hv.inner < s.hvMaxwait) (ho : s.hv.outer < s.hvOutermax)
      (hc : s.hv.outer.toNat ≤ s.hv.inner.toNat + (s.hvMaxwait.toNat - 1)) (hw : OnTheWire a text tx q s)
  | done (hst : s.status.state = .done) (hq : a :: 0x4F :: s.rxq = q) (htx : s.txh = tx ++ [a] ++ text)
  | failed (hst : s.status.state = .error) (htx : s.status.phase = .echo → s.txh = tx ++ [a])
      (hc : s.status.err = .protocolTimeout → s.hv.inner = s.hvMaxwait ∨ s.hv.inner < s.hvMaxwait ∧
        s.hv.outer = s.hvOutermax ∧ s.hv.outer.toNat ≤ s.hv.inner.toNat + (s.hvMaxwait.toNat - 1))

/-- An exchange with budgets `m` and `o`. -/
structure Exchanging (a : Byte) (text : List Byte) (m o : Word) (tx q : List Byte) (s : State) : Prop where
  released : s.resetPin = false
  ackLatched : s.hv.ack = a
  textLatched : s.hv.text = text
  maxwait : s.hvMaxwait = m
  outermax : s.hvOutermax = o
  stands : ExchangeStands a text tx q s

/-- The budget check puts a running exchange where it stands. -/
theorem hvCheck_stands {a : Byte} {text tx q : List Byte} {s : State} (hx : s.inExchange)
    (hi : s.hv.inner ≤ s.hvMaxwait) (ho : s.hv.outer ≤ s.hvOutermax)
    (hc : s.hv.outer.toNat ≤ s.hv.inner.toNat + (s.hvMaxwait.toNat - 1)) (hw : OnTheWire a text tx q s) :
    ExchangeStands a text tx q (hvCheck s) := by
  obtain ⟨hspent, h⟩ | ⟨hi', ho', h⟩ := hvCheck_cases s <;> rw [h]
  · refine .failed rfl (fun hp => (hw.echo hp).2.2) fun _ => ?_
    by_cases him : s.hv.inner = s.hvMaxwait
    · exact .inl him
    · exact .inr ⟨show s.hv.inner < s.hvMaxwait by bv_omega, show s.hv.outer = s.hvOutermax by bv_omega, hc⟩
  · exact .running hx hi' ho' hc hw

section exchange
variable {a : Byte} {text : List Byte} {m o : Word} {tx q : List Byte} {s t : State}

theorem Exchanging.of_hvCheck (hp : s.resetPin = false) (ha : s.hv.ack = a) (ht : s.hv.text = text)
    (hm : s.hvMaxwait = m) (ho : s.hvOutermax = o) (hst : ExchangeStands a text tx q (hvCheck s)) :
    Exchanging a text m o tx q (hvCheck s) := by
  rw [hvCheck_eq_status_update] at hst ⊢
  exact ⟨hp, ha, ht, hm, ho, hst⟩

/-- Either form launches into a budget check with both counters 0. -/
theorem exec_exchange {i : Instr} (hs : s.accepts) (hi : IsExchange i a text s) : ∃ opc v, (opc = 0x03 ∨ opc = 0x04) ∧
    exec i s = .next (hvCheck (exchangeLaunched opc a v text s)) := by
  obtain ⟨rfl, rfl⟩ | ⟨c, hc, rfl, rfl⟩ := hi
  · exact ⟨_, _, .inl rfl, exec_exchangeDec_of_accepts hs a⟩
  · exact ⟨_, _, .inr rfl, exec_exchangeLit_of_accepts hs a hc⟩

theorem Exchanging.of_launch {i : Instr} (hs : s.accepts) (hp : s.resetPin = false) (hi : IsExchange i a text s)
    (h : exec i s = .next t) : Exchanging a text s.hvMaxwait s.hvOutermax s.txh s.rxq t := by
  obtain ⟨opc, v, hopc, hexec⟩ := exec_exchange hs hi
  rw [hexec] at h
  cases h
  have hw : OnTheWire a text s.txh s.rxq (exchangeLaunched opc a v text s) :=
    ⟨fun _ => ⟨rfl, rfl, rfl⟩, fun hph => nomatch hph⟩
  exact .of_hvCheck (s := exchangeLaunched opc a v text s) hp rfl rfl rfl rfl
    (hvCheck_stands ⟨rfl, hopc⟩ (Nat.zero_le _) (Nat.zero_le _) (Nat.zero_le _) hw)

theorem Exchanging.devicePush (bs : List Byte) (h : Exchanging a text m o tx q s) :
    Exchanging a text m o tx (q ++ bs) (devicePush bs s) := by
  obtain ⟨hp, ha, ht, hm, ho, hst⟩ := h
  refine ⟨hp, ha, ht, hm, ho, ?_⟩
  cases hst with
  | running hx hi ho hc hw =>
    refine .running hx hi ho hc ⟨fun hph => ?_, fun hph => ?_⟩
    · obtain ⟨hio, rfl, htx⟩ := hw.echo hph
      exact ⟨hio, rfl, htx⟩
    · obtain ⟨rfl, htx⟩ := hw.execution hph
      exact ⟨rfl, htx⟩
  | done hst hq htx => exact .done hst (hq ▸ rfl) htx
  | failed hst htx hc => exact .failed hst htx hc

theorem Exchanging.hvEmptyPoll (h : Exchanging a text m o tx q s) (hx : s.inExchange) (hi : s.hv.inner < s.hvMaxwait)
    (ho : s.hv.outer < s.hvOutermax) (hc : s.hv.outer.toNat ≤ s.hv.inner.toNat + (s.hvMaxwait.toNat - 1))
    (hw : OnTheWire a text tx q s) : Exchanging a text m o tx q (hvEmptyPoll s) := by
  obtain ⟨hinner, houter⟩ := polledEmpty_counts hi ho
  refine .of_hvCheck (s := polledEmpty s) h.released h.ackLatched h.textLatched h.maxwait h.outermax
    (hvCheck_stands hx ?_ ?_ ?_ ⟨fun hp => ?_, hw.execution⟩)
  · rw [BitVec.le_def, hinner]
    exact hi
  · rw [BitVec.le_def, houter]
    exact ho
  · rw [hinner, houter]
    change _ ≤ _ + (s.hvMaxwait.toNat - 1)
    omega
  · obtain ⟨hio, hq, htx⟩ := hw.echo hp
    exact ⟨congrArg (· + 1) hio, hq, htx⟩

/-- A received byte ends the exchange or moves it into the execution phase. -/
theorem Exchanging.hvReceive {b : Byte} {q' : List Byte} (h : Exchanging a text m o tx q s) (hx : s.inExchange)
    (hi : s.hv.inner < s.hvMaxwait) (ho : s.hv.outer < s.hvOutermax) (hw : OnTheWire a text tx q s)
    (hq : s.rxq = b :: q') : Exchanging a text m o tx q (hvReceive b { s with rxq := q' }) := by
  obtain ⟨hp, ha, ht, hm, hout, -⟩ := h
  obtain ⟨-, hr⟩ | ⟨hph, rfl, hr⟩ | ⟨hph, rfl, hr⟩ := hvReceive_cases b { s with rxq := q' } <;> rw [hr]
  · exact ⟨hp, ha, ht, hm, hout, .failed rfl (fun hph => (hw.echo hph).2.2) (fun he => nomatch he)⟩
  · obtain ⟨hio, hsq, htx⟩ := hw.echo hph
    have hi' : s.hv.inner.toNat < s.hvMaxwait.toNat := hi
    have hpos : 0 < s.hvMaxwait := by bv_omega
    have hcount : s.hv.outer.toNat ≤ 0 + (s.hvMaxwait.toNat - 1) := by
      rw [hio]
      omega
    refine ⟨hp, ha, ht, hm, hout, .running hx hpos ho hcount ⟨(fun hph' => nomatch hph'), fun _ => ⟨?_, ?_⟩⟩⟩
    · exact ha ▸ hq.symm.trans hsq
    · exact (congrArg (· ++ s.hv.text) htx).trans (by rw [ht])
  · obtain ⟨hsq, htx⟩ := hw.execution hph
    exact ⟨hp, ha, ht, hm, hout, .done rfl ((congrArg (a :: ·) hq.symm).trans hsq) htx⟩

theorem Exchanging.engineTurn (h : Exchanging a text m o tx q s) (ht : takeTurn .engine s = .next t) :
    Exchanging a text m o tx q t := by
  cases h.stands with
  | done hst =>
    rw [takeTurn_engine_of_not_busy (ended_of_not_busy (.inl hst))] at ht
    cases ht
    exact h
  | failed hst =>
    rw [takeTurn_engine_of_not_busy (ended_of_not_busy (.inr hst))] at ht
    cases ht
    exact h
  | running hx hi ho hc hw =>
    rw [takeTurn_engine h.released] at ht
    cases hq : s.rxq with
    | nil =>
      rw [engineStep_of_emptyPoll hx hq] at ht
      cases ht
      exact h.hvEmptyPoll hx hi ho hc hw
    | cons b q' =>
      rw [engineStep_of_received hx hq] at ht
      cases ht
      exact h.hvReceive hx hi ho hw hq

/-- An exchange's turn always answers a next state. -/
theorem Exchanging.exists_turn (h : Exchanging a text m o tx q s) : ∃ t, takeTurn .engine s = .next t := by
  cases h.stands with
  | done hst => exact ⟨s, takeTurn_engine_of_not_busy (ended_of_not_busy (.inl hst))⟩
  | failed hst => exact ⟨s, takeTurn_engine_of_not_busy (ended_of_not_busy (.inr hst))⟩
  | running hx =>
    rw [takeTurn_engine h.released]
    cases hq : s.rxq with
    | nil => exact ⟨_, engineStep_of_emptyPoll hx hq⟩
    | cons b q' => exact ⟨_, engineStep_of_received hx hq⟩

theorem Exchanging.of_deviceRun {u : State} {cs : List (List Byte)} (ht : Exchanging a text m o tx q t)
    (h : deviceRun cs t = .next u) : Exchanging a text m o tx (q ++ cs.flatten) u :=
  deviceRun_induction (P := Exchanging a text m o tx) (fun _ bs _ h => h.devicePush bs)
    (fun _ _ _ h ht => h.engineTurn ht) ht h

end exchange

/-- Settles O27: what `ExchangeStands` says of a finished exchange. -/
theorem doneExchangeSawEchoThenO : Obligations.DoneExchangeSawEchoThenO := by
  intro s t u i a text cs hs hp hi ht hu
  cases ((Exchanging.of_launch hs hp hi ht).of_deviceRun hu).stands with
  | running hx =>
    exact ⟨fun hd => absurd hx.1 (ended_of_not_busy (.inl hd)), fun he => absurd hx.1 (ended_of_not_busy (.inr he))⟩
  | done hst hq htx => exact ⟨fun _ => ⟨hq.symm, htx⟩, fun he => absurd (hst.symm.trans he) (by decide)⟩
  | failed hst htx => exact ⟨fun hd => absurd (hst.symm.trans hd) (by decide), fun _ => htx⟩

end Sys2Proof.Proofs

/-! PROOF. How long an exchange can run beside a device, and which budget ends it (42_handshake.md rules R113, R115,
R116). -/

namespace Sys2Proof.Proofs

open Sys2Proof.Machine

/-! ### The bound (rule R115) -/

/-- The polls a running exchange still has at most: in the echo phase those of both phases. -/
def pollsLeft (s : State) : Nat :=
  match s.status.phase with
  | .echo => min (2 * s.hvMaxwait.toNat - s.hv.inner.toNat) (s.hvOutermax.toNat - s.hv.outer.toNat + 1)
  | .execution => min (s.hvMaxwait.toNat - s.hv.inner.toNat) (s.hvOutermax.toNat - s.hv.outer.toNat)

/-- A poll ends the exchange or uses up a poll. -/
theorem pollsLeft_falls {s : State} (hx : s.inExchange) (hi : s.hv.inner < s.hvMaxwait)
    (ho : s.hv.outer < s.hvOutermax) : ∃ t, engineStep s = .next t ∧ (t.ended ∨ pollsLeft t + 1 ≤ pollsLeft s) := by
  have hi' : s.hv.inner.toNat < s.hvMaxwait.toNat := hi
  have ho' : s.hv.outer.toNat < s.hvOutermax.toNat := ho
  cases hq : s.rxq with
  | nil =>
    refine ⟨_, engineStep_of_emptyPoll hx hq, ?_⟩
    rw [hvEmptyPoll_eq_check]
    obtain ⟨-, hc⟩ | ⟨-, -, hc⟩ := hvCheck_cases (polledEmpty s) <;> rw [hc]
    · exact .inl (.inr rfl)
    · right
      obtain ⟨hinner, houter⟩ := polledEmpty_counts hi ho
      have hstatus : (polledEmpty s).status = s.status := rfl
      have hbudgets : (polledEmpty s).hvMaxwait = s.hvMaxwait ∧ (polledEmpty s).hvOutermax = s.hvOutermax := ⟨rfl, rfl⟩
      simp only [pollsLeft, hinner, houter, hstatus, hbudgets]
      split <;> omega
  | cons b q =>
    refine ⟨_, engineStep_of_received hx hq, ?_⟩
    obtain ⟨-, hr⟩ | ⟨hph, -, hr⟩ | ⟨-, -, hr⟩ := hvReceive_cases b { s with rxq := q } <;> rw [hr]
    · exact .inl (.inr rfl)
    · right
      have hph : s.status.phase = .echo := hph
      have hafter : pollsLeft (acceptEcho { s with rxq := q }) =
          min (s.hvMaxwait.toNat - 0) (s.hvOutermax.toNat - s.hv.outer.toNat) := rfl
      rw [hafter, pollsLeft, hph]
      dsimp only
      omega
    · exact .inl (.inl rfl)

/-- An exchange that has ended, or has taken `k` polls of at most `bound`. -/
def WithinPollBound (a : Byte) (text : List Byte) (m o : Word) (tx : List Byte) (bound k : Nat) (s : State) : Prop :=
  ∃ q, Exchanging a text m o tx q s ∧ (s.ended ∨ k + pollsLeft s ≤ bound)

theorem WithinPollBound.turn {a : Byte} {text tx : List Byte} {m o : Word} {bound k : Nat} (bs : List Byte) {s : State}
    (h : WithinPollBound a text m o tx bound k s) :
    ∃ t, takeTurn .engine (devicePush bs s) = .next t ∧ WithinPollBound a text m o tx bound (k + 1) t := by
  obtain ⟨q, hq, hk⟩ := h
  have hq := hq.devicePush bs
  cases hq.stands with
  | done hst =>
    exact ⟨_, takeTurn_engine_of_not_busy (ended_of_not_busy (.inl hst)), _, hq, .inl (.inl hst)⟩
  | failed hst =>
    exact ⟨_, takeTurn_engine_of_not_busy (ended_of_not_busy (.inr hst)), _, hq, .inl (.inr hst)⟩
  | running hx hi ho =>
    have hpolls : pollsLeft (devicePush bs s) = pollsLeft s := rfl
    have hk : k + pollsLeft s ≤ bound := hk.resolve_left fun he => ended_of_not_busy he hx.1
    obtain ⟨t, ht, hfall⟩ := pollsLeft_falls hx hi ho
    rw [← takeTurn_engine hq.released] at ht
    exact ⟨t, ht, _, hq.engineTurn ht, hfall.imp id fun hfall => by omega⟩

/-- Settles O26: the polls left fall with every poll of a running exchange, from less than the bound. -/
theorem exchangeEndsWithinItsBound : Obligations.ExchangeEndsWithinItsBound := by
  intro s t i a text cs hs hp hi ht hlen
  have hex := Exchanging.of_launch hs hp hi ht
  have hfirst : pollsLeft t ≤ min (2 * s.hvMaxwait.toNat) s.hvOutermax.toNat + 1 := by
    rw [pollsLeft, hex.maxwait, hex.outermax]
    split <;> omega
  have hstart : WithinPollBound a text s.hvMaxwait s.hvOutermax s.txh
      (min (2 * s.hvMaxwait.toNat) s.hvOutermax.toNat + 1) 0 t := ⟨_, hex, .inr (by omega)⟩
  obtain ⟨u, hu, q, hq, hend⟩ := deviceRun_counted (chunk := fun _ => True) (cs := cs)
    (fun k bs s _ h => h.turn bs) (fun _ _ => trivial) hstart
  refine ⟨u, hu, hend.resolve_right fun hle => by omega⟩

/-! ### A silent device (rule R113) -/

/-- An exchange that was sent no byte: it is in the echo phase, and every poll was empty. -/
structure Unanswered (a : Byte) (m o : Word) (tx : List Byte) (s : State) : Prop where
  released : s.resetPin = false
  maxwait : s.hvMaxwait = m
  outermax : s.hvOutermax = o
  silent : s.rxq = []
  phase : s.status.phase = .echo
  sent : s.txh = tx ++ [a]
  counts : s.hv.outer = s.hv.inner

/-- Such an exchange after `k` polls: HV_INNER counts them until the inner budget is spent. -/
structure SilentExchange (a : Byte) (m o : Word) (tx : List Byte) (k : Nat) (s : State) : Prop where
  unanswered : Unanswered a m o tx s
  stands : (s.inExchange ∧ s.hv.inner < m ∧ s.hv.inner.toNat = k) ∨
    (s.status.state = .error ∧ s.status.err = .protocolTimeout ∧ s.hv.inner = m ∧ m.toNat ≤ k)

section silent
variable {a : Byte} {m o : Word} {tx : List Byte} {k : Nat} {s : State}

/-- Where the outer budget is not below the inner one, the budget check times out with the inner one. -/
theorem SilentExchange.of_hvCheck (hmo : m ≤ o) (h : Unanswered a m o tx s) (hx : s.inExchange) (hi : s.hv.inner ≤ m)
    (hk : s.hv.inner.toNat = k) : SilentExchange a m o tx k (hvCheck s) := by
  obtain ⟨hspent, hc⟩ | ⟨hi', -, hc⟩ := hvCheck_cases s <;> rw [hc]
  · have him : s.hv.inner = m := by
      rw [h.maxwait, h.outermax, h.counts] at hspent
      bv_omega
    exact ⟨{ h with }, .inr ⟨rfl, rfl, him, by rw [← him, hk]⟩⟩
  · exact ⟨h, .inl ⟨hx, h.maxwait ▸ hi', hk⟩⟩

theorem SilentExchange.turn (hmo : m ≤ o) (h : SilentExchange a m o tx k s) :
    ∃ t, takeTurn .engine s = .next t ∧ SilentExchange a m o tx (k + 1) t := by
  obtain ⟨hun, ⟨hx, hi, hk⟩ | ⟨hst, herr, him, hk⟩⟩ := h
  · have hinner : s.hv.inner < s.hvMaxwait := hun.maxwait ▸ hi
    have houter : s.hv.outer < s.hvOutermax := by
      rw [hun.outermax, hun.counts]
      bv_omega
    have hcount := (polledEmpty_counts hinner houter).1
    have hle : (polledEmpty s).hv.inner ≤ m := by
      rw [BitVec.le_def, hcount]
      exact hi
    have hpolled : Unanswered a m o tx (polledEmpty s) := { hun with counts := congrArg (· + 1) hun.counts }
    refine ⟨_, (takeTurn_engine hun.released).trans (engineStep_of_emptyPoll hx hun.silent), ?_⟩
    exact .of_hvCheck hmo hpolled hx hle (hcount.trans (congrArg (· + 1) hk))
  · exact ⟨s, takeTurn_engine_of_not_busy (ended_of_not_busy (.inr hst)), hun, .inr ⟨hst, herr, him, by omega⟩⟩

end silent

/-- Settles O28: HV_INNER counts the polls until it reaches HV_MAXWAIT. -/
theorem missingEchoTimesOutAfterMaxWaitPolls : Obligations.MissingEchoTimesOutAfterMaxWaitPolls := by
  intro s t i a text k hs hp hi hq ht hmo
  obtain ⟨opc, v, hopc, hexec⟩ := exec_exchange hs hi
  rw [hexec] at ht
  cases ht
  have hlaunched : Unanswered a s.hvMaxwait s.hvOutermax s.txh (exchangeLaunched opc a v text s) :=
    ⟨hp, rfl, rfl, hq, rfl, rfl, rfl⟩
  have hstart : SilentExchange a s.hvMaxwait s.hvOutermax s.txh 0 (hvCheck (exchangeLaunched opc a v text s)) :=
    .of_hvCheck hmo hlaunched ⟨rfl, hopc⟩ (Nat.zero_le _) rfl
  obtain ⟨u, hu, hend⟩ := deviceRun_counted (chunk := (· = [])) (cs := List.replicate k [])
    (fun k bs s hbs h => by rw [hbs, devicePush_nil]; exact h.turn hmo) (fun _ hmem => List.eq_of_mem_replicate hmem)
    hstart
  rw [List.length_replicate, Nat.zero_add] at hend
  refine ⟨u, hu, ?_⟩
  obtain ⟨hun, ⟨hx, hlt, hk⟩ | ⟨hst, herr, him, hle⟩⟩ := hend
  · have hlt : u.hv.inner.toNat < s.hvMaxwait.toNat := hlt
    exact ⟨fun _ => hx.1, fun hge => by omega⟩
  · exact ⟨fun hlt => by omega, fun _ => ⟨hst, herr, hun.phase, him, hun.counts.trans him, hun.sent⟩⟩

/-! ### The outer budget (rule R116) -/

/-- `s` with the largest outer budget. -/
def widened (s : State) : State := { s with hvOutermax := 0xFFFFFFFF }

/-- The check does not depend on the outer budget where that is not spent before the inner one. -/
theorem hvCheck_widened {s : State} (h : s.hvOutermax ≤ s.hv.outer → s.hvMaxwait ≤ s.hv.inner) :
    hvCheck (widened s) = widened (hvCheck s) := by
  obtain ⟨hspent, hc⟩ | ⟨hi, ho, hc⟩ := hvCheck_cases s <;> rw [hc]
  · have hinner : s.hvMaxwait ≤ s.hv.inner := hspent.elim id h
    exact if_pos (.inl hinner)
  · refine if_neg (not_or.2 ⟨?_, ?_⟩)
    · change ¬ s.hvMaxwait ≤ s.hv.inner
      bv_omega
    · change ¬ 0xFFFFFFFF ≤ s.hv.outer
      bv_omega

theorem hvReceive_widened (b : Byte) (s : State) : hvReceive b (widened s) = widened (hvReceive b s) := by
  obtain ⟨hb, h⟩ | ⟨hp, rfl, h⟩ | ⟨hp, rfl, h⟩ := hvReceive_cases b s <;> rw [h]
  · exact hvReceive_of_mismatch (s := widened s) hb
  · exact hvReceive_of_echo (s := widened s) hp
  · exact hvReceive_of_executed (s := widened s) hp

section widened
variable {a : Byte} {text : List Byte} {m o : Word} {tx q : List Byte} {s t : State}

/-- The launch does not look at the outer budget but for its check. -/
theorem exec_exchange_widened {i : Instr} (hs : s.accepts) (hi : IsExchange i a text s)
    (h : s.hvOutermax ≤ 0 → s.hvMaxwait ≤ 0) (ht : exec i s = .next t) : exec i (widened s) = .next (widened t) := by
  obtain ⟨rfl, rfl⟩ | ⟨c, hc, rfl, rfl⟩ := hi
  · rw [exec_exchangeDec_of_accepts hs] at ht
    cases ht
    rw [exec_exchangeDec_of_accepts (s := widened s) hs]
    exact congrArg _ (hvCheck_widened (s := exchangeLaunched 0x03 a s.arg0 (decText s.arg0) s) h)
  · rw [exec_exchangeLit_of_accepts hs a hc] at ht
    cases ht
    rw [exec_exchangeLit_of_accepts (s := widened s) hs a hc]
    exact congrArg _ (hvCheck_widened (s := exchangeLaunched 0x04 a (c.zeroExtend 32) [c] s) h)

theorem Exchanging.turn_widened (hmo : 2 * m.toNat ≤ o.toNat + 1) (h : Exchanging a text m o tx q s)
    (ht : takeTurn .engine s = .next t) : takeTurn .engine (widened s) = .next (widened t) := by
  have hended (he : s.ended) : takeTurn .engine (widened s) = .next (widened t) := by
    rw [takeTurn_engine_of_not_busy (ended_of_not_busy he)] at ht
    cases ht
    exact takeTurn_engine_of_not_busy (s := widened s) (ended_of_not_busy he)
  cases h.stands with
  | done hst => exact hended (.inl hst)
  | failed hst => exact hended (.inr hst)
  | running hx hi ho hc =>
    rw [takeTurn_engine h.released] at ht
    rw [takeTurn_engine (s := widened s) h.released]
    cases hq : s.rxq with
    | nil =>
      rw [engineStep_of_emptyPoll hx hq, hvEmptyPoll_eq_check] at ht
      cases ht
      obtain ⟨hinner, houter⟩ := polledEmpty_counts hi ho
      have hi : s.hv.inner.toNat < s.hvMaxwait.toNat := hi
      rw [engineStep_of_emptyPoll (s := widened s) hx hq]
      refine congrArg _ (hvCheck_widened (s := polledEmpty s) fun hspent => ?_)
      rw [BitVec.le_def, houter] at hspent
      rw [BitVec.le_def, hinner]
      change s.hvOutermax.toNat ≤ _ at hspent
      change s.hvMaxwait.toNat ≤ _
      rw [← h.maxwait, ← h.outermax] at hmo
      omega
    | cons b q' =>
      rw [engineStep_of_received hx hq] at ht
      cases ht
      rw [engineStep_of_received (s := widened s) hx hq]
      exact congrArg _ (hvReceive_widened b { s with rxq := q' })

/-- Beside any device the exchange and the one with the largest outer budget go the same way. -/
theorem Exchanging.deviceRun_widened (hmo : 2 * m.toNat ≤ o.toNat + 1) (cs : List (List Byte))
    (h : Exchanging a text m o tx q s) :
    ∃ u, deviceRun cs s = .next u ∧ deviceRun cs (widened s) = .next (widened u) := by
  induction cs generalizing q s with
  | nil => exact ⟨s, rfl, rfl⟩
  | cons bs cs ih =>
    have hpush := h.devicePush bs
    obtain ⟨t, ht⟩ := hpush.exists_turn
    have htw : takeTurn .engine (Machine.devicePush bs (widened s)) = .next (widened t) := hpush.turn_widened hmo ht
    obtain ⟨u, hu, huw⟩ := ih (hpush.engineTurn ht)
    exact ⟨u, by simp only [deviceRun, ht, hu], by simp only [deviceRun, htw, huw]⟩

/-- With a large outer budget a timeout is the inner budget's. -/
theorem Exchanging.inner_of_timeout (hm : 1 ≤ m.toNat) (hmo : 2 * m.toNat ≤ o.toNat + 1)
    (h : Exchanging a text m o tx q s) (hst : s.status.state = .error) (herr : s.status.err = .protocolTimeout) :
    s.hv.inner = m := by
  have hmax := h.maxwait
  have hout := h.outermax
  cases h.stands with
  | running hx => exact absurd hx.1 (ended_of_not_busy (.inr hst))
  | done hst' => exact absurd (hst.symm.trans hst') (by decide)
  | failed _ _ hc =>
    obtain hi | ⟨hi, ho, hc⟩ := hc herr
    · exact hi.trans hmax
    · have hi : s.hv.inner.toNat < s.hvMaxwait.toNat := hi
      rw [hmax] at hi hc
      rw [ho, hout] at hc
      omega

end widened

/-- Settles O29: both launches start with unspent budgets, and then each turn of the one is a turn of the other. -/
theorem largeOuterBudgetNeverDecides : Obligations.LargeOuterBudgetNeverDecides := by
  intro s t t' i a text cs hs hp hi hm hmo ht ht'
  have hex := Exchanging.of_launch hs hp hi ht
  have hspent : s.hvOutermax ≤ 0 → s.hvMaxwait ≤ 0 := fun ho => by
    have ho : s.hvOutermax.toNat ≤ 0 := ho
    exact absurd ho (by omega)
  have hwide : t' = widened t :=
    Host.Outcome.next.inj (ht'.symm.trans (exec_exchange_widened hs hi hspent ht))
  obtain ⟨u, hu, huw⟩ := hex.deviceRun_widened hmo cs
  exact ⟨u, hu, hwide ▸ huw, (hex.of_deviceRun hu).inner_of_timeout hm hmo⟩

end Sys2Proof.Proofs
